-- ==== Sys2Proof/Word.lean ====
section
/-! DEFINITION. The words of the machine: bytes of system memory and 32-bit register and slot words (R9). -/

namespace Sys2Proof

/-- One byte of system memory, the spec's u8 as it stands on the bus (R9, R50). -/
abbrev Byte := BitVec 8

/-- One 32-bit register value, output slot or command word (R9, R21, R71). -/
abbrev Word := BitVec 32

end Sys2Proof
end

