-- ==== Sys2Proof/Syntax.lean ====
section
/-! DEFINITION. The commands (one constructor per row of spec/opcode_table.json) and the register access that
carries them (R70, R72). -/

namespace Sys2Proof

/-- The commands of the opcode map (R72). None has an operand: PROCESS takes its operands from the parameter
registers (R74). -/
inductive Instr where
  /-- no effect (R101) -/
  | nop
  /-- make the block Ready (R102) -/
  | init
  /-- make the block Uninitialized (R103) -/
  | cleanup
  /-- process one frame (R104 to R109) -/
  | process
deriving DecidableEq, Repr

/-- One access on the register port (R70). `size` is its width in bytes: the block supports 4 only. -/
structure RegAccess where
  /-- `dir`: false is a read, true a write -/
  write : Bool
  size : Nat
  /-- the byte offset from REG_BASE -/
  off : Nat
  /-- write data; of no meaning on a read -/
  data : Word
deriving DecidableEq, Repr

end Sys2Proof
end

