-- ==== Sys2Proof/WellFormed.lean ====
section
/-! DEFINITION. Which register accesses the spec gives a meaning (R70), and which commands are well formed (R71, R75). -/

namespace Sys2Proof

/-- Commands carry no operands (R74), so every term of `Instr` is well formed. -/
def Instr.wf (i : Instr) : Bool :=
  match i with
  | .nop => true
  | .init => true
  | .cleanup => true
  | .process => true

/-- R70: the access is 32 bits wide. -/
def RegAccess.fullWidth (a : RegAccess) : Bool := a.size == 4

/-- R70: the access is word-aligned. -/
def RegAccess.aligned (a : RegAccess) : Bool := a.off % 4 == 0

/-- R70: the offset lies in the block's 64-byte window. -/
def RegAccess.inWindow (a : RegAccess) : Bool := decide (a.off < 0x40)

/-- R70: an access the block supports. -/
def RegAccess.wf (a : RegAccess) : Bool := a.fullWidth && a.aligned && a.inWindow

end Sys2Proof
end

