-- ==== Sys2Proof/Decode.lean ====
section
/-! DEFINITION. The decoder of command words (R71 to R73), total on every word, and the encoder (R72). -/

namespace Sys2Proof

/-- Why a command word is illegal (R73). All illegal words are treated alike (R110). -/
inductive DecodeError where
  /-- RSVD, bits 31:4, is nonzero -/
  | reservedBits
  /-- RSVD is zero and OPC is 0x4 to 0xF -/
  | reservedOpcode
deriving DecidableEq, Repr

/-- The OPC field, bits 3:0 (R71). -/
def opcField (w : Word) : BitVec 4 := w.extractLsb' 0 4

/-- The RSVD field, bits 31:4 (R71). -/
def rsvdField (w : Word) : BitVec 28 := w.extractLsb' 4 28

/-- The command of an opcode (R72). -/
def decodeOpc (o : BitVec 4) : Except DecodeError Instr :=
  if o = 0x0#4 then .ok .nop
  else if o = 0x1#4 then .ok .init
  else if o = 0x2#4 then .ok .cleanup
  else if o = 0x3#4 then .ok .process
  else .error .reservedOpcode

/-- The command of a word: the whole 32-bit word decides (R72, R73). -/
def decode (w : Word) : Except DecodeError Instr :=
  if rsvdField w ≠ 0#28 then .error .reservedBits else decodeOpc (opcField w)

/-- The opcode of a command (R72). -/
def opcode (i : Instr) : BitVec 4 :=
  match i with
  | .nop => 0x0#4
  | .init => 0x1#4
  | .cleanup => 0x2#4
  | .process => 0x3#4

/-- The word of a command: RSVD zero above OPC (R71, R72). Every command is one 32-bit word (R75). -/
def encode (i : Instr) : Word := (opcode i).setWidth 32

/-- The word that an instruction of `nbits` bits `w` puts on the register port: the bits above `nbits` are 0. -/
def tableWord (nbits w : Nat) : Word := BitVec.ofNat 32 (w % 2 ^ nbits)

/-- What the decoder reads from a row of the opcode table. A command is one 32-bit word (R75), so a longer
instruction is none. -/
def decodeTableWord (nbits w : Nat) : Option Instr :=
  if 2 ^ 32 ≤ w % 2 ^ nbits then none
  else
    match decode (tableWord nbits w) with
    | .ok i => some i
    | .error _ => none

end Sys2Proof
end

