-- ==== Sys2Proof/Config.lean ====
section
/-! DEFINITION. What the build and the platform fix (R7, 92_eei_decisions.md), and the values the spec leaves free. -/

namespace Sys2Proof

/-- The build-time variant (R4). -/
inductive Variant where
  /-- the full pipeline of R2 -/
  | vision
  /-- the per-pixel luma inversion of R175 -/
  | fallback
deriving DecidableEq, Repr, Inhabited

/-- `VARIANT`, `MAX_WIDTH` and `MAX_HEIGHT` together, legal by construction: R7 allows 1 to 65535 under FALLBACK
and, under VISION, only the even values 2 to 65534. Read them with `Config.variant`, `Config.maxWidth` and
`Config.maxHeight`. -/
inductive Build where
  /-- VISION: each maximum is twice (the field plus one) -/
  | vision (halfMaxWidth halfMaxHeight : Fin 32767)
  /-- FALLBACK: each maximum is the field plus one -/
  | fallback (maxWidth maxHeight : Fin 65535)
deriving DecidableEq, Repr, Inhabited

/-- The `len` addresses from `base` on. -/
structure AddrRange where
  base : Nat
  len : Nat
deriving DecidableEq, Repr, Inhabited

/-- The OPEN parameters of R7 and 92_eei_decisions.md as plain data, so that a state can carry those of the block it is
a state of (DESIGN CHOICE, log entry 2, safe). `LATENCY` is not modelled (R245). -/
structure Config where
  /-- `VARIANT`, `MAX_WIDTH`, `MAX_HEIGHT` (R4, R7) -/
  build : Build
  /-- the addresses where `MEM_OK` is false (R57); any predicate on 2^32 addresses is some list of ranges
  (DESIGN CHOICE, log entry 14, safe) -/
  busHoles : List AddrRange
  /-- the addresses that are not idempotent memory: device registers, reads with side effects (R58;
  DESIGN CHOICE, log entry 15, unsafe) -/
  devices : List AddrRange
  /-- `COHERENT` (R60) -/
  coherent : Bool
  /-- bits 31:6 of `REG_BASE`, which is 64-byte aligned (R55) -/
  regBaseHigh : BitVec 26
deriving DecidableEq, Repr, Inhabited

def Config.variant (c : Config) : Variant :=
  match c.build with
  | .vision _ _ => .vision
  | .fallback _ _ => .fallback

def Config.maxWidth (c : Config) : Nat :=
  match c.build with
  | .vision w _ => 2 * (w.val + 1)
  | .fallback w _ => w.val + 1

def Config.maxHeight (c : Config) : Nat :=
  match c.build with
  | .vision _ h => 2 * (h.val + 1)
  | .fallback _ h => h.val + 1

/-- The choices of one engine step that the spec leaves open (DESIGN CHOICE, log entry 4, safe). -/
structure EngineTurn where
  /-- which of the slots that may be written comes next (R107), as an index taken modulo their number -/
  pick : Nat
  /-- in a job with a bus error: end it now (R109) rather than write one more slot -/
  stop : Bool
deriving DecidableEq, Repr, Inhabited

/-- The build and platform of the block that `State.reset` describes: every value of R7 stays OPEN
(DESIGN CHOICE, log entry 2, safe). -/
opaque Config.platform : Config

/-- A free value: any word, for the n-th use of a free value and a slot or word address (DESIGN CHOICE, log entry 5,
safe). -/
opaque Config.looseWord : Nat → Nat → Word

/-- A free value: any byte, for the n-th use of a free value and a byte address (DESIGN CHOICE, log entry 5, safe). -/
opaque Config.looseByte : Nat → Nat → Byte

/-- A free value: the choices of an engine step that no schedule gives (R107, R109; DESIGN CHOICE, log entry 4,
safe). -/
opaque Config.freeTurn : Nat → EngineTurn

/-- A free value: whether the n-th use of a free value, a host read of a slot of a running job through a port that is not
coherent, returns the slot's value at acceptance (R61 item 3; DESIGN CHOICE, log entry 5, safe). -/
opaque Config.seesOld : Nat → Nat → Bool

end Sys2Proof
end

