-- ==== Sys2Proof/Machine/State.lean ====
section
/-! DEFINITION. The state of the block and of the agents around it (10_state.md), its reset value (R230), and the
ways a step can stop. -/

namespace Sys2Proof.Machine

/-- The result codes of STATUS.RESULT (R29, R200). Codes 8 to 15 are never written, so no constructor stands for one. -/
inductive ResultCode where
  /-- no command has completed since reset -/
  | none
  | ok
  | errNotInit
  | errDim
  | errBounds
  | errOverlap
  | errBus
  | errIllegalCmd
deriving DecidableEq, Repr

/-- The registers of the register map (R22 to R29, R33 to R40). -/
inductive RegName where
  | id
  | cmd
  | status
  | irqEn
  | width
  | height
  | inBase
  | inLen
  | outBase
  | outLen
  /-- the reserved offsets 0x28 to 0x3C (R40) -/
  | reserved
deriving DecidableEq, Repr

/-- The running job (R31, R105, R106). -/
structure Job where
  /-- latched width -/
  w : BitVec 16
  /-- latched height -/
  h : BitVec 16
  /-- latched input base -/
  inb : Word
  /-- latched output base -/
  outb : Word
  /-- RES, fixed at acceptance (R106, R107) -/
  res : List Word
  /-- the value each slot held at acceptance, which a host read during the job may still return (R61 item 3) -/
  old : List Word
  /-- the slots not yet written: the complement of the spec's `written` (R105, R107) -/
  unwritten : List Nat
  /-- the slots that hold any value after completion, because a duty of the host was broken (R58, R221, R241;
  DESIGN CHOICE, log entry 6, safe) -/
  loose : List Nat
deriving DecidableEq, Repr

/-- The engine phase (R30). The latched job exists while the phase is RUN: while it is IDLE the latched values are
undefined and no rule reads them (R31; DEDUCED, log entry 12, safe). -/
inductive Phase where
  | idle
  | run (j : Job)
deriving DecidableEq, Repr

/-- One turn of an agent: a host access, an action of the platform, or an engine step (R8, R44). The sizes of the host's
memory accesses are a DESIGN CHOICE (log entry 16, safe). -/
inductive Event where
  /-- a register access at an offset of the block's window (R70) -/
  | reg (a : RegAccess)
  /-- a register access at a byte address of the platform bus, where the window starts at REG_BASE (R55, R70) -/
  | bus (write : Bool) (size : Nat) (addr data : Word)
  /-- the host stores one byte to system memory (R76, `MEM8`) -/
  | memWriteByte (addr : Word) (b : Byte)
  /-- the host stores one aligned 32-bit word: bits 31:2 of its address and the word -/
  | memWriteWord (addrHigh : BitVec 30) (v : Word)
  /-- the host reads one byte of system memory -/
  | memReadByte (addr : Word)
  /-- the host reads one aligned 32-bit word (R58, R61 item 3): bits 31:2 of its address -/
  | memReadWord (addrHigh : BitVec 30)
  /-- the host makes its memory writes visible to the memory port (R60) -/
  | cacheClean
  /-- the host discards its stale copies of memory (R60) -/
  | cacheInvalidate
  /-- another block's job writes the aligned word of system memory whose address bits 31:2 are given (R221;
  DESIGN CHOICE, log entry 10, safe) -/
  | otherBlock (addrHigh : BitVec 30)
  /-- the platform resets the block (R230 to R232) -/
  | reset
  /-- the engine takes one step, with these choices (R107 to R109) -/
  | engine (t : EngineTurn)
deriving DecidableEq, Repr

/-- System memory: (address, byte) pairs, addresses strictly rising, no pair equal to what an unlisted address
reads as (`Memory.wf`). -/
abbrev Memory := List Host.Cell

/-- The state. The first group is the block's own (R20); the second is what surrounds it; the third is the model's. -/
structure State where
  /-- STATUS.READY, the lifecycle flag (R25) -/
  ready : Bool
  /-- STATUS.DONE (R27) -/
  done : Bool
  /-- STATUS.OVERRUN (R28) -/
  overrun : Bool
  /-- STATUS.RESULT (R29) -/
  result : ResultCode
  /-- IRQ_EN.IE (R33) -/
  ie : Bool
  /-- WIDTH[15:0] (R34) -/
  width : BitVec 16
  /-- HEIGHT[15:0] (R35) -/
  height : BitVec 16
  /-- IN_BASE (R36) -/
  inBase : Word
  /-- IN_LEN (R37) -/
  inLen : Word
  /-- OUT_BASE[31:2] (R38) -/
  outBase : BitVec 30
  /-- OUT_LEN (R39) -/
  outLen : Word
  /-- the engine phase and, in RUN, the latched job (R30, R31); STATUS.BUSY shows it (R26) -/
  phase : Phase
  /-- system memory, which the host owns (R50) -/
  mem : Memory
  /-- when `COHERENT` is false: the addresses of host writes not yet visible to the memory port (R60; DESIGN CHOICE,
  log entry 7, unsafe) -/
  dirty : List Nat
  /-- when `COHERENT` is false: the addresses of which the host may hold a stale copy, because a job over them has ended
  or another block has written them (R60; DESIGN CHOICE, log entry 7, unsafe) -/
  stale : List Nat
  /-- the data the host's most recent read returned, if it returned any (R70, R111; DESIGN CHOICE, log entry 8, safe) -/
  busData : Option Word
  /-- the build and platform parameters (R7); no step changes them -/
  cfg : Config
  /-- the turns to come, in the order in which the agents' steps are interleaved (R44; DESIGN CHOICE, log entry 3,
  safe) -/
  agenda : List Event
  /-- how many free values have been used (DESIGN CHOICE, log entry 5, safe) -/
  fresh : Nat
deriving DecidableEq, Repr

/-- Why a machine stops with a fault. NONE: the block never traps, stops or hangs (60_exceptions.md, R205), and every
system-memory address exists (R50); a bus error ends a job with ERR_BUS (R57, R109). -/
inductive Fault where
deriving DecidableEq, Repr

/-- Why a step has no meaning. That an access failing two checks is refused under the first name below is a DESIGN
CHOICE (log entry 17, safe). -/
inductive Refusal where
  /-- an instruction without a meaning; no arm of `exec` raises it. Safe: the run stops. -/
  | notModelled (mnemonic : String)
  /-- raised by `regAccess`: an access that is not 32 bits wide, to which R70 gives no meaning. Safe: the run stops. -/
  | unsupportedWidth
  /-- raised by `regAccess`: an access that is not word-aligned, to which R70 gives no meaning. Safe: the run stops. -/
  | misalignedAccess
  /-- raised by `regAccess`: an offset of 0x40 or above, to which R70 gives no meaning. Safe: the run stops. -/
  | outsideWindow
deriving DecidableEq, Repr

/-- What one step answers. -/
abbrev Answer := Host.Outcome State Fault Refusal

/-- A block of build and platform `c` right after reset (R230), with nothing in memory, no host turn to come and no
free value used. -/
def State.resetOf (c : Config) : State where
  ready := false
  done := false
  overrun := false
  result := .none
  ie := false
  width := 0#16
  height := 0#16
  inBase := 0#32
  inLen := 0#32
  outBase := 0#30
  outLen := 0#32
  phase := .idle
  mem := []
  dirty := []
  stale := []
  busData := Option.none
  cfg := c
  agenda := []
  fresh := 0

/-- The machine right after reset (R230); its build and platform stay OPEN (R7). -/
def State.reset : State := State.resetOf Config.platform

end Sys2Proof.Machine
end

