-- ==== Sys2Proof/Machine/Operands.lean ====
section
/-! DEFINITION. Operand assembly (R74), the addresses of a job, the register map's offsets, and the questions the
block asks of the platform (R55, R57, R58). -/

namespace Sys2Proof.Machine

/-- W: WIDTH[15:0], zero-extended (R74). -/
def opWidth (s : State) : Nat := s.width.toNat

/-- H: HEIGHT[15:0], zero-extended (R74). -/
def opHeight (s : State) : Nat := s.height.toNat

/-- OUT_BASE[31:2] ++ 00: a byte address, a multiple of 4 (R38, R74). -/
def opOutBase (s : State) : Word := s.outBase.setWidth 32 <<< 2

/-- The slots a `w` by `h` frame writes (R105). -/
def needOut (w h : Nat) : Nat := w * h

/-- The bytes a `w` by `h` frame reads (R105): whole NV21 rows under VISION, luma only under FALLBACK. -/
def needIn (v : Variant) (w h : Nat) : Nat :=
  match v with
  | .vision => w * (h + h / 2)
  | .fallback => w * h

/-- The byte address of word number `addrHigh`. -/
def wordAddr (addrHigh : BitVec 30) : Nat := 4 * addrHigh.toNat

/-- The number of slots of a job. -/
def jobSlots (j : Job) : Nat := needOut j.w.toNat j.h.toNat

/-- The number of input bytes of a job. -/
def jobNeedIn (v : Variant) (j : Job) : Nat := needIn v j.w.toNat j.h.toNat

/-- The byte address of slot `i` of a job: `outb + 4*i` (R53). -/
def slotAddr (j : Job) (i : Nat) : Nat := j.outb.toNat + 4 * i

/-- The running job's slot at a byte address, if there is one. -/
def slotAtAddr (j : Job) (a : Nat) : Option Nat :=
  if j.outb.toNat ≤ a ∧ a < j.outb.toNat + 4 * jobSlots j then some ((a - j.outb.toNat) / 4) else Option.none

/-- Whether two byte ranges, each a base and a length, share a byte. -/
def rangesMeet (a n b m : Nat) : Bool := decide (a < b + m) && decide (b < a + n)

/-- Whether `len` bytes from `a` meet the job's input range `inb .. inb+need_in-1` (R241). -/
def meetsInput (v : Variant) (j : Job) (a len : Nat) : Bool :=
  rangesMeet a len j.inb.toNat (jobNeedIn v j)

/-- Whether an address lies in a range. -/
def inRange (r : AddrRange) (a : Nat) : Bool := decide (r.base ≤ a) && decide (a < r.base + r.len)

/-- `MEM_OK(a)` (R57). -/
def memOk (c : Config) (a : Nat) : Bool := !(c.busHoles.any fun r => inRange r a)

/-- `MEM_OK` at each of the `n` addresses from `a` on. -/
def rangeOk (c : Config) (a n : Nat) : Bool := (List.range n).all fun k => memOk c (a + k)

/-- Whether an address is not idempotent memory (R58). The block's own register window counts as idempotent memory unless
the platform lists it, because the register space is separate from the memory the engine sees (R51; DESIGN CHOICE, log
entry 23, unsafe). -/
def isDevice (c : Config) (a : Nat) : Bool := c.devices.any fun r => inRange r a

/-- Whether any of the `n` addresses from `a` on is not idempotent memory (R58). -/
def hitsDevice (c : Config) (a n : Nat) : Bool := (List.range n).any fun k => isDevice c (a + k)

/-- The register at an offset of the window (the register map of 10_state.md); `none` off a word boundary and
from 0x40 on. -/
def regAt (off : Nat) : Option RegName :=
  match off with
  | 0x00 => some .id
  | 0x04 => some .cmd
  | 0x08 => some .status
  | 0x0C => some .irqEn
  | 0x10 => some .width
  | 0x14 => some .height
  | 0x18 => some .inBase
  | 0x1C => some .inLen
  | 0x20 => some .outBase
  | 0x24 => some .outLen
  | 0x28 => some .reserved
  | 0x2C => some .reserved
  | 0x30 => some .reserved
  | 0x34 => some .reserved
  | 0x38 => some .reserved
  | 0x3C => some .reserved
  | _ => Option.none

/-- REG_BASE, 64-byte aligned (R55). -/
def regBase (c : Config) : Word := c.regBaseHigh.setWidth 32 <<< 6

/-- The offset of a platform address in the block's window (R70): `addr - REG_BASE`. -/
def windowOffset (c : Config) (addr : Word) : Nat := (addr - regBase c).toNat

end Sys2Proof.Machine
end

