-- ==== Sys2Proof/Machine/Flags.lean ====
section
/-! DEFINITION. The status fields: STATUS as it reads (R24), its write-one-to-clear bits (R41), BUSY (R26) and the
interrupt output (R43). -/

namespace Sys2Proof.Machine

/-- The 4-bit code of a result (R200). -/
def resultCode (r : ResultCode) : BitVec 4 :=
  match r with
  | .none => 0#4
  | .ok => 1#4
  | .errNotInit => 2#4
  | .errDim => 3#4
  | .errBounds => 4#4
  | .errOverlap => 5#4
  | .errBus => 6#4
  | .errIllegalCmd => 7#4

/-- STATUS.VARIANT: 0 under VISION, 1 under FALLBACK (R24). -/
def variantBit (v : Variant) : BitVec 1 :=
  match v with
  | .vision => 0#1
  | .fallback => 1#1

/-- STATUS.BUSY: 1 exactly while the phase is RUN (R26); a view, not stored (DEDUCED, log entry 13, safe). -/
def busy (s : State) : Bool :=
  match s.phase with
  | .idle => false
  | .run _ => true

/-- STATUS as a read returns it (R24, R111): bits 31:9 zero, then VARIANT, RESULT, OVERRUN, DONE, BUSY, READY. -/
def statusWord (s : State) : Word :=
  0#23 ++ variantBit s.cfg.variant ++ resultCode s.result ++ BitVec.ofBool s.overrun ++ BitVec.ofBool s.done
    ++ BitVec.ofBool (busy s) ++ BitVec.ofBool s.ready

/-- A write of `v` to STATUS (R41): bit 2 clears DONE, bit 3 clears OVERRUN, nothing else changes. -/
def statusWrite (v : Word) (s : State) : State :=
  { s with
    done := s.done && !v.getLsbD 2
    overrun := s.overrun && !v.getLsbD 3 }

/-- The level of the interrupt output (R43): DONE and IE; a view, not stored (DEDUCED, log entry 13, safe). -/
def irq (s : State) : Bool := s.done && s.ie

end Sys2Proof.Machine
end

