-- ==== Sys2Proof/Machine/Ops.lean ====
section
/-! DEFINITION. The named operations over memory and registers, and completion, which is all that an error does in this
block (R205). -/

namespace Sys2Proof.Machine

/-! ### System memory -/

/-- What an address that memory does not list reads as. DESIGN CHOICE (log entry 1), unsafe: the spec gives system
memory no reset contents; 95_test_vectors.md starts its programs with every byte 0. -/
def unlistedByte : Byte := 0#8

/-- The byte at an address. -/
def Memory.read (m : Memory) (a : Nat) : Byte :=
  match m with
  | [] => unlistedByte
  | c :: rest => if c.1 = a then c.2 else if a < c.1 then unlistedByte else Memory.read rest a

/-- Memory with one byte changed, in the canonical form. -/
def Memory.write (m : Memory) (a : Nat) (v : Byte) : Memory :=
  match m with
  | [] => if v = unlistedByte then [] else [(a, v)]
  | c :: rest =>
    if a < c.1 then (if v = unlistedByte then c :: rest else (a, v) :: c :: rest)
    else if c.1 = a then (if v = unlistedByte then rest else (a, v) :: rest)
    else c :: Memory.write rest a v

/-- The canonical form: addresses strictly rising and below 2^32 (R50), no entry equal to `unlistedByte`. -/
def Memory.wf (m : Memory) : Bool :=
  match m with
  | [] => true
  | c :: rest =>
    decide (c.1 < 2 ^ 32) && decide (c.2 ≠ unlistedByte)
      && (match rest with
          | [] => true
          | d :: _ => decide (c.1 < d.1))
      && Memory.wf rest

/-- Byte `k` of a word, in the little-endian order of R53. -/
def wordByte (v : Word) (k : Nat) : Byte := v.extractLsb' (8 * k) 8

/-- The little-endian word at byte address `a` (R53). -/
def Memory.readWord (m : Memory) (a : Nat) : Word :=
  Memory.read m (a + 3) ++ Memory.read m (a + 2) ++ Memory.read m (a + 1) ++ Memory.read m a

/-- One byte written to system memory by any agent: nothing changes where the platform answers with a bus error (R57;
for the host's own writes DEDUCED, log entry 9, unsafe). -/
def storeByte (a : Nat) (b : Byte) (s : State) : State :=
  if memOk s.cfg a then { s with mem := Memory.write s.mem a b } else s

/-- One word written to system memory, little-endian (R53). -/
def storeWord (a : Nat) (v : Word) (s : State) : State :=
  storeByte (a + 3) (wordByte v 3) (storeByte (a + 2) (wordByte v 2)
    (storeByte (a + 1) (wordByte v 1) (storeByte a (wordByte v 0) s)))

/-! ### What the host's caches hide (R60)

With `COHERENT` true nothing is ever hidden and both lists stay as they are. How finely the marks are kept, and when
they are dropped, is a DESIGN CHOICE (log entry 7), unsafe. -/

/-- An address list with one address more. -/
def addAddr (l : List Nat) (a : Nat) : List Nat := if l.contains a then l else a :: l

/-- The host has written `n` bytes from `a` on: not yet visible to the memory port; the host's own copy is the latest. -/
def markDirty (a n : Nat) (s : State) : State :=
  if s.cfg.coherent then s
  else
    { s with
      dirty := ((List.range n).map (a + ·)).foldl addAddr s.dirty
      stale := s.stale.filter fun x => !(decide (a ≤ x) && decide (x < a + n)) }

/-- A bus master other than the host has written `n` bytes from `a` on: a host write there that was not yet visible has
been overwritten. -/
def overwriteDirty (a n : Nat) (s : State) : State :=
  if s.cfg.coherent then s
  else { s with dirty := s.dirty.filter fun x => !(decide (a ≤ x) && decide (x < a + n)) }

/-- The host may from here on hold stale copies of the `n` bytes from `a` on, until it discards them. -/
def addStale (a n : Nat) (s : State) : State :=
  if s.cfg.coherent then s else { s with stale := ((List.range n).map (a + ·)).foldl addAddr s.stale }

/-- The byte an engine read of address `a` returns (R52, R60): a free value where a host write is not yet visible and
where the address is a device's (R58; DESIGN CHOICE, log entry 15). -/
def engineReadByte (s : State) (a : Nat) : Byte :=
  if (s.cfg.coherent || !s.dirty.contains a) && !isDevice s.cfg a then Memory.read s.mem a
  else Config.looseByte s.fresh a

/-- The byte of address `a` as a host without stale copies sees it: memory as it stands, but through a port that is not
coherent a slot of the running job may still show its value at acceptance, whole (R58, R61 item 3). -/
def hostSees (s : State) (a : Nat) : Byte :=
  match s.phase with
  | .idle => Memory.read s.mem a
  | .run j =>
    match slotAtAddr j a with
    | .none => Memory.read s.mem a
    | some i =>
      if !s.cfg.coherent && Config.seesOld s.fresh i then wordByte (j.old.getD i 0#32) (a - slotAddr j i)
      else Memory.read s.mem a

/-- The byte a host read of address `a` returns (R60): a free value where the host may hold a stale copy, because it has
not discarded since the job ended, and where the address is a device's (R58; DESIGN CHOICE, log entry 15). -/
def hostReadByte (s : State) (a : Nat) : Byte :=
  if (s.cfg.coherent || !s.stale.contains a) && !isDevice s.cfg a then hostSees s a
  else Config.looseByte s.fresh a

/-- Advance the supply of free values. -/
def useFresh (s : State) : State := { s with fresh := s.fresh + 1 }

/-! ### Completion and errors (R12, R205)

The block takes no exception: an error is a completion that records its code. There is no handler address, no saved
state and no mode, so the only thing to return from is DONE, which the host clears through STATUS (R211). -/

/-- What every completion writes (R205): RESULT and DONE, and nothing else. -/
def completeWith (code : ResultCode) (s : State) : State := { s with result := code, done := true }

/-- `raise Error(code)` (R12). -/
def raiseError (code : ResultCode) (s : State) : State := completeWith code s

/-- `complete(OK)` (R12). -/
def completeOk (s : State) : State := completeWith .ok s

/-- The host acknowledges a completion (R211): the write of STATUS that `ACK` stands for (R77). -/
def acknowledge (s : State) : State := statusWrite 0x0000000C#32 s

/-- A CMD write while a job runs is dropped and sets OVERRUN (R100, R209). -/
def dropCommand (s : State) : State := { s with overrun := true }

/-- Acceptance of a command other than NOP clears DONE (R100). -/
def clearDone (s : State) : State := { s with done := false }

/-- Acceptance (R100): dropped while the phase is RUN, otherwise the command's own effect. -/
def acceptCommand (effect : State → State) (s : State) : State :=
  match s.phase with
  | .run _ => dropCommand s
  | .idle => effect s

/-! ### Registers -/

/-- The value a host read of a register returns (R111). No read has a side effect. -/
def regRead (r : RegName) (s : State) : Word :=
  match r with
  | .id => 0x4E563231#32
  | .cmd => 0#32
  | .status => statusWord s
  | .irqEn => (BitVec.ofBool s.ie).setWidth 32
  | .width => s.width.setWidth 32
  | .height => s.height.setWidth 32
  | .inBase => s.inBase
  | .inLen => s.inLen
  | .outBase => opOutBase s
  | .outLen => s.outLen
  | .reserved => 0#32

/-- A host write of a register other than CMD (R112): STATUS by R41, a parameter register by R42 with its RAZ/WI bits
dropped, ID and the reserved offsets ignored. CMD keeps no value (R23): its write is a command (`commandWrite`). -/
def regStore (r : RegName) (v : Word) (s : State) : State :=
  match r with
  | .id => s
  | .cmd => s
  | .status => statusWrite v s
  | .irqEn => { s with ie := v.getLsbD 0 }
  | .width => { s with width := v.extractLsb' 0 16 }
  | .height => { s with height := v.extractLsb' 0 16 }
  | .inBase => { s with inBase := v }
  | .inLen => { s with inLen := v }
  | .outBase => { s with outBase := v.extractLsb' 2 30 }
  | .outLen => { s with outLen := v }
  | .reserved => s

/-- Data returned to the host by a read. -/
def returnData (d : Option Word) (s : State) : State := { s with busData := d }

end Sys2Proof.Machine
end

