-- ==== Sys2Proof/Machine/Lifecycle.lean ====
section
/-! DEFINITION. The lifecycle commands NOP, INIT and CLEANUP (R101 to R103), and illegal command words (R110). -/

namespace Sys2Proof.Machine

/-- NOP (R101): no effect, DONE included; while a job runs it is dropped like any CMD write. -/
def execNop (s : State) : Answer := .next (acceptCommand (fun t => t) s)

/-- INIT (R102): READY becomes 1 and the command completes OK, whatever READY was. -/
def execInit (s : State) : Answer :=
  .next (acceptCommand (fun t => completeOk { clearDone t with ready := true }) s)

/-- CLEANUP (R103): READY becomes 0 and the command completes OK, whatever READY was. -/
def execCleanup (s : State) : Answer :=
  .next (acceptCommand (fun t => completeOk { clearDone t with ready := false }) s)

/-- An illegal command word (R110): ERR_ILLEGAL_CMD and nothing else; while a job runs it is dropped (R73, R100). -/
def illegalWord (s : State) : State := acceptCommand (fun t => raiseError .errIllegalCmd (clearDone t)) s

end Sys2Proof.Machine
end

