-- ==== Sys2Proof/Machine/Image.lean ====
section
/-! DEFINITION. Images (R11) and the arithmetic of R10. -/

namespace Sys2Proof.Machine

/-- An image of width `w` and height `h`, its values in row-major order: position (x, y) at index `y*w + x` (R11). -/
structure Image (α : Type) where
  w : Nat
  h : Nat
  px : List α
deriving DecidableEq, Repr

/-- The image whose value at (x, y) is `f x y`. -/
def tabulate {α : Type} (w h : Nat) (f : Nat → Nat → α) : Image α :=
  { w := w, h := h, px := (List.range (w * h)).map fun i => f (i % w) (i / w) }

/-- `I[y][x]` for a position inside the image (R11). -/
def pixel {α : Type} [Inhabited α] (img : Image α) (x y : Nat) : α := img.px.getD (y * img.w + x) default

/-- Whether a position lies inside the image. -/
def inside {α : Type} (img : Image α) (x y : Int) : Bool :=
  decide (0 ≤ x) && decide (x < img.w) && decide (0 ≤ y) && decide (y < img.h)

/-- `a >> n`: floor(a / 2^n) (R10). -/
def asr (a : Int) (n : Nat) : Int := a / 2 ^ n

/-- `sat8(v)`: v held to 0 .. 255 (R10). -/
def sat8 (v : Int) : Nat := (min (max v 0) 255).toNat

/-- `clamp(p, n)`: p held to 0 .. n-1 (R151). -/
def clampIdx (p : Int) (n : Nat) : Nat := (min (max p 0) ((n : Int) - 1)).toNat

end Sys2Proof.Machine
end

