-- ==== Sys2Proof/Machine/BlurFilter.lean ====
section
/-! DEFINITION. The 5×5 Gaussian FIR filter (42_blur_filter.md). -/

namespace Sys2Proof.Machine

/-- The loop of `refl` (R140), with a bound on its passes. -/
def reflectLoop (n : Int) (passes : Nat) (p : Int) : Int :=
  match passes with
  | 0 => p
  | k + 1 => if p < 0 then reflectLoop n k (-p) else if n ≤ p then reflectLoop n k (2 * (n - 1) - p) else p

/-- `refl(p, n)`, the reflect-101 border (R140). Two passes outside the image bring `p` at least 2 nearer, so
`|p| + 2` passes are enough (DEDUCED, log entry 20, safe). -/
def reflect101 (p : Int) (n : Nat) : Nat := if n = 1 then 0 else (reflectLoop n (p.natAbs + 2) p).toNat

/-- The kernel `k`, in units of 1/16 (R141). -/
def kernelTap (i : Nat) : Nat := [1, 4, 6, 4, 1].getD i 0

/-- `S`: the weighted sum of R142 at (x, y), in units of 1/256. -/
def blurSum (g : Image Nat) (x y : Nat) : Nat :=
  ((List.range 5).map fun j =>
    ((List.range 5).map fun i =>
      kernelTap j * kernelTap i
        * pixel g (reflect101 ((x : Int) + i - 2) g.w) (reflect101 ((y : Int) + j - 2) g.h)).sum).sum

/-- `GaussBlur5` (R142): one rounding, halves up. -/
def gaussBlur5 (g : Image Nat) : Image Nat := tabulate g.w g.h fun x y => (blurSum g x y + 128) / 2 ^ 8

/-- `Hs`: the row pass of the separable form (R143), kept exactly. -/
def rowPass (g : Image Nat) : Image Nat :=
  tabulate g.w g.h fun x y =>
    ((List.range 5).map fun i => kernelTap i * pixel g (reflect101 ((x : Int) + i - 2) g.w) y).sum

/-- The separable form (R143): rows first, then columns, rounded once. The block is specified by `gaussBlur5`. -/
def separableBlur5 (g : Image Nat) : Image Nat :=
  tabulate g.w g.h fun x y =>
    (((List.range 5).map fun j =>
      kernelTap j * pixel (rowPass g) x (reflect101 ((y : Int) + j - 2) g.h)).sum + 128) / 2 ^ 8

end Sys2Proof.Machine
end

