-- ==== Sys2Proof/Machine/ColourConvert.lean ====
section
/-! DEFINITION. The colour converter: NV21 to RGB to luminance (41_colour_convert.md). -/

namespace Sys2Proof.Machine

/-- One pixel's colour, three u8 values. -/
structure Rgb where
  r : Nat
  g : Nat
  b : Nat
deriving DecidableEq, Repr, Inhabited

/-- `IN(k)` as a number (R13). -/
def inByte (input : List Byte) (k : Nat) : Nat := (input.getD k 0#8).toNat

/-- `Y(x,y)` (R120). -/
def lumaAt (input : List Byte) (w x y : Nat) : Nat := inByte input (y * w + x)

/-- `V(x,y)` (R120): the first byte of the pair of the pixel's 2×2 block. -/
def chromaV (input : List Byte) (w h x y : Nat) : Nat := inByte input (w * h + (y / 2) * w + 2 * (x / 2))

/-- `U(x,y)` (R120): the second byte of that pair. -/
def chromaU (input : List Byte) (w h x y : Nat) : Nat := inByte input (w * h + (y / 2) * w + 2 * (x / 2) + 1)

/-- YUV to RGB, one pixel (R122). -/
def yuvToRgb (y u v : Nat) : Rgb :=
  let uu : Int := (u : Int) - 128
  let vv : Int := (v : Int) - 128
  let ruv : Int := 2 ^ 19 + 1673527 * vv
  let guv : Int := 2 ^ 19 - 852492 * vv - 409993 * uu
  let buv : Int := 2 ^ 19 + 2116026 * uu
  let yy : Int := max 0 ((y : Int) - 16) * 1220542
  { r := sat8 (asr (yy + ruv) 20), g := sat8 (asr (yy + guv) 20), b := sat8 (asr (yy + buv) 20) }

/-- `NV21ToRGB` (R106, R120 to R123). -/
def nv21ToRgb (input : List Byte) (w h : Nat) : Image Rgb :=
  tabulate w h fun x y => yuvToRgb (lumaAt input w x y) (chromaU input w h x y) (chromaV input w h x y)

/-- `Resize`: the identity (R124). -/
def resize (img : Image Rgb) : Image Rgb := img

/-- RGB to grey, one pixel (R125). -/
def rgbToGray (c : Rgb) : Nat := (4899 * c.r + 9617 * c.g + 1868 * c.b + 8192) / 2 ^ 14

/-- `RGBToGray` (R125, R126). -/
def grayImage (img : Image Rgb) : Image Nat := tabulate img.w img.h fun x y => rgbToGray (pixel img x y)

end Sys2Proof.Machine
end

