-- ==== Sys2Proof/Machine/EdgeDetect.lean ====
section
/-! DEFINITION. The Canny edge detector with its Sobel gradient (43_edge_detect.md). -/

namespace Sys2Proof.Machine

/-- `EDGE_LOW` (R155). -/
def edgeLow : Nat := 50

/-- `EDGE_HIGH` (R155). -/
def edgeHigh : Nat := 150

/-! ### Gradient -/

/-- `Bc(y, x)`: the blurred image with its nearest edge pixel repeated outside (R151). -/
def replicated (b : Image Nat) (y x : Int) : Int := ((pixel b (clampIdx x b.w) (clampIdx y b.h) : Nat) : Int)

/-- `dx[y][x]` (R152). -/
def sobelX (b : Image Nat) (x y : Int) : Int :=
  (replicated b (y - 1) (x + 1) + 2 * replicated b y (x + 1) + replicated b (y + 1) (x + 1))
    - (replicated b (y - 1) (x - 1) + 2 * replicated b y (x - 1) + replicated b (y + 1) (x - 1))

/-- `dy[y][x]` (R153). -/
def sobelY (b : Image Nat) (x y : Int) : Int :=
  (replicated b (y + 1) (x - 1) + 2 * replicated b (y + 1) x + replicated b (y + 1) (x + 1))
    - (replicated b (y - 1) (x - 1) + 2 * replicated b (y - 1) x + replicated b (y - 1) (x + 1))

/-- The two derivatives at a pixel. -/
structure Gradient where
  dx : Int
  dy : Int
deriving DecidableEq, Repr, Inhabited

/-- The derivatives of every pixel (R152, R153). -/
def gradientImage (b : Image Nat) : Image Gradient := tabulate b.w b.h fun x y => ⟨sobelX b x y, sobelY b x y⟩

/-- `M`: the L1 norm (R154). -/
def magnitude (g : Gradient) : Nat := g.dx.natAbs + g.dy.natAbs

/-- `Mz(y, x)`: the magnitude, 0 outside the image (R154). -/
def magZero (g : Image Gradient) (y x : Int) : Nat :=
  if inside g x y then magnitude (pixel g x.toNat y.toNat) else 0

/-! ### Non-maximum suppression -/

/-- The direction sector (R156); a diagonal has its sign `s`. -/
inductive Sector where
  | horizontal
  | vertical
  | diagonal (s : Int)
deriving DecidableEq, Repr

/-- `T22` = round(tan 22.5° · 2^15) (R156). -/
def tan22 : Nat := 13573

/-- The sector of a gradient (R156). -/
def sectorOf (g : Gradient) : Sector :=
  let ax := g.dx.natAbs
  let ay := g.dy.natAbs
  let t22 := ax * tan22
  let yv := ay * 2 ^ 15
  if yv < t22 then .horizontal
  else if yv > t22 + ax * 2 ^ 16 then .vertical
  else .diagonal (if decide (g.dx < 0) != decide (g.dy < 0) then -1 else 1)

/-- The suppression test at (x, y) (R157). -/
def isKept (g : Image Gradient) (x y : Int) : Bool :=
  let m := magZero g y x
  match sectorOf (pixel g x.toNat y.toNat) with
  | .horizontal => decide (m > magZero g y (x - 1)) && decide (m ≥ magZero g y (x + 1))
  | .vertical => decide (m > magZero g (y - 1) x) && decide (m ≥ magZero g (y + 1) x)
  | .diagonal s => decide (m > magZero g (y - 1) (x - s)) && decide (m > magZero g (y + 1) (x + s))

/-- The class of a pixel (R158). -/
inductive EdgeClass where
  | none
  | weak
  | strong
deriving DecidableEq, Repr, Inhabited

/-- The class of a magnitude and a suppression test (R155, R158): both thresholds are strict. -/
def classOf (m : Nat) (kept : Bool) : EdgeClass :=
  if m ≤ edgeLow || !kept then .none
  else if m > edgeHigh then .strong
  else .weak

/-- The class of every pixel (R158). -/
def classImage (g : Image Gradient) : Image EdgeClass :=
  tabulate g.w g.h fun x y => classOf (magnitude (pixel g x y)) (isKept g x y)

/-! ### Hysteresis -/

/-- The eight neighbours of a position (R159). -/
def neighbours (x y : Int) : List (Int × Int) :=
  [(x - 1, y - 1), (x, y - 1), (x + 1, y - 1), (x - 1, y), (x + 1, y), (x - 1, y + 1), (x, y + 1), (x + 1, y + 1)]

/-- Whether a position lies inside the image and is marked. -/
def marked (e : Image Bool) (x y : Int) : Bool := inside e x y && pixel e x.toNat y.toNat

/-- One round of growth: a WEAK pixel 8-adjacent to a marked one is marked (R159). -/
def growEdges (c : Image EdgeClass) (e : Image Bool) : Image Bool :=
  tabulate c.w c.h fun x y =>
    pixel e x y || (pixel c x y == .weak && (neighbours x y).any fun p => marked e p.1 p.2)

/-- Growth until nothing changes, in at most `rounds` rounds. -/
def growLoop (c : Image EdgeClass) (rounds : Nat) (e : Image Bool) : Image Bool :=
  match rounds with
  | 0 => e
  | n + 1 => if growEdges c e = e then e else growLoop c n (growEdges c e)

/-- `EDGE` (R159): from the STRONG pixels on; every round but the last marks a pixel, so `w*h` rounds are enough
(DEDUCED, log entry 20, safe). -/
def hysteresis (c : Image EdgeClass) : Image Bool :=
  growLoop c (c.w * c.h) (tabulate c.w c.h fun x y => pixel c x y == .strong)

/-- The binary output `E`: 255 for an edge, else 0 (R160). -/
def edgeImage (e : Image Bool) : Image Nat := tabulate e.w e.h fun x y => if pixel e x y then 255 else 0

/-- `Canny` (R150). -/
def canny (b : Image Nat) : Image Nat := edgeImage (hysteresis (classImage (gradientImage b)))

end Sys2Proof.Machine
end

