-- ==== Sys2Proof/Machine/Pack.lean ====
section
/-! DEFINITION. The pixel packer, the FALLBACK inversion (44_pack.md), and RES, the result of a job (R106). -/

namespace Sys2Proof.Machine

/-- `pack(R, G, B)` (R171): the ARGB word with alpha 0xFF. -/
def pack (r g b : Nat) : Word := BitVec.ofNat 32 (0xFF000000 ||| (r * 2 ^ 16) ||| (g * 2 ^ 8) ||| b)

/-- Channel expansion (R170). -/
def expand (e : Nat) : Rgb := ⟨e, e, e⟩

/-- The word of one edge value (R170 to R172). -/
def packEdge (e : Nat) : Word := pack (expand e).r (expand e).g (expand e).b

/-- The word of one luma byte under FALLBACK (R175). -/
def packInvert (luma : Nat) : Word := pack (255 - luma) (255 - luma) (255 - luma)

/-- The edge image `E` of a VISION frame: the stages in their fixed order (R106). -/
def visionEdges (input : List Byte) (w h : Nat) : Image Nat :=
  canny (gaussBlur5 (grayImage (resize (nv21ToRgb input w h))))

/-- RES of a VISION job (R106, R172). -/
def visionResult (input : List Byte) (w h : Nat) : List Word := (visionEdges input w h).px.map packEdge

/-- RES of a FALLBACK job (R106, R175). -/
def fallbackResult (input : List Byte) (w h : Nat) : List Word :=
  (List.range (w * h)).map fun i => packInvert (inByte input i)

/-- RES (R106): a pure function of the variant, the dimensions and the input bytes. -/
def frameResult (v : Variant) (w h : Nat) (input : List Byte) : List Word :=
  match v with
  | .vision => visionResult input w h
  | .fallback => fallbackResult input w h

end Sys2Proof.Machine
end

