-- ==== Sys2Proof/Machine/Process.lean ====
section
/-! DEFINITION. PROCESS: the acceptance checks, the latch and the result of the job (R104 to R106). -/

namespace Sys2Proof.Machine

/-- The first failing check of R105, in its order (R208); `none` when every check passes. -/
def processCheck (s : State) : Option ResultCode :=
  let w := opWidth s
  let h := opHeight s
  let nOut := needOut w h
  let nIn := needIn s.cfg.variant w h
  let ib := s.inBase.toNat
  let ob := (opOutBase s).toNat
  if s.ready = false then some .errNotInit
  else if w = 0 ∨ h = 0 then some .errDim
  else if w > s.cfg.maxWidth ∨ h > s.cfg.maxHeight then some .errDim
  else if s.cfg.variant = .vision ∧ (w % 2 ≠ 0 ∨ h % 2 ≠ 0) then some .errDim
  else if nIn > s.inLen.toNat ∨ nOut > s.outLen.toNat then some .errBounds
  else if ib + nIn > 2 ^ 32 ∨ ob + 4 * nOut > 2 ^ 32 then some .errBounds
  else if ib < ob + 4 * nOut ∧ ob < ib + nIn then some .errOverlap
  else Option.none

/-- `IN(0 .. need_in-1)` as the engine reads it at acceptance (R13, R106). One value for each byte, a stale one too, is
DEDUCED (log entry 22), unsafe. -/
def inputAtAcceptance (s : State) : List Byte :=
  (List.range (needIn s.cfg.variant (opWidth s) (opHeight s))).map fun k => engineReadByte s (s.inBase.toNat + k)

/-- The job of an accepted PROCESS (R31, R105, R106). An input range over memory that is not idempotent makes every
slot hold any value (R58). -/
def latchJob (s : State) : Job where
  w := s.width
  h := s.height
  inb := s.inBase
  outb := opOutBase s
  res := frameResult s.cfg.variant (opWidth s) (opHeight s) (inputAtAcceptance s)
  old := (List.range (needOut (opWidth s) (opHeight s))).map fun i =>
    Memory.readWord s.mem ((opOutBase s).toNat + 4 * i)
  unwritten := List.range (needOut (opWidth s) (opHeight s))
  loose :=
    if hitsDevice s.cfg s.inBase.toNat (needIn s.cfg.variant (opWidth s) (opHeight s)) then
      List.range (needOut (opWidth s) (opHeight s))
    else []

/-- The phase becomes RUN with the latched job (R105). Reading the input uses free values where it is stale (R60). -/
def startJob (s : State) : State := useFresh { s with phase := .run (latchJob s) }

/-- What PROCESS does when it is accepted (R105): the first failing check completes the command with its code; otherwise
the job starts. -/
def processEffect (s : State) : State :=
  match processCheck (clearDone s) with
  | some code => raiseError code (clearDone s)
  | .none => startJob (clearDone s)

/-- PROCESS (R104, R105): accepted while IDLE, dropped while a job runs. -/
def execProcess (s : State) : Answer := .next (acceptCommand processEffect s)

end Sys2Proof.Machine
end

