-- ==== Sys2Proof/Machine/Dispatch.lean ====
section
/-! DEFINITION. One arm per command: what the CMD write of its word does (R100). -/

namespace Sys2Proof.Machine

def exec (i : Instr) (s : State) : Host.Outcome State Fault Refusal :=
  match i with
  | .nop => Sys2Proof.Machine.execNop s
  | .init => Sys2Proof.Machine.execInit s
  | .cleanup => Sys2Proof.Machine.execCleanup s
  | .process => Sys2Proof.Machine.execProcess s

end Sys2Proof.Machine
end

