-- ==== Sys2Proof/Machine/Engine.lean ====
section
/-! DEFINITION. The engine's steps while a job runs: slot writes and completion (R107 to R109). -/

namespace Sys2Proof.Machine

/-- Whether the platform answers a write of slot `i`: `MEM_OK` at its four bytes (R107). That a job with a bus error
leaves a slot alone of which only some bytes answer is DEDUCED (log entry 19), unsafe. -/
def slotOk (c : Config) (j : Job) (i : Nat) : Bool := rangeOk c (slotAddr j i) 4

/-- Whether `MEM_OK` holds on the whole input range and the whole output range: the jobs that end OK (R108, R109). -/
def jobClear (c : Config) (j : Job) : Bool :=
  rangeOk c j.inb.toNat (jobNeedIn c.variant j) && rangeOk c j.outb.toNat (4 * jobSlots j)

/-- The engine's write of one slot (R53). -/
def engineStore (j : Job) (i : Nat) (v : Word) (s : State) : State :=
  overwriteDirty (slotAddr j i) 4 (storeWord (slotAddr j i) v s)

/-- The slot an engine step picks among the ones it may write: which is unspecified (R59, R107), so the turn says
(DESIGN CHOICE, log entry 4, safe). -/
def pickSlot (pick : Nat) (slots : List Nat) : Option Nat := slots[pick % slots.length]?

/-- The word the engine writes to slot `i`: RES[i] (R107), or any value where a duty of the host was broken (R241). -/
def slotValue (j : Job) (i : Nat) (fresh : Nat) : Word :=
  if j.loose.contains i then Config.looseWord fresh i else j.res.getD i 0#32

/-- A slot-write step: slot `i` receives `v` and joins `written` (R107). -/
def writeSlot (j : Job) (i : Nat) (v : Word) (s : State) : State :=
  engineStore j i v (useFresh { s with phase := .run { j with unwritten := j.unwritten.erase i } })

/-- The given slots receive any value, where the platform answers a write (R57). -/
def loosenSlots (j : Job) (slots : List Nat) (s : State) : State :=
  useFresh ((slots.filter (slotOk s.cfg j)).foldl (fun t i => engineStore j i (Config.looseWord s.fresh i) t) s)

/-- The end of a job, seen by the host's caches: until the host discards them, its copies of the output range may be
stale (R60). -/
def staleOutput (j : Job) (s : State) : State := addStale j.outb.toNat (4 * jobSlots j) s

/-- Completion of a job (R108, R109): the phase becomes IDLE and the code is recorded (R205). The slots of a job whose
host broke a duty hold any value from here on (R221, R241). -/
def completeJob (code : ResultCode) (j : Job) (s : State) : State :=
  completeWith code { staleOutput j (loosenSlots j j.loose s) with phase := .idle }

/-- One engine step of a job without a bus error: the next slot (R107), or completion OK (R108). -/
def clearJobStep (t : EngineTurn) (j : Job) (s : State) : State :=
  match pickSlot t.pick j.unwritten with
  | some i => writeSlot j i (slotValue j i s.fresh) s
  | .none => completeJob .ok j s

/-- One engine step of a job with a bus error (R109): one more slot with any value, where the platform answers, or
completion with ERR_BUS. -/
def faultyJobStep (t : EngineTurn) (j : Job) (s : State) : State :=
  if t.stop then completeJob .errBus j s
  else
    match pickSlot t.pick (j.unwritten.filter (slotOk s.cfg j)) with
    | some i => writeSlot j i (Config.looseWord s.fresh i) s
    | .none => completeJob .errBus j s

/-- One engine step. While the phase is IDLE the engine has none (R232). -/
def engineStep (t : EngineTurn) (s : State) : State :=
  match s.phase with
  | .idle => s
  | .run j => if jobClear s.cfg j then clearJobStep t j s else faultyJobStep t j s

/-- An engine step that no schedule gives: its choices are free values. -/
def ownEngineStep (s : State) : State :=
  match s.phase with
  | .idle => s
  | .run _ => engineStep (Config.freeTurn s.fresh) (useFresh s)

end Sys2Proof.Machine
end

