-- ==== Sys2Proof/Machine/Environment.lean ====
section
/-! DEFINITION. What surrounds the block: the host's memory accesses and caches (R60, R61), other blocks (R221), and
reset (R230 to R232). -/

namespace Sys2Proof.Machine

/-- A write of `len` bytes from `a` on by anyone but the engine, seen by the running job: over its input range it makes
every slot hold any value (R61 item 4, R241). -/
def noteInputWrite (a len : Nat) (s : State) : State :=
  match s.phase with
  | .idle => s
  | .run j =>
    if meetsInput s.cfg.variant j a len then { s with phase := .run { j with loose := List.range (jobSlots j) } }
    else s

/-- The host stores one byte. -/
def hostStoreByte (a : Nat) (b : Byte) (s : State) : State :=
  noteInputWrite a 1 (markDirty a 1 (storeByte a b s))

/-- The host stores one aligned word. -/
def hostStoreWord (a : Nat) (v : Word) (s : State) : State :=
  noteInputWrite a 4 (markDirty a 4 (storeWord a v s))

/-- The host reads one byte: no data where the platform answers with a bus error (R57; DEDUCED, log entry 9, unsafe). -/
def hostLoadByte (a : Nat) (s : State) : State :=
  useFresh (returnData (if memOk s.cfg a then some ((hostReadByte s a).setWidth 32) else Option.none) s)

/-- The word a host read returns, byte by byte in the order of R53. -/
def hostReadWord (s : State) (a : Nat) : Word :=
  hostReadByte s (a + 3) ++ hostReadByte s (a + 2) ++ hostReadByte s (a + 1) ++ hostReadByte s a

/-- The host reads one aligned word, whole (R58). While a job runs it reads a slot through a coherent port as the slot
stands between two engine steps, which is the old value or the job's (R61 item 3; DEDUCED, log entry 11, unsafe), and
through another port as either of the two. -/
def hostLoadWord (a : Nat) (s : State) : State :=
  useFresh (returnData (if rangeOk s.cfg a 4 then some (hostReadWord s a) else Option.none) s)

/-- The host makes its writes visible to the memory port (R60). -/
def cacheClean (s : State) : State := { s with dirty := [] }

/-- The host discards its stale copies (R60). While a job runs these are copies of earlier jobs' output; the running
job's duty begins when it ends (`staleOutput`). -/
def cacheInvalidate (s : State) : State := { s with stale := [] }

/-- A word written by another block, seen by the running job: the bytes where the two jobs' ranges overlap hold any
value (R221). -/
def noteOverlap (a : Nat) (s : State) : State :=
  match s.phase with
  | .idle => s
  | .run j =>
    match slotAtAddr j a with
    | some i => { s with phase := .run { j with loose := i :: j.loose } }
    | .none => s

/-- Another block's job writes the aligned word at `a`: this block does not know the value (R221). -/
def otherBlockStore (a : Nat) (s : State) : State :=
  noteOverlap a (noteInputWrite a 4 (useFresh
    (addStale a 4 (overwriteDirty a 4 (storeWord a (Config.looseWord s.fresh a) s)))))

/-- A reset while a job runs abandons the job: each of its slots holds any value (R231). -/
def abandonJob (s : State) : State :=
  match s.phase with
  | .idle => s
  | .run j => staleOutput j (loosenSlots j (List.range (jobSlots j)) s)

/-- The reset action on the block's registers and phase (R230). -/
def resetRegisters (s : State) : State :=
  { s with
    ready := false
    done := false
    overrun := false
    result := .none
    ie := false
    width := 0#16
    height := 0#16
    inBase := 0#32
    inLen := 0#32
    outBase := 0#30
    outLen := 0#32
    phase := .idle }

/-- Reset (R230, R231): it writes no memory of its own and signals no completion. -/
def resetBlock (s : State) : State := resetRegisters (abandonJob s)

end Sys2Proof.Machine
end

