-- ==== Sys2Proof/Machine/Port.lean ====
section
/-! DEFINITION. The register port (R70, R111, R112), the agents' turns (R44), and the encoder of the accesses a host
program makes (R76). -/

namespace Sys2Proof.Machine

/-- A write of `v` to CMD (R100): a defined word is its command, any other is illegal (R73). The BUSY check stands in
each command's acceptance instead of before the decoding, which answers the same (DEDUCED, log entry 21, safe). -/
def commandWrite (v : Word) (s : State) : Answer :=
  match decode v with
  | .ok i => exec i s
  | .error _ => .next (illegalWord s)

/-- A host write of a register (R112). -/
def regWrite (r : RegName) (v : Word) (s : State) : Answer :=
  match r with
  | .cmd => commandWrite v s
  | .id => .next (regStore .id v s)
  | .status => .next (regStore .status v s)
  | .irqEn => .next (regStore .irqEn v s)
  | .width => .next (regStore .width v s)
  | .height => .next (regStore .height v s)
  | .inBase => .next (regStore .inBase v s)
  | .inLen => .next (regStore .inLen v s)
  | .outBase => .next (regStore .outBase v s)
  | .outLen => .next (regStore .outLen v s)
  | .reserved => .next (regStore .reserved v s)

/-- A host read of a register (R111): the value is returned and nothing else changes. -/
def regLoad (r : RegName) (s : State) : State := returnData (some (regRead r s)) s

/-- A register access (R70). An access that the spec gives no meaning is refused by name. -/
def regAccess (a : RegAccess) (s : State) : Answer :=
  if a.fullWidth = false then .refused .unsupportedWidth
  else if a.aligned = false then .refused .misalignedAccess
  else
    match regAt a.off with
    | .none => .refused .outsideWindow
    | some r => if a.write then regWrite r a.data s else .next (regLoad r s)

/-- One turn of an agent. -/
def runEvent (e : Event) (s : State) : Answer :=
  match e with
  | .reg a => regAccess a s
  | .bus write size addr data => regAccess ⟨write, size, windowOffset s.cfg addr, data⟩ s
  | .memWriteByte addr b => .next (hostStoreByte addr.toNat b s)
  | .memWriteWord addrHigh v => .next (hostStoreWord (wordAddr addrHigh) v s)
  | .memReadByte addr => .next (hostLoadByte addr.toNat s)
  | .memReadWord addrHigh => .next (hostLoadWord (wordAddr addrHigh) s)
  | .cacheClean => .next (cacheClean s)
  | .cacheInvalidate => .next (cacheInvalidate s)
  | .otherBlock addrHigh => .next (otherBlockStore (wordAddr addrHigh) s)
  | .reset => .next (resetBlock s)
  | .engine t => .next (engineStep t s)

/-- The turn that comes next (R44): the first of the agenda; with none left, the engine's own while a job runs (R246),
and nothing while the block is IDLE (R232). -/
def takeTurn (s : State) : Answer :=
  match s.agenda with
  | [] => .next (ownEngineStep s)
  | e :: rest => runEvent e { s with agenda := rest }

/-- The offset of a register (R22 to R40); the first reserved offset stands for `reserved`. -/
def regOffset (r : RegName) : Nat :=
  match r with
  | .id => 0x00
  | .cmd => 0x04
  | .status => 0x08
  | .irqEn => 0x0C
  | .width => 0x10
  | .height => 0x14
  | .inBase => 0x18
  | .inLen => 0x1C
  | .outBase => 0x20
  | .outLen => 0x24
  | .reserved => 0x28

/-- `WR <reg>, <imm32>` (R76). -/
def wr (r : RegName) (v : Word) : Event := .reg ⟨true, 4, regOffset r, v⟩

/-- `RD <reg>` (R76). -/
def rd (r : RegName) : Event := .reg ⟨false, 4, regOffset r, 0#32⟩

/-- `MEM8 <addr>: <b0> <b1> …` (R76). -/
def mem8 (addr : Word) (bytes : List Byte) : List Event :=
  (List.range bytes.length).map fun k => .memWriteByte (addr + BitVec.ofNat 32 k) (bytes.getD k 0#8)

/-- `EXPECT <reg> == <imm32>` (R76): an assertion, not an access. -/
def expectReg (r : RegName) (v : Word) (s : State) : Bool := regRead r s == v

/-- `EXPECT MEM32 <addr> == <imm32>` (R76): an assertion, not an access. -/
def expectMem32 (addr v : Word) (s : State) : Bool := Memory.readWord s.mem addr.toNat == v

/-- The pseudo-statements `NOP`, `INIT`, `CLEANUP` and `PROCESS` (R77): one write of the command's word. -/
def command (i : Instr) : Event := wr .cmd (encode i)

/-- `ACK` (R77). -/
def ackWrite : Event := wr .status 0x0000000C#32

/-- `SETUP w, h, ib, il, ob, ol` (R77). -/
def setup (w h ib il ob ol : Word) : List Event :=
  [wr .width w, wr .height h, wr .inBase ib, wr .inLen il, wr .outBase ob, wr .outLen ol]

/-- `WAIT` (R77), as many polls of STATUS as the host's loop makes; the engine's turns fall between them. -/
def polls (n : Nat) : List Event := List.replicate n (rd .status)

end Sys2Proof.Machine
end

