-- ==== Sys2Proof/Machine/Step.lean ====
section
/-! DEFINITION. One step (R44), and a command placed where the next step takes it. -/

namespace Sys2Proof.Machine

/-- One step: one turn of one agent, whole (R44). -/
def step (s : State) : Host.Outcome State Fault Refusal := takeTurn s

/-- `s` with the write of the command word `w` to CMD as its next turn (R75, R77). -/
def State.withFetchWord (s : State) (nbits w : Nat) : State :=
  { s with agenda := wr .cmd (tableWord nbits w) :: s.agenda }

end Sys2Proof.Machine
end

