-- ==== Sys2Proof/Safety.lean ====
section
/-! DEFINITION. What a good state is, what a run of the engine is, and the words that statements about them use. -/

namespace Sys2Proof.Machine

/-- What R105 has checked of a running job, and what the engine has done with it since. -/
structure JobInv (c : Config) (j : Job) : Prop where
  /-- neither dimension is zero (R105) -/
  dims_pos : 0 < j.w.toNat ∧ 0 < j.h.toNat
  /-- neither dimension is above its maximum (R105) -/
  dims_max : j.w.toNat ≤ c.maxWidth ∧ j.h.toNat ≤ c.maxHeight
  /-- both dimensions are even under VISION (R105) -/
  dims_even : c.variant = .vision → j.w.toNat % 2 = 0 ∧ j.h.toNat % 2 = 0
  /-- the input range ends inside the address space (R105) -/
  input_fits : j.inb.toNat + jobNeedIn c.variant j ≤ 2 ^ 32
  /-- the output range ends inside the address space (R105) -/
  output_fits : j.outb.toNat + 4 * jobSlots j ≤ 2 ^ 32
  /-- output words are word-aligned (R56) -/
  out_aligned : j.outb.toNat % 4 = 0
  /-- the two ranges share no byte (R105) -/
  disjoint : ¬ (j.inb.toNat < j.outb.toNat + 4 * jobSlots j ∧ j.outb.toNat < j.inb.toNat + jobNeedIn c.variant j)
  /-- one word for each slot (R173) -/
  res_length : j.res.length = jobSlots j
  /-- every word of RES has alpha 0xFF (R173) -/
  res_alpha : ∀ v ∈ j.res, v.extractLsb' 24 8 = 0xFF#8
  /-- one old value for each slot (R61 item 3) -/
  old_length : j.old.length = jobSlots j
  /-- each slot is written at most once (R59) -/
  unwritten_nodup : j.unwritten.Nodup
  /-- only slots of the job are written (R59) -/
  unwritten_lt : ∀ i ∈ j.unwritten, i < jobSlots j
  /-- only slots of the job are left with any value (R231, R241) -/
  loose_lt : ∀ i ∈ j.loose, i < jobSlots j

/-- The invariant that every step keeps. -/
structure StateInv (s : State) : Prop where
  /-- memory is in its canonical form -/
  mem_wf : Memory.wf s.mem = true
  /-- a running job has passed its checks -/
  job : ∀ j, s.phase = .run j → JobInv s.cfg j
  /-- READY cannot be 0 while BUSY = 1 (R102) -/
  ready_in_job : busy s = true → s.ready = true
  /-- DONE is 0 during a job (R243) -/
  done_in_job : busy s = true → s.done = false
  /-- RESULT is NONE only while no command has completed since reset (R29): then the block is as reset left it, not
  Ready, not DONE and not busy -/
  nothing_completed : s.result = .none → s.ready = false ∧ s.done = false ∧ busy s = false

/-- The input bytes of a job as they stand in memory. -/
def inputNow (s : State) (j : Job) : List Byte :=
  (List.range (jobNeedIn s.cfg.variant j)).map fun k => Memory.read s.mem (j.inb.toNat + k)

/-- While no duty of the host is broken and the memory port is coherent, RES of the running job is the result of the
input bytes as they stand in memory (R106, R107). -/
def ResFaithful (s : State) : Prop :=
  ∀ j, s.phase = .run j → s.cfg.coherent = true → j.loose = [] →
    j.res = frameResult s.cfg.variant j.w.toNat j.h.toNat (inputNow s j)

/-- The engine's steps alone, one for each turn. -/
def engineRun (turns : List EngineTurn) (s : State) : State := turns.foldl (fun t e => engineStep e t) s

/-- The register access an event makes, if it makes one. -/
def eventAccess (c : Config) (e : Event) : Option RegAccess :=
  match e with
  | .reg a => some a
  | .bus write size addr data => some ⟨write, size, windowOffset c addr, data⟩
  | .memWriteByte _ _ => Option.none
  | .memWriteWord _ _ => Option.none
  | .memReadByte _ => Option.none
  | .memReadWord _ => Option.none
  | .cacheClean => Option.none
  | .cacheInvalidate => Option.none
  | .otherBlock _ => Option.none
  | .reset => Option.none
  | .engine _ => Option.none

/-- The next turn is a supported write of `v` to register `r`. -/
def NextWrites (s : State) (r : RegName) (v : Word) : Prop :=
  ∃ e rest a, s.agenda = e :: rest ∧ eventAccess s.cfg e = some a ∧ a.write = true ∧ a.size = 4 ∧ a.data = v ∧
    regAt a.off = some r

/-- The next turn is a reset. -/
def NextResets (s : State) : Prop := ∃ rest, s.agenda = .reset :: rest

/-- The next turn is the engine's. -/
def NextEngine (s : State) : Prop := s.agenda = [] ∨ ∃ t rest, s.agenda = .engine t :: rest

/-- The parameters in the registers pass the dimension checks of R105. -/
def DimsLegal (s : State) : Prop :=
  0 < s.width.toNat ∧ 0 < s.height.toNat ∧ s.width.toNat ≤ s.cfg.maxWidth ∧ s.height.toNat ≤ s.cfg.maxHeight ∧
    (s.cfg.variant = .vision → s.width.toNat % 2 = 0 ∧ s.height.toNat % 2 = 0)

/-- The first byte address of the frame's output, from OUT_BASE (R74). -/
def frameOut (s : State) : Nat := 4 * s.outBase.toNat

/-- The bytes the frame reads: `need_in` of the parameters in the registers (R105). -/
def frameIn (s : State) : Nat :=
  if s.cfg.variant = .vision then s.width.toNat * (s.height.toNat + s.height.toNat / 2)
  else s.width.toNat * s.height.toNat

/-- The slots the frame writes: `need_out` of the parameters in the registers (R105). -/
def frameSlots (s : State) : Nat := s.width.toNat * s.height.toNat

/-- The parameters in the registers pass the bounds checks of R105. -/
def BoundsLegal (s : State) : Prop :=
  frameIn s ≤ s.inLen.toNat ∧ frameSlots s ≤ s.outLen.toNat ∧ s.inBase.toNat + frameIn s ≤ 2 ^ 32 ∧
    frameOut s + 4 * frameSlots s ≤ 2 ^ 32

/-- The frame's input and output ranges share a byte (R204). -/
def RangesOverlap (s : State) : Prop :=
  ∃ a, s.inBase.toNat ≤ a ∧ a < s.inBase.toNat + frameIn s ∧ frameOut s ≤ a ∧ a < frameOut s + 4 * frameSlots s

/-- A PROCESS written now would be accepted (R105). -/
def ProcessReady (s : State) : Prop :=
  s.phase = .idle ∧ s.ready = true ∧ DimsLegal s ∧ BoundsLegal s ∧ ¬ RangesOverlap s

/-- Two positions are 8-adjacent (R159): at most 1 apart in each coordinate, and not equal. -/
def Adjacent8 (x y x' y' : Nat) : Prop :=
  x ≤ x' + 1 ∧ x' ≤ x + 1 ∧ y ≤ y' + 1 ∧ y' ≤ y + 1 ∧ ¬ (x = x' ∧ y = y')

/-- The set EDGE in the spec's own words (R159): the smallest set that holds every STRONG pixel and every WEAK pixel
8-adjacent to one of its own. -/
inductive InEdge (c : Image EdgeClass) : Nat → Nat → Prop where
  | strong (x y : Nat) (hx : x < c.w) (hy : y < c.h) (h : pixel c x y = .strong) : InEdge c x y
  | weak (x y x' y' : Nat) (hx : x < c.w) (hy : y < c.h) (h : pixel c x y = .weak) (n : InEdge c x' y')
      (a : Adjacent8 x y x' y') : InEdge c x y

/-- Every value of an image is at most `m`. -/
def ImageLe (m : Nat) (img : Image Nat) : Prop := ∀ v ∈ img.px, v ≤ m

end Sys2Proof.Machine
end

