-- ==== Sys2Proof/Certificates/Slice0/Obligations.lean ====
section
/-! DEFINITION. The statements for the provers. -/

open Sys2Proof Sys2Proof.Machine

/-! ## Encoding and the step -/

/-- R72: the four words of the opcode map and their commands, and no other word for any of them. -/
def Obligations.DecodeMapsExactlyTheFourWords : Prop :=
  ∀ w : Word,
    (decode w = .ok .nop ↔ w = 0x00000000#32) ∧ (decode w = .ok .init ↔ w = 0x00000001#32) ∧
      (decode w = .ok .cleanup ↔ w = 0x00000002#32) ∧ (decode w = .ok .process ↔ w = 0x00000003#32)

/-- R71, R72: the decoder reads back every encoded command, also through the opcode table's numbering. -/
def Obligations.DecodeOfEncodeIsTheCommand : Prop :=
  ∀ i : Instr, i.wf = true → decode (encode i) = .ok i ∧ decodeTableWord 32 (encode i).toNat = some i

/-- R72, R73: words written out from the encoding tables. -/
def Obligations.DecodeReadsSpecWords : Prop :=
  decode 0b00000000000000000000000000000000#32 = .ok .nop ∧ decode 0b00000000000000000000000000000001#32 = .ok .init ∧
    decode 0b00000000000000000000000000000010#32 = .ok .cleanup ∧
    decode 0b00000000000000000000000000000011#32 = .ok .process ∧
    decode 0b00000000000000000000000000000100#32 = .error .reservedOpcode ∧
    decode 0b00000000000000000000000000010011#32 = .error .reservedBits

/-- R70, R100, R112: a write of a defined word at offset 0x04 is that command. A step whose turn is the write of a
defined word to CMD is that command, on the state with the turn taken off the agenda; a word placed with `withFetchWord`
is run by the very next step. The agenda is the model's (log entry 3). -/
def Obligations.StepRunsTheDecodedCommand : Prop :=
  ∀ (s : State) (w : Word) (i : Instr) (rest : List Event), decode w = .ok i → i.wf = true →
    regAccess ⟨true, 4, 0x04, w⟩ s = exec i s ∧
      (s.agenda = wr .cmd w :: rest → step s = exec i { s with agenda := rest }) ∧
      step (s.withFetchWord 32 w.toNat) = exec i s

/-- A step takes the first turn of the agenda; with none left it is the engine's own, and at an idle block nothing
(R44, R232, R246). A register turn is its access, an engine turn one engine step, and a cache clean makes every host
write visible (R60). The agenda, the engine's free choices and the marks of host writes not yet visible are the model's
(log entries 3, 4 and 7). -/
def Obligations.StepTakesTheNextTurn : Prop :=
  ∀ (s : State) (e : Event) (rest : List Event),
    (s.agenda = e :: rest → step s = runEvent e { s with agenda := rest }) ∧
      (s.agenda = [] → s.phase = .idle → step s = .next s) ∧
      (∀ j, s.agenda = [] → s.phase = .run j → step s = .next (engineStep (Config.freeTurn s.fresh) (useFresh s))) ∧
      (∀ a, runEvent (.reg a) s = regAccess a s) ∧ (∀ t, runEvent (.engine t) s = .next (engineStep t s)) ∧
      runEvent .cacheClean s = .next { s with dirty := [] }

/-! ## The commands -/

/-- R101: the word 0 is NOP, and NOP changes nothing while IDLE, DONE included; while a job runs it only sets
OVERRUN. -/
def Obligations.NopHasNoEffect : Prop :=
  ∀ s : State,
    commandWrite 0x00000000#32 s = exec .nop s ∧ (s.phase = .idle → exec .nop s = .next s) ∧
      (∀ j, s.phase = .run j → exec .nop s = .next { s with overrun := true })

/-- R102: the word 1 is INIT. INIT sets READY and completes OK, whatever READY was, and changes nothing else; it is
dropped while a job runs, and READY cannot be 0 then; from reset under VISION it gives STATUS 0x15. -/
def Obligations.InitMakesReady : Prop :=
  ∀ s : State,
    commandWrite 0x00000001#32 s = exec .init s ∧
    (s.phase = .idle → exec .init s = .next { s with ready := true, result := .ok, done := true }) ∧
      (∀ j, s.phase = .run j → exec .init s = .next { s with overrun := true }) ∧
      (StateInv s → busy s = true → s.ready = true) ∧
      (∀ c, c.variant = .vision → ∃ t, exec .init (State.resetOf c) = .next t ∧ regRead .status t = 0x00000015#32)

/-- R103: the word 2 is CLEANUP. CLEANUP clears READY and completes OK, whatever READY was, and changes nothing else; it
is dropped while a job runs; with STATUS 0x15 it gives 0x14. Reset clears READY too. -/
def Obligations.CleanupMakesUninitialized : Prop :=
  ∀ s : State,
    commandWrite 0x00000002#32 s = exec .cleanup s ∧ (∃ t, runEvent .reset s = .next t ∧ t.ready = false) ∧
    (s.phase = .idle → exec .cleanup s = .next { s with ready := false, result := .ok, done := true }) ∧
      (∀ j, s.phase = .run j → exec .cleanup s = .next { s with overrun := true }) ∧
      (regRead .status s = 0x00000015#32 →
        ∃ t, exec .cleanup s = .next t ∧ regRead .status t = 0x00000014#32)

/-- R105: the word 3 is PROCESS, and one that passes every check clears DONE, latches the operands, fixes RES from the
input bytes as the engine reads them, notes each slot's value at acceptance (R61 item 3), and makes the phase RUN with
no slot written; nothing else changes (the supply of free values advances: the model's, log entry 5). The set `loose` is
the model's (log entry 6): empty unless the input lies over memory with read side effects (R58). -/
def Obligations.ProcessAcceptedStartsTheJob : Prop :=
  ∀ s : State, ProcessReady s →
    commandWrite 0x00000003#32 s = exec .process s ∧ exec .process s = .next
      { s with
        done := false
        fresh := s.fresh + 1
        phase := .run
          { w := s.width
            h := s.height
            inb := s.inBase
            outb := opOutBase s
            res := frameResult s.cfg.variant s.width.toNat s.height.toNat
              ((List.range (frameIn s)).map fun k => engineReadByte s (s.inBase.toNat + k))
            old := (List.range (frameSlots s)).map fun i => Memory.readWord s.mem (frameOut s + 4 * i)
            unwritten := List.range (frameSlots s)
            loose := if hitsDevice s.cfg s.inBase.toNat (frameIn s) then List.range (frameSlots s) else [] } }

/-- R201 to R204, R208: the causes of the errors found at acceptance, in their order; each records its code and DONE and
changes nothing else. -/
def Obligations.ProcessFailedCheckOnlyRecordsItsCode : Prop :=
  ∀ s : State, s.phase = .idle →
    (s.ready = false → exec .process s = .next { s with result := .errNotInit, done := true }) ∧
      (s.ready = true → ¬ DimsLegal s → exec .process s = .next { s with result := .errDim, done := true }) ∧
      (s.ready = true → DimsLegal s → ¬ BoundsLegal s →
        exec .process s = .next { s with result := .errBounds, done := true }) ∧
      (s.ready = true → DimsLegal s → BoundsLegal s → RangesOverlap s →
        exec .process s = .next { s with result := .errOverlap, done := true })

/-- R110: an illegal word accepted while IDLE, written at offset 0x04, records ERR_ILLEGAL_CMD and DONE, and changes
nothing else, even where its OPC is a defined opcode. -/
def Obligations.IllegalWordOnlyRecordsItsCode : Prop :=
  ∀ (s : State) (v : Word), s.phase = .idle →
    (v.extractLsb' 4 28 ≠ 0#28 ∨ 4 ≤ (v.extractLsb' 0 4).toNat) →
      commandWrite v s = .next { s with result := .errIllegalCmd, done := true } ∧
        regAccess ⟨true, 4, 0x04, v⟩ s = .next { s with result := .errIllegalCmd, done := true }

/-- R209: a CMD write of any word while BUSY = 1, at offset 0x04, sets OVERRUN and changes nothing else, the running job
included. -/
def Obligations.BusyDropsEveryCommandWord : Prop :=
  ∀ (s : State) (v : Word), busy s = true →
    commandWrite v s = .next { s with overrun := true } ∧
      regAccess ⟨true, 4, 0x04, v⟩ s = .next { s with overrun := true }

/-! ## Registers -/

/-- R24, R26, R29, R200: STATUS as it reads, field by field, with the number of each result code; BUSY is 1 exactly while
the phase is RUN. -/
def Obligations.StatusReadsItsFields : Prop :=
  ∀ s : State,
    (regRead .status s).getLsbD 0 = s.ready ∧
      ((regRead .status s).getLsbD 1 = true ↔ ∃ j, s.phase = .run j) ∧
      (regRead .status s).getLsbD 2 = s.done ∧ (regRead .status s).getLsbD 3 = s.overrun ∧
      (regRead .status s).extractLsb' 4 4 = resultCode s.result ∧
      (s.result, (regRead .status s).extractLsb' 4 4) ∈
        [(ResultCode.none, 0#4), (.ok, 1#4), (.errNotInit, 2#4), (.errDim, 3#4), (.errBounds, 4#4),
          (.errOverlap, 5#4), (.errBus, 6#4), (.errIllegalCmd, 7#4)] ∧
      ((regRead .status s).getLsbD 8 = true ↔ s.cfg.variant = .fallback) ∧
      (regRead .status s).extractLsb' 9 23 = 0#23

/-- R41: a write to STATUS, at offset 0x08, clears DONE by bit 2 and OVERRUN by bit 3, and changes nothing else. -/
def Obligations.StatusWriteClearsDoneAndOverrun : Prop :=
  ∀ (s : State) (v : Word),
    regAccess ⟨true, 4, 0x08, v⟩ s = .next
      { s with
        done := if v.getLsbD 2 then false else s.done
        overrun := if v.getLsbD 3 then false else s.overrun }

/-- R42, by the offsets of the register map (R70, R112): a parameter register reads back at its offset what was written
there, its RAZ/WI bits 0, whatever the phase; no other register, nothing of the running job and nothing of memory
changes; a write of IE takes effect on the interrupt output at once. The data read stands in the model's own field
`busData` (log entry 8). -/
def Obligations.ParameterRegistersReadBack : Prop :=
  ∀ (s : State) (v : Word) (off : Nat) (r : RegName) (mask : Word),
    (off, r, mask) ∈ [(0x0C, RegName.irqEn, 0x00000001#32), (0x10, .width, 0x0000FFFF#32),
      (0x14, .height, 0x0000FFFF#32), (0x18, .inBase, 0xFFFFFFFF#32), (0x1C, .inLen, 0xFFFFFFFF#32),
      (0x20, .outBase, 0xFFFFFFFC#32), (0x24, .outLen, 0xFFFFFFFF#32)] →
    ∃ t, regAccess ⟨true, 4, off, v⟩ s = .next t ∧ regWrite r v s = .next t ∧
      (∀ d, regAccess ⟨false, 4, off, d⟩ t = .next { t with busData := some (v &&& mask) }) ∧
      regRead r t = v &&& mask ∧ (∀ q, q ≠ r → regRead q t = regRead q s) ∧
      (r = .irqEn → irq t = (s.done && v.getLsbD 0)) ∧ t.phase = s.phase ∧ t.mem = s.mem ∧
      t.dirty = s.dirty ∧ t.stale = s.stale ∧ t.busData = s.busData ∧ t.cfg = s.cfg ∧ t.agenda = s.agenda ∧
      t.fresh = s.fresh

/-- R22, R23, R40, R111: ID always reads 0x4E563231 and ignores writes; CMD always reads 0; the reserved offsets read 0
and ignore writes. The returned data stands in the model's own field `busData` (log entry 8). -/
def Obligations.IdAndReservedOffsetsAreFixed : Prop :=
  ∀ (s : State) (v : Word),
    regAccess ⟨false, 4, 0x00, v⟩ s = .next { s with busData := some 0x4E563231#32 } ∧
      regAccess ⟨true, 4, 0x00, v⟩ s = .next s ∧
      regAccess ⟨false, 4, 0x04, v⟩ s = .next { s with busData := some 0x00000000#32 } ∧
      ∀ off ∈ [0x28, 0x2C, 0x30, 0x34, 0x38, 0x3C],
        regAccess ⟨true, 4, off, v⟩ s = .next s ∧
          regAccess ⟨false, 4, off, v⟩ s = .next { s with busData := some 0x00000000#32 }

/-- R111, by the register map of 10_state.md: a supported read returns the value of the register at its offset and has no
side effect. The returned data stands in the model's own field `busData` (log entry 8). -/
def Obligations.ReadsHaveNoSideEffect : Prop :=
  ∀ (s : State) (off : Nat) (d : Word) (r : RegName),
    (off, r) ∈ [(0x00, RegName.id), (0x04, .cmd), (0x08, .status), (0x0C, .irqEn), (0x10, .width), (0x14, .height),
      (0x18, .inBase), (0x1C, .inLen), (0x20, .outBase), (0x24, .outLen), (0x28, .reserved), (0x2C, .reserved),
      (0x30, .reserved), (0x34, .reserved), (0x38, .reserved), (0x3C, .reserved)] →
    regAccess ⟨false, 4, off, d⟩ s = .next { s with busData := some (regRead r s) }

/-- R70: an access is refused exactly when it is not 32 bits wide, not word-aligned, or at an offset of 0x40 or above;
every other access has an effect. -/
def Obligations.OnlyUnsupportedAccessesAreRefused : Prop :=
  ∀ (s : State) (a : RegAccess),
    (a.wf = true → ∃ t, regAccess a s = .next t) ∧ (a.wf = false → ∃ r, regAccess a s = .refused r)

/-- The machine stops only at a register access that R70 does not support. -/
def Obligations.StepStopsOnlyAtUnsupportedAccesses : Prop :=
  ∀ s : State,
    (∃ t, step s = .next t) ∨
      ∃ e rest a r, s.agenda = e :: rest ∧ eventAccess s.cfg e = some a ∧ a.wf = false ∧ step s = .refused r

/-- R51, R55: a register access at a platform address acts as the access at its offset from REG_BASE. -/
def Obligations.BusAccessActsAtItsOffset : Prop :=
  ∀ (s : State) (write : Bool) (size off : Nat) (d : Word), off < 0x40 →
    runEvent (.bus write size (regBase s.cfg + BitVec.ofNat 32 off) d) s = regAccess ⟨write, size, off, d⟩ s

/-- R43, R210, R211: the interrupt output is DONE and IE. With IE set, a completion raises it, and the acknowledging
write of STATUS drops it, clears DONE and OVERRUN and changes nothing else. -/
def Obligations.InterruptRisesAtCompletionAndFallsAtAck : Prop :=
  ∀ (s : State) (code : ResultCode),
    (irq s = true ↔ (regRead .status s).getLsbD 2 = true ∧ (regRead .irqEn s).getLsbD 0 = true) ∧
      (s.ie = true → irq (completeWith code s) = true) ∧
      ∃ t, runEvent ackWrite (completeWith code s) = .next t ∧
        t = { s with result := code, done := false, overrun := false } ∧ irq t = false

/-! ## Reset -/

/-- R230: what reset leaves; while no job runs it writes no memory. -/
def Obligations.ResetLeavesItsValues : Prop :=
  ∀ s : State, ∃ t, runEvent .reset s = .next t ∧
    regRead .irqEn t = 0#32 ∧ regRead .width t = 0#32 ∧ regRead .height t = 0#32 ∧ regRead .inBase t = 0#32 ∧
      regRead .inLen t = 0#32 ∧ regRead .outBase t = 0#32 ∧ regRead .outLen t = 0#32 ∧
      t.ready = false ∧ t.done = false ∧ t.overrun = false ∧ t.result = .none ∧ t.phase = .idle ∧ irq t = false ∧
      regRead .status t = (if s.cfg.variant = .vision then 0x00000000#32 else 0x00000100#32) ∧
      regRead .id t = regRead .id s ∧ regRead .cmd t = regRead .cmd s ∧ regRead .reserved t = regRead .reserved s ∧
      t.cfg = s.cfg ∧
      (s.phase = .idle → t.mem = s.mem)

/-- R231: a reset while a job runs signals no completion, changes no byte outside the job's slots, and leaves the engine
without a step. What the slots hold is free (log entry 6). -/
def Obligations.ResetAbandonsTheJob : Prop :=
  ∀ (s : State) (j : Job), StateInv s → s.phase = .run j → ∃ t, runEvent .reset s = .next t ∧
    t.phase = .idle ∧ t.done = false ∧ t.result = .none ∧
      (∀ a, ¬ (slotAddr j 0 ≤ a ∧ a < slotAddr j (jobSlots j)) → Memory.read t.mem a = Memory.read s.mem a) ∧
      ∀ e, engineStep e t = t

/-- The state after reset reads as 10_state.md section 6 says, for every build and platform. -/
def Obligations.ResetStateReadsAsTheSpecSays : Prop :=
  ∀ c : Config,
    regRead .status (State.resetOf c) = (if c.variant = .vision then 0x00000000#32 else 0x00000100#32) ∧
      (State.resetOf c).phase = .idle ∧ irq (State.resetOf c) = false ∧ StateInv (State.resetOf c) ∧
      (∀ r, r ≠ .id → r ≠ .status → regRead r (State.resetOf c) = 0#32)

/-! ## The engine -/

/-- R53, R107: an engine step of a job without a bus error writes RES[i] to the slot it picks, low byte at the lowest
address, marks it written, and changes no other byte and no register. A slot in the model's `loose` (log entry 6) holds
any value instead (R241); all else is the same. -/
def Obligations.EngineStepWritesOneSlot : Prop :=
  ∀ (s : State) (j : Job) (t : EngineTurn) (i : Nat), StateInv s → s.phase = .run j → jobClear s.cfg j = true →
    pickSlot t.pick j.unwritten = some i →
    let u := engineStep t s
    (i ∉ j.loose →
        ∀ k, k < 4 → Memory.read u.mem (slotAddr j i + k) = (j.res.getD i 0#32).extractLsb' (8 * k) 8) ∧
      (∀ a, ¬ (slotAddr j i ≤ a ∧ a < slotAddr j i + 4) → Memory.read u.mem a = Memory.read s.mem a) ∧
      u = { s with phase := .run { j with unwritten := j.unwritten.erase i }, mem := u.mem, dirty := u.dirty,
                   fresh := u.fresh }

/-- R59, R107: which slot comes next is open: every slot not yet written can be the next, and no other.
How a turn says its choice is the model's (log entry 4). -/
def Obligations.EveryUnwrittenSlotMayComeNext : Prop :=
  ∀ (slots : List Nat) (i : Nat), i ∈ slots ↔ ∃ pick, pickSlot pick slots = some i

/-- R108, R241: with every slot written and no bus error, the engine's step completes the job OK, also when the host
broke a duty, and changes no byte outside the output range and no other register. With no duty broken it changes no byte
at all. Through a port that is not coherent the host's copies of the output range may be stale from here on (R60). The
marks are the model's (log entries 6 and 7). -/
def Obligations.LastEngineStepCompletesOk : Prop :=
  ∀ (s : State) (j : Job) (t : EngineTurn), s.phase = .run j → jobClear s.cfg j = true → j.unwritten = [] →
    let u := engineStep t s
    u = { s with phase := .idle, result := .ok, done := true, mem := u.mem, dirty := u.dirty, stale := u.stale,
                 fresh := s.fresh + 1 } ∧
      (∀ a, a ∈ u.stale ↔
        a ∈ s.stale ∨ (s.cfg.coherent = false ∧ slotAddr j 0 ≤ a ∧ a < slotAddr j (jobSlots j))) ∧
      (j.loose = [] → u.mem = s.mem ∧ u.dirty = s.dirty) ∧
      (StateInv s → ∀ a, ¬ (slotAddr j 0 ≤ a ∧ a < slotAddr j (jobSlots j)) →
        Memory.read u.mem a = Memory.read s.mem a)

/-- R59, R108, R241, for every order of the slot writes: as many engine steps as slots are left, and one more, end a job
without a bus error OK, no byte outside its output range and no other register changed, also when the host broke a duty.
With no duty broken every one of those slots holds its RES value and no other byte changes. That a broken duty is marked
in `loose` is the model's (log entry 6). -/
def Obligations.ClearJobWritesEverySlotInAnyOrder : Prop :=
  ∀ (s : State) (j : Job) (turns : List EngineTurn), StateInv s → s.phase = .run j → jobClear s.cfg j = true →
    j.unwritten.length < turns.length →
    let u := engineRun turns s
    (j.loose = [] → ∀ i, i ∈ j.unwritten → Memory.readWord u.mem (slotAddr j i) = j.res.getD i 0#32) ∧
      (j.loose = [] → ∀ a, (∀ i, i ∈ j.unwritten → ¬ (slotAddr j i ≤ a ∧ a < slotAddr j i + 4)) →
        Memory.read u.mem a = Memory.read s.mem a) ∧
      (∀ a, ¬ (slotAddr j 0 ≤ a ∧ a < slotAddr j (jobSlots j)) → Memory.read u.mem a = Memory.read s.mem a) ∧
      u = { s with phase := .idle, result := .ok, done := true, mem := u.mem, dirty := u.dirty, stale := u.stale,
                   fresh := u.fresh }

/-- The whole of PROCESS (R59, R104 to R108): from an idle block with good parameters, visible input and no bus error,
the command and then enough engine steps, in any order of the slots, end with RESULT = OK and slot i of the frame holding
RES[i] of the input bytes; no other byte of memory and no parameter register changes. -/
def Obligations.ProcessedFrameHoldsItsResult : Prop :=
  ∀ (s : State) (turns : List EngineTurn), StateInv s → ProcessReady s → s.cfg.coherent = true →
    rangeOk s.cfg s.inBase.toNat (frameIn s) = true → rangeOk s.cfg (frameOut s) (4 * frameSlots s) = true →
    hitsDevice s.cfg s.inBase.toNat (frameIn s) = false → frameSlots s < turns.length →
    ∃ t, exec .process s = .next t ∧
      let u := engineRun turns t
      let bytes := (List.range (frameIn s)).map fun k => Memory.read s.mem (s.inBase.toNat + k)
      (∀ i, i < frameSlots s → Memory.readWord u.mem (frameOut s + 4 * i) =
          (frameResult s.cfg.variant s.width.toNat s.height.toNat bytes).getD i 0#32) ∧
        (∀ a, ¬ (frameOut s ≤ a ∧ a < frameOut s + 4 * frameSlots s) →
          Memory.read u.mem a = Memory.read s.mem a) ∧
        u = { s with result := .ok, done := true, mem := u.mem, dirty := u.dirty, stale := u.stale,
                     fresh := u.fresh }

/-- R109, R206: as many engine steps as slots are left, and one more, end a job with a bus error with ERR_BUS; no byte
outside its output range changes, and READY and every other register stay as they were. -/
def Obligations.FaultyJobEndsWithErrBus : Prop :=
  ∀ (s : State) (j : Job) (turns : List EngineTurn), StateInv s → s.phase = .run j → jobClear s.cfg j = false →
    j.unwritten.length < turns.length →
    let u := engineRun turns s
    (∀ a, ¬ (slotAddr j 0 ≤ a ∧ a < slotAddr j (jobSlots j)) → Memory.read u.mem a = Memory.read s.mem a) ∧
      u = { s with phase := .idle, result := .errBus, done := true, mem := u.mem, dirty := u.dirty, stale := u.stale,
                   fresh := u.fresh }

/-- R246: with no host turn left, a job of `w*h` slots ends within `w*h + 1` steps of the machine, OK or ERR_BUS. -/
def Obligations.EveryJobEndsWithinItsBound : Prop :=
  ∀ (s : State) (j : Job), StateInv s → s.phase = .run j → s.agenda = [] →
    ∃ u, Host.Core.run Sys2Proof.core (j.w.toNat * j.h.toNat + 1) s = .next u ∧ u.phase = .idle ∧ u.done = true ∧
      (u.result = .ok ∨ u.result = .errBus)

/-! ## What every step keeps -/

/-- The invariant of the machine (memory's canonical form, a running job's checked ranges and slots, READY and DONE
during a job, RESULT = NONE) is kept by every step from every state that has it. -/
def Obligations.StepKeepsTheStateInvariant : Prop :=
  ∀ s t : State, StateInv s → step s = .next t → StateInv t

/-- R106, R107, R241: while no duty is broken, RES of the running job stays the result of the input bytes as they stand
in memory, at every step. That a broken duty is marked in `loose` is the model's (log entry 6). -/
def Obligations.StepKeepsTheResultFaithful : Prop :=
  ∀ s t : State, StateInv s → ResFaithful s → step s = .next t → ResFaithful t

/-- R4: no step changes the build or the platform parameters. That they stand in the state is the model's (log
entry 2). -/
def Obligations.StepKeepsTheBuild : Prop :=
  ∀ s t : State, step s = .next t → t.cfg = s.cfg

/-- R25: READY changes only by INIT, which sets it, and by CLEANUP and reset, which clear it. -/
def Obligations.ReadyChangesOnlyByTheLifecycle : Prop :=
  ∀ s t : State, step s = .next t → t.ready ≠ s.ready →
    (t.ready = true ∧ NextWrites s .cmd 0x00000001#32) ∨
      (t.ready = false ∧ (NextWrites s .cmd 0x00000002#32 ∨ NextResets s))

/-- R28: a write of CMD while BUSY = 1 sets OVERRUN, and once set it stays 1 until the host writes 1 to bit 3 of STATUS
or reset. -/
def Obligations.OverrunIsSticky : Prop :=
  ∀ s t : State, step s = .next t →
    (∀ v, busy s = true → NextWrites s .cmd v → t.overrun = true) ∧
      (s.overrun = true → t.overrun = false → NextResets s ∨ ∃ v, NextWrites s .status v ∧ v.getLsbD 3 = true)

/-- R29, R205: RESULT changes only at reset and at a completion: a CMD write accepted while IDLE, or an engine step that
takes the phase from RUN to IDLE; a completion sets DONE and never records NONE. -/
def Obligations.ResultChangesOnlyAtCompletion : Prop :=
  ∀ s t : State, step s = .next t → t.result ≠ s.result →
    NextResets s ∨
      (t.done = true ∧ t.result ≠ .none ∧
        ((s.phase = .idle ∧ ∃ v, NextWrites s .cmd v) ∨
          ((∃ j, s.phase = .run j) ∧ t.phase = .idle ∧ NextEngine s)))

/-- R50, R51: a register access, a command's acceptance among them, changes no byte of system memory. -/
def Obligations.RegisterAccessesLeaveMemoryAlone : Prop :=
  ∀ (s t : State) (a : RegAccess), regAccess a s = .next t →
    t.mem = s.mem ∧ t.dirty = s.dirty ∧ t.stale = s.stale ∧ t.agenda = s.agenda

/-! ## Memory and the host -/

/-- R57: where the platform answers with a bus error a write changes nothing there, a byte of a word write too, and a
host read of a byte, or of a word of which some byte does not answer, delivers no data and changes nothing else. For the
host's own accesses this is the model's reading (log entry 9); `busData` and the supply of free values are the model's
(log entries 8 and 5). -/
def Obligations.BusErrorChangesNothing : Prop :=
  ∀ s : State,
    (∀ (a : Nat) (b : Byte), memOk s.cfg a = false → storeByte a b s = s ∧ (hostLoadByte a s).busData = none) ∧
      (∀ (a k : Nat) (v : Word), StateInv s → a + 4 ≤ 2 ^ 32 → k < 4 → memOk s.cfg (a + k) = false →
        Memory.read (storeWord a v s).mem (a + k) = Memory.read s.mem (a + k)) ∧
      (∀ a : Word, memOk s.cfg a.toNat = false →
        runEvent (.memReadByte a) s = .next { s with busData := none, fresh := s.fresh + 1 }) ∧
      ∀ addrHigh : BitVec 30, rangeOk s.cfg (4 * addrHigh.toNat) 4 = false →
        runEvent (.memReadWord addrHigh) s = .next { s with busData := none, fresh := s.fresh + 1 }

/-- R60, R61: a byte the host stores and makes visible is what the engine reads there, in idempotent memory (with a
coherent port, without more ado); every other byte reads as before, and no register changes. The marks of the caches and
of a broken duty are the model's (log entries 7 and 6). -/
def Obligations.HostStoreReachesTheEngine : Prop :=
  ∀ (s : State) (a : Word) (b : Byte), StateInv s → memOk s.cfg a.toNat = true → isDevice s.cfg a.toNat = false →
    ∃ t, runEvent (.memWriteByte a b) s = .next t ∧
      engineReadByte (cacheClean t) a.toNat = b ∧ (s.cfg.coherent = true → engineReadByte t a.toNat = b) ∧
      (∀ x, x ≠ a.toNat → Memory.read t.mem x = Memory.read s.mem x) ∧
      t = { s with mem := t.mem, dirty := t.dirty, stale := t.stale, phase := t.phase }

/-- R61 item 4, R221, R241: a store to the running job's input range, the host's of a byte or a word or another block's,
makes every slot of the job hold any value; another block's store to a slot of the job makes that slot do so; any other
store leaves the job alone, and no store starts one. A word store puts the word where the platform answers, no store
changes another byte, and no store changes a register. The marks `loose` and the marks of the caches are the model's (log
entries 6 and 7), and so are how another block is seen and the supply of free values (log entries 10 and 5). -/
def Obligations.HostStoreToInputLoosensTheJob : Prop :=
  ∀ s : State,
    (∀ (a : Word) (b : Byte), ∃ t, runEvent (.memWriteByte a b) s = .next t ∧
      t = { s with mem := t.mem, dirty := t.dirty, stale := t.stale, phase := t.phase } ∧
      (StateInv s → ∀ x, x ≠ a.toNat → Memory.read t.mem x = Memory.read s.mem x) ∧
      (s.phase = .idle → t.phase = .idle) ∧
      ∀ j, s.phase = .run j →
        (j.inb.toNat ≤ a.toNat ∧ a.toNat < j.inb.toNat + jobNeedIn s.cfg.variant j →
          t.phase = .run { j with loose := List.range (jobSlots j) }) ∧
        (¬ (j.inb.toNat ≤ a.toNat ∧ a.toNat < j.inb.toNat + jobNeedIn s.cfg.variant j) → t.phase = s.phase)) ∧
    ∀ (addrHigh : BitVec 30) (v : Word), StateInv s →
      let a := 4 * addrHigh.toNat
      let meets := fun j : Job =>
        ∃ x, a ≤ x ∧ x < a + 4 ∧ j.inb.toNat ≤ x ∧ x < j.inb.toNat + jobNeedIn s.cfg.variant j
      (∃ t, runEvent (.memWriteWord addrHigh v) s = .next t ∧
        t = { s with mem := t.mem, dirty := t.dirty, stale := t.stale, phase := t.phase } ∧
        (rangeOk s.cfg a 4 = true → Memory.readWord t.mem a = v) ∧
        (∀ x, ¬ (a ≤ x ∧ x < a + 4) → Memory.read t.mem x = Memory.read s.mem x) ∧
        (s.phase = .idle → t.phase = .idle) ∧
        ∀ j, s.phase = .run j →
          (meets j → t.phase = .run { j with loose := List.range (jobSlots j) }) ∧
            (¬ meets j → t.phase = s.phase)) ∧
      ∃ t, runEvent (.otherBlock addrHigh) s = .next t ∧
        t = { s with mem := t.mem, dirty := t.dirty, stale := t.stale, phase := t.phase, fresh := s.fresh + 1 } ∧
        (∀ x, ¬ (a ≤ x ∧ x < a + 4) → Memory.read t.mem x = Memory.read s.mem x) ∧
        (s.phase = .idle → t.phase = .idle) ∧
        ∀ j, s.phase = .run j →
          (meets j → t.phase = .run { j with loose := List.range (jobSlots j) }) ∧
            (∀ i, i < jobSlots j → a = slotAddr j i → t.phase = .run { j with loose := i :: j.loose }) ∧
            (¬ meets j → (∀ i, i < jobSlots j → a ≠ slotAddr j i) → t.phase = s.phase)

/-- R58, R60, R61, R242: what a host read of idempotent memory returns, and that it changes nothing else. Through a
coherent port it is memory as it stands between two steps, of a slot of the running job too: that this is the old or the
job's value which R61 item 3 leaves open is the model's reading (log entry 11). Through another port, with no stale copy,
it is memory as it stands, but of a slot of the running job the whole value at acceptance or the whole value as it stands.
Discarding leaves no stale copy. The field `busData` and the supply of free values are the model's (log entries 8
and 5), and so are the marks of stale copies (log entry 7). -/
def Obligations.HostReadReturnsTheWholeWord : Prop :=
  ∀ (s : State) (addrHigh : BitVec 30),
    let a := 4 * addrHigh.toNat
    let returns := fun v : Word =>
      runEvent (.memReadWord addrHigh) s = .next { s with busData := some v, fresh := s.fresh + 1 }
    let discarded := ∀ k, k < 4 → a + k ∉ s.stale
    (rangeOk s.cfg a 4 = true → hitsDevice s.cfg a 4 = false →
      (s.cfg.coherent = true → returns (Memory.readWord s.mem a)) ∧
      (discarded → s.phase = .idle → returns (Memory.readWord s.mem a)) ∧
      ∀ j, StateInv s → discarded → s.phase = .run j →
        (∀ i, i < jobSlots j → a = slotAddr j i →
          returns (j.old.getD i 0#32) ∨ returns (Memory.readWord s.mem a)) ∧
        ((∀ i, i < jobSlots j → a ≠ slotAddr j i) → returns (Memory.readWord s.mem a))) ∧
    (∀ b : Word, s.cfg.coherent = true → memOk s.cfg b.toNat = true → isDevice s.cfg b.toNat = false →
      runEvent (.memReadByte b) s =
        .next { s with busData := some ((Memory.read s.mem b.toNat).setWidth 32), fresh := s.fresh + 1 }) ∧
    runEvent .cacheInvalidate s = .next { s with stale := [] }

/-! ## The pixel pipeline -/

/-- R120: the chroma bytes a pixel reads lie inside the input range, and every input byte is read by some pixel. -/
def Obligations.Nv21ReadsExactlyTheInput : Prop :=
  ∀ (input : List Byte) (w h : Nat), w % 2 = 0 → h % 2 = 0 →
    needIn .vision w h = w * h * 3 / 2 ∧
    (∀ x y, x < w → y < h →
      lumaAt input w x y ≤ 255 ∧ chromaV input w h x y ≤ 255 ∧ chromaU input w h x y ≤ 255 ∧
      lumaAt input w x y = inByte input (y * w + x) ∧ y * w + x < needIn .vision w h ∧
        chromaV input w h x y = inByte input (w * h + (y / 2) * w + 2 * (x / 2)) ∧
        chromaU input w h x y = inByte input (w * h + (y / 2) * w + 2 * (x / 2) + 1) ∧
        w * h + (y / 2) * w + 2 * (x / 2) + 1 < needIn .vision w h) ∧
      ∀ k, k < needIn .vision w h → ∃ x y, x < w ∧ y < h ∧
        (k = y * w + x ∨ k = w * h + (y / 2) * w + 2 * (x / 2) ∨ k = w * h + (y / 2) * w + 2 * (x / 2) + 1)

/-- R122, R123: the conversion, the bounds of its intermediates, and its corner cases. -/
def Obligations.YuvToRgbFormulaAndBounds : Prop :=
  ∀ y u v : Nat, y ≤ 255 → u ≤ 255 → v ≤ 255 →
    let ruv : Int := 524288 + 1673527 * ((v : Int) - 128)
    let guv : Int := 524288 - 852492 * ((v : Int) - 128) - 409993 * ((u : Int) - 128)
    let buv : Int := 524288 + 2116026 * ((u : Int) - 128)
    let yy : Int := max 0 ((y : Int) - 16) * 1220542
    yuvToRgb y u v = ⟨sat8 ((yy + ruv) / 1048576), sat8 ((yy + guv) / 1048576), sat8 ((yy + buv) / 1048576)⟩ ∧
      0 ≤ yy ∧ yy ≤ 291709538 ∧ -213687168 ≤ ruv ∧ ruv ≤ 213062217 ∧ -159811307 ≤ guv ∧ guv ≤ 162122368 ∧
      -270327040 ≤ buv ∧ buv ≤ 269259590 ∧
      (∀ c ∈ [ruv, guv, buv], -270327040 ≤ yy + c ∧ yy + c ≤ 560969128) ∧
      (∀ z : Int, -1048576 ≤ z → z < 0 → z / 1048576 = -1 ∧ sat8 (z / 1048576) = 0) ∧
      (let k := sat8 ((yy + 524288) / 1048576); yuvToRgb y 128 128 = ⟨k, k, k⟩) ∧
      (y ≤ 16 → yuvToRgb y 128 128 = ⟨0, 0, 0⟩) ∧ (235 ≤ y → yuvToRgb y 128 128 = ⟨255, 255, 255⟩) ∧
      yuvToRgb 128 128 128 = ⟨130, 130, 130⟩ ∧ yuvToRgb 0 0 0 = ⟨0, 154, 0⟩ ∧
      yuvToRgb 255 255 255 = ⟨255, 125, 255⟩ ∧ yuvToRgb 81 90 240 = ⟨254, 0, 0⟩

/-- R125: the weights, the bound, and that equal channels give themselves. -/
def Obligations.GreyIsTheWeightedSum : Prop :=
  ∀ r g b v : Nat, r ≤ 255 → g ≤ 255 → b ≤ 255 →
    rgbToGray ⟨r, g, b⟩ = (4899 * r + 9617 * g + 1868 * b + 8192) / 16384 ∧
      4899 * r + 9617 * g + 1868 * b + 8192 ≤ 4186112 ∧ rgbToGray ⟨r, g, b⟩ ≤ 255 ∧
      rgbToGray ⟨v, v, v⟩ = v ∧ rgbToGray ⟨255, 0, 0⟩ = 76 ∧ rgbToGray ⟨0, 255, 0⟩ = 150 ∧
      rgbToGray ⟨0, 0, 255⟩ = 29 ∧ rgbToGray ⟨100, 150, 200⟩ = 141

/-- R126, and R121 for the chroma: the colour converter's output at a pixel is the grey of that pixel's own luma and the
chroma pair of its 2×2 block. -/
def Obligations.ColourConverterOutput : Prop :=
  ∀ (input : List Byte) (w h x y : Nat), x < w → y < h →
    pixel (grayImage (resize (nv21ToRgb input w h))) x y =
        rgbToGray (yuvToRgb (lumaAt input w x y) (chromaU input w h x y) (chromaV input w h x y)) ∧
      chromaU input w h x y = chromaU input w h (2 * (x / 2)) (2 * (y / 2)) ∧
      chromaV input w h x y = chromaV input w h (2 * (x / 2)) (2 * (y / 2))

/-- R140: the reflect-101 loop ends inside the image for every index, and unfolds as the rule's loop does. -/
def Obligations.ReflectBorderIsTheLoopOfTheRule : Prop :=
  ∀ (p : Int) (n : Nat), 1 ≤ n →
    reflect101 p n < n ∧ (n = 1 → reflect101 p n = 0) ∧
      (2 ≤ n → 0 ≤ p → p < n → (reflect101 p n : Int) = p) ∧
      (2 ≤ n → p < 0 → reflect101 p n = reflect101 (-p) n) ∧
      (2 ≤ n → (n : Int) ≤ p → reflect101 p n = reflect101 (2 * ((n : Int) - 1) - p) n)

/-- R143: rows first and then columns, rounded once, is the filter of R142. -/
def Obligations.SeparableBlurIsTheBlur : Prop :=
  ∀ g : Image Nat, separableBlur5 g = gaussBlur5 g

/-- R141, R142, R144: the filter, with the weights 1 4 6 4 1 written out and one rounding; no value lies outside the range
of its reflected 5×5 neighbourhood, nor outside that of the image; blurring keeps the dimensions and a constant image. -/
def Obligations.BlurStaysInRange : Prop :=
  (∀ (g : Image Nat) (x y : Nat), x < g.w → y < g.h →
      let px := fun dx dy : Int => pixel g (reflect101 ((x : Int) + dx) g.w) (reflect101 ((y : Int) + dy) g.h)
      let row := fun dy : Int => px (-2) dy + 4 * px (-1) dy + 6 * px 0 dy + 4 * px 1 dy + px 2 dy
      pixel (gaussBlur5 g) x y = (row (-2) + 4 * row (-1) + 6 * row 0 + 4 * row 1 + row 2 + 128) / 256 ∧
        ∀ lo hi : Nat, (∀ dx dy : Int, -2 ≤ dx → dx ≤ 2 → -2 ≤ dy → dy ≤ 2 → lo ≤ px dx dy ∧ px dx dy ≤ hi) →
          lo ≤ pixel (gaussBlur5 g) x y ∧ pixel (gaussBlur5 g) x y ≤ hi) ∧
    (∀ (m : Nat) (g : Image Nat), ImageLe m g →
      ImageLe m (gaussBlur5 g) ∧ (gaussBlur5 g).px.length = g.w * g.h ∧ (gaussBlur5 g).w = g.w ∧
        (gaussBlur5 g).h = g.h) ∧
    (∀ (l : Nat) (g : Image Nat), g.px.length = g.w * g.h → (∀ v ∈ g.px, l ≤ v) → ∀ v ∈ (gaussBlur5 g).px, l ≤ v) ∧
    ∀ w h c : Nat, gaussBlur5 (tabulate w h fun _ _ => c) = tabulate w h fun _ _ => c

/-- R151 to R154: the two Sobel sums over clamped pixels, and the clamp; the magnitude is their L1 norm inside the image
and 0 outside it; the derivatives of a u8 image lie in -1020 .. 1020 and its magnitudes in 0 .. 2040. -/
def Obligations.GradientStaysInRange : Prop :=
  (∀ (b : Image Nat) (x y : Int),
      let p := fun dy dx : Int => ((pixel b (clampIdx (x + dx) b.w) (clampIdx (y + dy) b.h) : Nat) : Int)
      sobelX b x y = (p (-1) 1 + 2 * p 0 1 + p 1 1) - (p (-1) (-1) + 2 * p 0 (-1) + p 1 (-1)) ∧
        sobelY b x y = (p 1 (-1) + 2 * p 1 0 + p 1 1) - (p (-1) (-1) + 2 * p (-1) 0 + p (-1) 1)) ∧
    (∀ (p : Int) (n : Nat), 1 ≤ n →
      (p < 0 → clampIdx p n = 0) ∧ (0 ≤ p → p < n → (clampIdx p n : Int) = p) ∧
        ((n : Int) ≤ p → (clampIdx p n : Int) = n - 1)) ∧
    (∀ (b : Image Nat) (x y : Nat), x < b.w → y < b.h →
      magZero (gradientImage b) y x = (sobelX b x y).natAbs + (sobelY b x y).natAbs) ∧
    ∀ b : Image Nat, ImageLe 255 b → ∀ x y : Int,
      -1020 ≤ sobelX b x y ∧ sobelX b x y ≤ 1020 ∧ -1020 ≤ sobelY b x y ∧ sobelY b x y ≤ 1020 ∧
        magZero (gradientImage b) y x ≤ 2040 ∧ (inside b x y = false → magZero (gradientImage b) y x = 0)

/-- R156: the integer test of the sector with the constant 13573, written out; along an axis the sector is that axis, and
a diagonal has both derivatives nonzero and the sign of their product. -/
def Obligations.SectorOfAGradient : Prop :=
  ∀ g : Gradient,
    let level := g.dy.natAbs * 32768 < g.dx.natAbs * 13573
    let steep := g.dy.natAbs * 32768 > g.dx.natAbs * (13573 + 65536)
    (sectorOf g = .horizontal ↔ level) ∧ (sectorOf g = .vertical ↔ ¬ level ∧ steep) ∧
      (sectorOf g = .diagonal 1 ↔ ¬ level ∧ ¬ steep ∧ (g.dx < 0 ↔ g.dy < 0)) ∧
      (sectorOf g = .diagonal (-1) ↔ ¬ level ∧ ¬ steep ∧ ¬ (g.dx < 0 ↔ g.dy < 0)) ∧
    (g.dx = 0 → g.dy ≠ 0 → sectorOf g = .vertical) ∧ (g.dy = 0 → g.dx ≠ 0 → sectorOf g = .horizontal) ∧
      ∀ s, magnitude g > 50 → sectorOf g = .diagonal s →
        g.dx ≠ 0 ∧ g.dy ≠ 0 ∧ (s = 1 ↔ 0 < g.dx * g.dy) ∧ (s = -1 ↔ g.dx * g.dy < 0)

/-- R155, R157, R158: the class of a pixel, with both thresholds strict; and in the class image, whether a pixel is kept,
by the comparisons of its sector: strict before and not after along an axis, strict on both sides of a diagonal. -/
def Obligations.ClassOfAPixel : Prop :=
  (∀ (m : Nat) (kept : Bool),
      (classOf m kept = .none ↔ m ≤ 50 ∨ kept = false) ∧ (classOf m kept = .strong ↔ 150 < m ∧ kept = true) ∧
        (classOf m kept = .weak ↔ 50 < m ∧ m ≤ 150 ∧ kept = true)) ∧
    ∀ (g : Image Gradient) (x y : Nat), x < g.w → y < g.h →
      let d := pixel g x y
      let m := d.dx.natAbs + d.dy.natAbs
      let mz := fun (dy dx : Int) => magZero g ((y : Int) + dy) ((x : Int) + dx)
      let kept :=
        (sectorOf d = .horizontal ∧ m > mz 0 (-1) ∧ m ≥ mz 0 1) ∨
          (sectorOf d = .vertical ∧ m > mz (-1) 0 ∧ m ≥ mz 1 0) ∨
          (sectorOf d = .diagonal 1 ∧ m > mz (-1) (-1) ∧ m > mz 1 1) ∨
          (sectorOf d = .diagonal (-1) ∧ m > mz (-1) 1 ∧ m > mz 1 (-1))
      (pixel (classImage g) x y = .none ↔ m ≤ 50 ∨ ¬ kept) ∧ (pixel (classImage g) x y = .strong ↔ 150 < m ∧ kept) ∧
        (pixel (classImage g) x y = .weak ↔ 50 < m ∧ m ≤ 150 ∧ kept)

/-- R159: hysteresis computes the smallest set that holds every STRONG pixel and every WEAK pixel 8-adjacent to one of
its own. -/
def Obligations.HysteresisIsTheSmallestClosedSet : Prop :=
  ∀ (c : Image EdgeClass) (x y : Nat), x < c.w → y < c.h →
    (pixel (hysteresis c) x y = true ↔ InEdge c x y)

/-- R160: the edge image is 255 at the pixels of EDGE and 0 elsewhere. -/
def Obligations.CannyMarksExactlyTheEdges : Prop :=
  ∀ (b : Image Nat) (x y : Nat), x < b.w → y < b.h →
    (InEdge (classImage (gradientImage b)) x y → pixel (canny b) x y = 255) ∧
      (¬ InEdge (classImage (gradientImage b)) x y → pixel (canny b) x y = 0)

/-- R161: a constant image has no edge. -/
def Obligations.ConstantImageHasNoEdge : Prop :=
  ∀ w h c : Nat, canny (tabulate w h fun _ _ => c) = tabulate w h fun _ _ => 0

/-- R171: the packed word is 0xFF, R, G, B from its most significant byte down. -/
def Obligations.PackLaysOutArgb : Prop :=
  ∀ r g b : Byte, pack r.toNat g.toNat b.toNat = 0xFF#8 ++ r ++ g ++ b

/-- R106, R172: the stages in their fixed order, and under VISION slot i holds the packed edge value of its pixel,
0xFFFFFFFF for an edge and 0xFF000000 for any other pixel. -/
def Obligations.VisionSlotValue : Prop :=
  ∀ (input : List Byte) (w h i : Nat), i < w * h →
    let e := pixel (canny (gaussBlur5 (grayImage (resize (nv21ToRgb input w h))))) (i % w) (i / w)
    (frameResult .vision w h input).getD i 0#32 = pack e e e ∧
      (frameResult .vision w h input).getD i 0#32 = (if e = 255 then 0xFFFFFFFF#32 else 0xFF000000#32) ∧
      (e = 255 ∨ e = 0)

/-- R175, R176: under FALLBACK slot i holds the inverted luma in its three channels, and inverting a channel byte again
gives the luma back. -/
def Obligations.FallbackSlotValue : Prop :=
  ∀ (input : List Byte) (w h i : Nat), i < w * h →
    let luma : Byte := input.getD i 0#8
    (frameResult .fallback w h input).getD i 0#32 =
        0xFF#8 ++ BitVec.ofNat 8 (255 - luma.toNat) ++ BitVec.ofNat 8 (255 - luma.toNat)
          ++ BitVec.ofNat 8 (255 - luma.toNat) ∧
      255 - (255 - luma.toNat) = luma.toNat

/-- R173: under either variant a frame's result has one word for each pixel, each with alpha 0xFF. -/
def Obligations.EverySlotHasOpaqueAlpha : Prop :=
  ∀ (v : Variant) (w h : Nat) (input : List Byte),
    (frameResult v w h input).length = w * h ∧ ∀ x ∈ frameResult v w h input, x.extractLsb' 24 8 = 0xFF#8

/-- R106, R249: two blocks of one variant that are given frames of the same dimensions and the same input bytes, at any
addresses and in any other state, fix the same RES. -/
def Obligations.ResultDependsOnTheFrameOnly : Prop :=
  ∀ s s' : State, s.cfg.variant = s'.cfg.variant → s.width = s'.width → s.height = s'.height →
    (∀ k, k < frameIn s → engineReadByte s (s.inBase.toNat + k) = engineReadByte s' (s'.inBase.toNat + k)) →
      (latchJob s).res = (latchJob s').res
end

