-- ==== Sys2Proof/Laws/Memory.lean ====
section
/-! SUPPORT. System memory: read after write, and the canonical form kept by every memory operation. -/

namespace Sys2Proof.Machine

@[simp] theorem Memory.read_nil (a : Nat) : Memory.read [] a = unlistedByte := rfl

@[simp] theorem Memory.wf_nil : Memory.wf [] = true := rfl

theorem Memory.wf_tail {c : Host.Cell} {m : Memory} (h : Memory.wf (c :: m) = true) : Memory.wf m = true := by
  simp only [Memory.wf, Bool.and_eq_true] at h
  exact h.2

theorem Memory.wf_head {c : Host.Cell} {m : Memory} (h : Memory.wf (c :: m) = true) :
    c.1 < 2 ^ 32 ∧ c.2 ≠ unlistedByte := by
  simp only [Memory.wf, Bool.and_eq_true, decide_eq_true_eq] at h
  exact h.1.1

/-- Below its first listed address a well-formed memory reads as unlisted. -/
theorem Memory.read_below {c : Host.Cell} {m : Memory} {a : Nat} (h : Memory.wf (c :: m) = true) (ha : a ≤ c.1) :
    Memory.read m a = unlistedByte := by
  cases m with
  | nil => rfl
  | cons d rest =>
    simp only [Memory.wf, Bool.and_eq_true, decide_eq_true_eq] at h
    have hd : c.1 < d.1 := h.1.2
    simp only [Memory.read]
    rw [if_neg (by omega), if_pos (by omega)]

/-- A read of the address just written gives the byte written. -/
theorem Memory.read_write_same (m : Memory) (a : Nat) (v : Byte) (h : Memory.wf m = true) :
    Memory.read (Memory.write m a v) a = v := by
  induction m with
  | nil =>
    by_cases hv : v = unlistedByte <;> simp [Memory.write, hv, Memory.read]
  | cons c rest ih =>
    simp only [Memory.write]
    split
    · rename_i hlt
      split
      · rename_i hv
        simp only [Memory.read]
        rw [if_neg (by omega), if_pos hlt, hv]
      · simp [Memory.read]
    · rename_i hge
      split
      · rename_i he
        split
        · rename_i hv
          rw [hv]
          exact Memory.read_below h (by omega)
        · simp [Memory.read]
      · rename_i hne
        simp only [Memory.read]
        rw [if_neg hne, if_neg hge]
        exact ih (Memory.wf_tail h)

/-- A read of any other address gives what it gave before. -/
theorem Memory.read_write_other (m : Memory) (a b : Nat) (v : Byte) (h : Memory.wf m = true) (hb : b ≠ a) :
    Memory.read (Memory.write m a v) b = Memory.read m b := by
  induction m with
  | nil =>
    by_cases hv : v = unlistedByte <;> simp [Memory.write, hv, Memory.read, Ne.symm hb]
  | cons c rest ih =>
    simp only [Memory.write]
    split
    · rename_i hlt
      split
      · rfl
      · simp only [Memory.read]
        rw [if_neg (Ne.symm hb)]
        split
        · rename_i hba
          rw [if_neg (by omega), if_pos (by omega)]
        · rfl
    · rename_i hge
      split
      · rename_i he
        have hc : ¬ c.1 = b := by omega
        split
        · rename_i hv
          simp only [Memory.read]
          rw [if_neg hc]
          split
          · rename_i hbc
            exact Memory.read_below h (by omega)
          · rfl
        · simp only [Memory.read]
          rw [if_neg (Ne.symm hb), if_neg hc, he]
      · simp only [Memory.read]
        split
        · rfl
        · split
          · rfl
          · exact ih (Memory.wf_tail h)

/-- The canonical form, said over all entries. -/
theorem Memory.wf_iff (m : Memory) :
    Memory.wf m = true ↔ m.Pairwise (fun c d => c.1 < d.1) ∧ ∀ c ∈ m, c.1 < 2 ^ 32 ∧ c.2 ≠ unlistedByte := by
  induction m with
  | nil => simp
  | cons c rest ih =>
    simp only [Memory.wf, Bool.and_eq_true, decide_eq_true_eq, List.pairwise_cons, List.mem_cons, forall_eq_or_imp, ih]
    constructor
    · rintro ⟨⟨hc, hn⟩, hp, ha⟩
      refine ⟨⟨fun d hd => ?_, hp⟩, hc, ha⟩
      cases rest with
      | nil => cases hd
      | cons e r =>
        have he : c.1 < e.1 := by simpa using hn
        rcases List.mem_cons.1 hd with rfl | hr
        · exact he
        · exact Nat.lt_trans he ((List.pairwise_cons.1 hp).1 d hr)
    · rintro ⟨⟨hlt, hp⟩, hc, ha⟩
      refine ⟨⟨hc, ?_⟩, hp, ha⟩
      cases rest with
      | nil => rfl
      | cons e r => simpa using hlt e (List.mem_cons_self ..)

/-- The entries after a write: those before it, and the new one unless it is what an unlisted address reads as. -/
theorem Memory.mem_write {m : Memory} {a : Nat} {v : Byte} {d : Host.Cell} (h : d ∈ Memory.write m a v) :
    d ∈ m ∨ (d = (a, v) ∧ v ≠ unlistedByte) := by
  induction m with
  | nil =>
    simp only [Memory.write] at h
    split at h
    · cases h
    · exact .inr ⟨List.mem_singleton.1 h, ‹_›⟩
  | cons c rest ih =>
    simp only [Memory.write] at h
    split at h
    · split at h
      · exact .inl h
      · rcases List.mem_cons.1 h with rfl | h'
        · exact .inr ⟨rfl, ‹_›⟩
        · exact .inl h'
    · split at h
      · split at h
        · exact .inl (List.mem_cons_of_mem _ h)
        · rcases List.mem_cons.1 h with rfl | h'
          · exact .inr ⟨rfl, ‹_›⟩
          · exact .inl (List.mem_cons_of_mem _ h')
      · rcases List.mem_cons.1 h with rfl | h'
        · exact .inl (List.mem_cons_self ..)
        · rcases ih h' with h'' | h''
          · exact .inl (List.mem_cons_of_mem _ h'')
          · exact .inr h''

/-- A write keeps the canonical form. -/
theorem Memory.wf_write (m : Memory) (a : Nat) (v : Byte) (h : Memory.wf m = true) (ha : a < 2 ^ 32) :
    Memory.wf (Memory.write m a v) = true := by
  rw [Memory.wf_iff] at h ⊢
  refine ⟨?_, fun d hd => ?_⟩
  · have hp := h.1
    clear h
    induction m with
    | nil => simp only [Memory.write]; split <;> simp
    | cons c rest ih =>
      have hc := List.pairwise_cons.1 hp
      simp only [Memory.write]
      split
      · rename_i hlt
        split
        · exact hp
        · refine List.pairwise_cons.2 ⟨fun d hd => ?_, hp⟩
          rcases List.mem_cons.1 hd with rfl | hd'
          · exact hlt
          · exact Nat.lt_trans hlt (hc.1 d hd')
      · split
        · rename_i he
          split
          · exact hc.2
          · exact List.pairwise_cons.2 ⟨fun d hd => he ▸ hc.1 d hd, hc.2⟩
        · refine List.pairwise_cons.2 ⟨fun d hd => ?_, ih hc.2⟩
          rcases Memory.mem_write hd with hd' | ⟨rfl, -⟩
          · exact hc.1 d hd'
          · show c.1 < a
            omega
  · rcases Memory.mem_write hd with hd' | ⟨rfl, hv⟩
    · exact h.2 d hd'
    · exact ⟨ha, hv⟩

/-- After reset memory is in its canonical form. -/
theorem reset_mem_wf : Memory.wf State.reset.mem = true := rfl

end Sys2Proof.Machine
end

