-- ==== Sys2Proof/Laws/State.lean ====
section
/-! SUPPORT. One lemma per field per update of the state, each true by unfolding. -/

namespace Sys2Proof.Machine

/-! ### `completeWith` -/

@[simp] theorem completeWith_ready (code : ResultCode) (s : State) : (completeWith code s).ready = s.ready := rfl
@[simp] theorem completeWith_done (code : ResultCode) (s : State) : (completeWith code s).done = true := rfl
@[simp] theorem completeWith_overrun (code : ResultCode) (s : State) : (completeWith code s).overrun = s.overrun := rfl
@[simp] theorem completeWith_result (code : ResultCode) (s : State) : (completeWith code s).result = code := rfl
@[simp] theorem completeWith_ie (code : ResultCode) (s : State) : (completeWith code s).ie = s.ie := rfl
@[simp] theorem completeWith_width (code : ResultCode) (s : State) : (completeWith code s).width = s.width := rfl
@[simp] theorem completeWith_height (code : ResultCode) (s : State) : (completeWith code s).height = s.height := rfl
@[simp] theorem completeWith_inBase (code : ResultCode) (s : State) : (completeWith code s).inBase = s.inBase := rfl
@[simp] theorem completeWith_inLen (code : ResultCode) (s : State) : (completeWith code s).inLen = s.inLen := rfl
@[simp] theorem completeWith_outBase (code : ResultCode) (s : State) : (completeWith code s).outBase = s.outBase := rfl
@[simp] theorem completeWith_outLen (code : ResultCode) (s : State) : (completeWith code s).outLen = s.outLen := rfl
@[simp] theorem completeWith_phase (code : ResultCode) (s : State) : (completeWith code s).phase = s.phase := rfl
@[simp] theorem completeWith_mem (code : ResultCode) (s : State) : (completeWith code s).mem = s.mem := rfl
@[simp] theorem completeWith_dirty (code : ResultCode) (s : State) : (completeWith code s).dirty = s.dirty := rfl
@[simp] theorem completeWith_stale (code : ResultCode) (s : State) : (completeWith code s).stale = s.stale := rfl
@[simp] theorem completeWith_busData (code : ResultCode) (s : State) : (completeWith code s).busData = s.busData := rfl
@[simp] theorem completeWith_cfg (code : ResultCode) (s : State) : (completeWith code s).cfg = s.cfg := rfl
@[simp] theorem completeWith_agenda (code : ResultCode) (s : State) : (completeWith code s).agenda = s.agenda := rfl
@[simp] theorem completeWith_fresh (code : ResultCode) (s : State) : (completeWith code s).fresh = s.fresh := rfl

/-! ### `raiseError` -/

@[simp] theorem raiseError_ready (code : ResultCode) (s : State) : (raiseError code s).ready = s.ready := rfl
@[simp] theorem raiseError_done (code : ResultCode) (s : State) : (raiseError code s).done = true := rfl
@[simp] theorem raiseError_overrun (code : ResultCode) (s : State) : (raiseError code s).overrun = s.overrun := rfl
@[simp] theorem raiseError_result (code : ResultCode) (s : State) : (raiseError code s).result = code := rfl
@[simp] theorem raiseError_ie (code : ResultCode) (s : State) : (raiseError code s).ie = s.ie := rfl
@[simp] theorem raiseError_width (code : ResultCode) (s : State) : (raiseError code s).width = s.width := rfl
@[simp] theorem raiseError_height (code : ResultCode) (s : State) : (raiseError code s).height = s.height := rfl
@[simp] theorem raiseError_inBase (code : ResultCode) (s : State) : (raiseError code s).inBase = s.inBase := rfl
@[simp] theorem raiseError_inLen (code : ResultCode) (s : State) : (raiseError code s).inLen = s.inLen := rfl
@[simp] theorem raiseError_outBase (code : ResultCode) (s : State) : (raiseError code s).outBase = s.outBase := rfl
@[simp] theorem raiseError_outLen (code : ResultCode) (s : State) : (raiseError code s).outLen = s.outLen := rfl
@[simp] theorem raiseError_phase (code : ResultCode) (s : State) : (raiseError code s).phase = s.phase := rfl
@[simp] theorem raiseError_mem (code : ResultCode) (s : State) : (raiseError code s).mem = s.mem := rfl
@[simp] theorem raiseError_dirty (code : ResultCode) (s : State) : (raiseError code s).dirty = s.dirty := rfl
@[simp] theorem raiseError_stale (code : ResultCode) (s : State) : (raiseError code s).stale = s.stale := rfl
@[simp] theorem raiseError_busData (code : ResultCode) (s : State) : (raiseError code s).busData = s.busData := rfl
@[simp] theorem raiseError_cfg (code : ResultCode) (s : State) : (raiseError code s).cfg = s.cfg := rfl
@[simp] theorem raiseError_agenda (code : ResultCode) (s : State) : (raiseError code s).agenda = s.agenda := rfl
@[simp] theorem raiseError_fresh (code : ResultCode) (s : State) : (raiseError code s).fresh = s.fresh := rfl

/-! ### `completeOk` -/

@[simp] theorem completeOk_ready (s : State) : (completeOk s).ready = s.ready := rfl
@[simp] theorem completeOk_done (s : State) : (completeOk s).done = true := rfl
@[simp] theorem completeOk_overrun (s : State) : (completeOk s).overrun = s.overrun := rfl
@[simp] theorem completeOk_result (s : State) : (completeOk s).result = .ok := rfl
@[simp] theorem completeOk_ie (s : State) : (completeOk s).ie = s.ie := rfl
@[simp] theorem completeOk_width (s : State) : (completeOk s).width = s.width := rfl
@[simp] theorem completeOk_height (s : State) : (completeOk s).height = s.height := rfl
@[simp] theorem completeOk_inBase (s : State) : (completeOk s).inBase = s.inBase := rfl
@[simp] theorem completeOk_inLen (s : State) : (completeOk s).inLen = s.inLen := rfl
@[simp] theorem completeOk_outBase (s : State) : (completeOk s).outBase = s.outBase := rfl
@[simp] theorem completeOk_outLen (s : State) : (completeOk s).outLen = s.outLen := rfl
@[simp] theorem completeOk_phase (s : State) : (completeOk s).phase = s.phase := rfl
@[simp] theorem completeOk_mem (s : State) : (completeOk s).mem = s.mem := rfl
@[simp] theorem completeOk_dirty (s : State) : (completeOk s).dirty = s.dirty := rfl
@[simp] theorem completeOk_stale (s : State) : (completeOk s).stale = s.stale := rfl
@[simp] theorem completeOk_busData (s : State) : (completeOk s).busData = s.busData := rfl
@[simp] theorem completeOk_cfg (s : State) : (completeOk s).cfg = s.cfg := rfl
@[simp] theorem completeOk_agenda (s : State) : (completeOk s).agenda = s.agenda := rfl
@[simp] theorem completeOk_fresh (s : State) : (completeOk s).fresh = s.fresh := rfl

/-! ### `dropCommand` -/

@[simp] theorem dropCommand_ready (s : State) : (dropCommand s).ready = s.ready := rfl
@[simp] theorem dropCommand_done (s : State) : (dropCommand s).done = s.done := rfl
@[simp] theorem dropCommand_overrun (s : State) : (dropCommand s).overrun = true := rfl
@[simp] theorem dropCommand_result (s : State) : (dropCommand s).result = s.result := rfl
@[simp] theorem dropCommand_ie (s : State) : (dropCommand s).ie = s.ie := rfl
@[simp] theorem dropCommand_width (s : State) : (dropCommand s).width = s.width := rfl
@[simp] theorem dropCommand_height (s : State) : (dropCommand s).height = s.height := rfl
@[simp] theorem dropCommand_inBase (s : State) : (dropCommand s).inBase = s.inBase := rfl
@[simp] theorem dropCommand_inLen (s : State) : (dropCommand s).inLen = s.inLen := rfl
@[simp] theorem dropCommand_outBase (s : State) : (dropCommand s).outBase = s.outBase := rfl
@[simp] theorem dropCommand_outLen (s : State) : (dropCommand s).outLen = s.outLen := rfl
@[simp] theorem dropCommand_phase (s : State) : (dropCommand s).phase = s.phase := rfl
@[simp] theorem dropCommand_mem (s : State) : (dropCommand s).mem = s.mem := rfl
@[simp] theorem dropCommand_dirty (s : State) : (dropCommand s).dirty = s.dirty := rfl
@[simp] theorem dropCommand_stale (s : State) : (dropCommand s).stale = s.stale := rfl
@[simp] theorem dropCommand_busData (s : State) : (dropCommand s).busData = s.busData := rfl
@[simp] theorem dropCommand_cfg (s : State) : (dropCommand s).cfg = s.cfg := rfl
@[simp] theorem dropCommand_agenda (s : State) : (dropCommand s).agenda = s.agenda := rfl
@[simp] theorem dropCommand_fresh (s : State) : (dropCommand s).fresh = s.fresh := rfl

/-! ### `clearDone` -/

@[simp] theorem clearDone_ready (s : State) : (clearDone s).ready = s.ready := rfl
@[simp] theorem clearDone_done (s : State) : (clearDone s).done = false := rfl
@[simp] theorem clearDone_overrun (s : State) : (clearDone s).overrun = s.overrun := rfl
@[simp] theorem clearDone_result (s : State) : (clearDone s).result = s.result := rfl
@[simp] theorem clearDone_ie (s : State) : (clearDone s).ie = s.ie := rfl
@[simp] theorem clearDone_width (s : State) : (clearDone s).width = s.width := rfl
@[simp] theorem clearDone_height (s : State) : (clearDone s).height = s.height := rfl
@[simp] theorem clearDone_inBase (s : State) : (clearDone s).inBase = s.inBase := rfl
@[simp] theorem clearDone_inLen (s : State) : (clearDone s).inLen = s.inLen := rfl
@[simp] theorem clearDone_outBase (s : State) : (clearDone s).outBase = s.outBase := rfl
@[simp] theorem clearDone_outLen (s : State) : (clearDone s).outLen = s.outLen := rfl
@[simp] theorem clearDone_phase (s : State) : (clearDone s).phase = s.phase := rfl
@[simp] theorem clearDone_mem (s : State) : (clearDone s).mem = s.mem := rfl
@[simp] theorem clearDone_dirty (s : State) : (clearDone s).dirty = s.dirty := rfl
@[simp] theorem clearDone_stale (s : State) : (clearDone s).stale = s.stale := rfl
@[simp] theorem clearDone_busData (s : State) : (clearDone s).busData = s.busData := rfl
@[simp] theorem clearDone_cfg (s : State) : (clearDone s).cfg = s.cfg := rfl
@[simp] theorem clearDone_agenda (s : State) : (clearDone s).agenda = s.agenda := rfl
@[simp] theorem clearDone_fresh (s : State) : (clearDone s).fresh = s.fresh := rfl

/-! ### `useFresh` -/

@[simp] theorem useFresh_ready (s : State) : (useFresh s).ready = s.ready := rfl
@[simp] theorem useFresh_done (s : State) : (useFresh s).done = s.done := rfl
@[simp] theorem useFresh_overrun (s : State) : (useFresh s).overrun = s.overrun := rfl
@[simp] theorem useFresh_result (s : State) : (useFresh s).result = s.result := rfl
@[simp] theorem useFresh_ie (s : State) : (useFresh s).ie = s.ie := rfl
@[simp] theorem useFresh_width (s : State) : (useFresh s).width = s.width := rfl
@[simp] theorem useFresh_height (s : State) : (useFresh s).height = s.height := rfl
@[simp] theorem useFresh_inBase (s : State) : (useFresh s).inBase = s.inBase := rfl
@[simp] theorem useFresh_inLen (s : State) : (useFresh s).inLen = s.inLen := rfl
@[simp] theorem useFresh_outBase (s : State) : (useFresh s).outBase = s.outBase := rfl
@[simp] theorem useFresh_outLen (s : State) : (useFresh s).outLen = s.outLen := rfl
@[simp] theorem useFresh_phase (s : State) : (useFresh s).phase = s.phase := rfl
@[simp] theorem useFresh_mem (s : State) : (useFresh s).mem = s.mem := rfl
@[simp] theorem useFresh_dirty (s : State) : (useFresh s).dirty = s.dirty := rfl
@[simp] theorem useFresh_stale (s : State) : (useFresh s).stale = s.stale := rfl
@[simp] theorem useFresh_busData (s : State) : (useFresh s).busData = s.busData := rfl
@[simp] theorem useFresh_cfg (s : State) : (useFresh s).cfg = s.cfg := rfl
@[simp] theorem useFresh_agenda (s : State) : (useFresh s).agenda = s.agenda := rfl
@[simp] theorem useFresh_fresh (s : State) : (useFresh s).fresh = s.fresh + 1 := rfl

/-! ### `returnData` -/

@[simp] theorem returnData_ready (d : Option Word) (s : State) : (returnData d s).ready = s.ready := rfl
@[simp] theorem returnData_done (d : Option Word) (s : State) : (returnData d s).done = s.done := rfl
@[simp] theorem returnData_overrun (d : Option Word) (s : State) : (returnData d s).overrun = s.overrun := rfl
@[simp] theorem returnData_result (d : Option Word) (s : State) : (returnData d s).result = s.result := rfl
@[simp] theorem returnData_ie (d : Option Word) (s : State) : (returnData d s).ie = s.ie := rfl
@[simp] theorem returnData_width (d : Option Word) (s : State) : (returnData d s).width = s.width := rfl
@[simp] theorem returnData_height (d : Option Word) (s : State) : (returnData d s).height = s.height := rfl
@[simp] theorem returnData_inBase (d : Option Word) (s : State) : (returnData d s).inBase = s.inBase := rfl
@[simp] theorem returnData_inLen (d : Option Word) (s : State) : (returnData d s).inLen = s.inLen := rfl
@[simp] theorem returnData_outBase (d : Option Word) (s : State) : (returnData d s).outBase = s.outBase := rfl
@[simp] theorem returnData_outLen (d : Option Word) (s : State) : (returnData d s).outLen = s.outLen := rfl
@[simp] theorem returnData_phase (d : Option Word) (s : State) : (returnData d s).phase = s.phase := rfl
@[simp] theorem returnData_mem (d : Option Word) (s : State) : (returnData d s).mem = s.mem := rfl
@[simp] theorem returnData_dirty (d : Option Word) (s : State) : (returnData d s).dirty = s.dirty := rfl
@[simp] theorem returnData_stale (d : Option Word) (s : State) : (returnData d s).stale = s.stale := rfl
@[simp] theorem returnData_busData (d : Option Word) (s : State) : (returnData d s).busData = d := rfl
@[simp] theorem returnData_cfg (d : Option Word) (s : State) : (returnData d s).cfg = s.cfg := rfl
@[simp] theorem returnData_agenda (d : Option Word) (s : State) : (returnData d s).agenda = s.agenda := rfl
@[simp] theorem returnData_fresh (d : Option Word) (s : State) : (returnData d s).fresh = s.fresh := rfl

/-! ### `statusWrite` -/

@[simp] theorem statusWrite_ready (v : Word) (s : State) : (statusWrite v s).ready = s.ready := rfl
@[simp] theorem statusWrite_done (v : Word) (s : State) : (statusWrite v s).done = (s.done && !v.getLsbD 2) := rfl
@[simp] theorem statusWrite_overrun (v : Word) (s : State) : (statusWrite v s).overrun = (s.overrun && !v.getLsbD 3) := rfl
@[simp] theorem statusWrite_result (v : Word) (s : State) : (statusWrite v s).result = s.result := rfl
@[simp] theorem statusWrite_ie (v : Word) (s : State) : (statusWrite v s).ie = s.ie := rfl
@[simp] theorem statusWrite_width (v : Word) (s : State) : (statusWrite v s).width = s.width := rfl
@[simp] theorem statusWrite_height (v : Word) (s : State) : (statusWrite v s).height = s.height := rfl
@[simp] theorem statusWrite_inBase (v : Word) (s : State) : (statusWrite v s).inBase = s.inBase := rfl
@[simp] theorem statusWrite_inLen (v : Word) (s : State) : (statusWrite v s).inLen = s.inLen := rfl
@[simp] theorem statusWrite_outBase (v : Word) (s : State) : (statusWrite v s).outBase = s.outBase := rfl
@[simp] theorem statusWrite_outLen (v : Word) (s : State) : (statusWrite v s).outLen = s.outLen := rfl
@[simp] theorem statusWrite_phase (v : Word) (s : State) : (statusWrite v s).phase = s.phase := rfl
@[simp] theorem statusWrite_mem (v : Word) (s : State) : (statusWrite v s).mem = s.mem := rfl
@[simp] theorem statusWrite_dirty (v : Word) (s : State) : (statusWrite v s).dirty = s.dirty := rfl
@[simp] theorem statusWrite_stale (v : Word) (s : State) : (statusWrite v s).stale = s.stale := rfl
@[simp] theorem statusWrite_busData (v : Word) (s : State) : (statusWrite v s).busData = s.busData := rfl
@[simp] theorem statusWrite_cfg (v : Word) (s : State) : (statusWrite v s).cfg = s.cfg := rfl
@[simp] theorem statusWrite_agenda (v : Word) (s : State) : (statusWrite v s).agenda = s.agenda := rfl
@[simp] theorem statusWrite_fresh (v : Word) (s : State) : (statusWrite v s).fresh = s.fresh := rfl

/-! ### `startJob` -/

@[simp] theorem startJob_ready (s : State) : (startJob s).ready = s.ready := rfl
@[simp] theorem startJob_done (s : State) : (startJob s).done = s.done := rfl
@[simp] theorem startJob_overrun (s : State) : (startJob s).overrun = s.overrun := rfl
@[simp] theorem startJob_result (s : State) : (startJob s).result = s.result := rfl
@[simp] theorem startJob_ie (s : State) : (startJob s).ie = s.ie := rfl
@[simp] theorem startJob_width (s : State) : (startJob s).width = s.width := rfl
@[simp] theorem startJob_height (s : State) : (startJob s).height = s.height := rfl
@[simp] theorem startJob_inBase (s : State) : (startJob s).inBase = s.inBase := rfl
@[simp] theorem startJob_inLen (s : State) : (startJob s).inLen = s.inLen := rfl
@[simp] theorem startJob_outBase (s : State) : (startJob s).outBase = s.outBase := rfl
@[simp] theorem startJob_outLen (s : State) : (startJob s).outLen = s.outLen := rfl
@[simp] theorem startJob_phase (s : State) : (startJob s).phase = .run (latchJob s) := rfl
@[simp] theorem startJob_mem (s : State) : (startJob s).mem = s.mem := rfl
@[simp] theorem startJob_dirty (s : State) : (startJob s).dirty = s.dirty := rfl
@[simp] theorem startJob_stale (s : State) : (startJob s).stale = s.stale := rfl
@[simp] theorem startJob_busData (s : State) : (startJob s).busData = s.busData := rfl
@[simp] theorem startJob_cfg (s : State) : (startJob s).cfg = s.cfg := rfl
@[simp] theorem startJob_agenda (s : State) : (startJob s).agenda = s.agenda := rfl
@[simp] theorem startJob_fresh (s : State) : (startJob s).fresh = s.fresh + 1 := rfl

/-! ### `cacheInvalidate` -/

@[simp] theorem cacheInvalidate_ready (s : State) : (cacheInvalidate s).ready = s.ready := rfl
@[simp] theorem cacheInvalidate_done (s : State) : (cacheInvalidate s).done = s.done := rfl
@[simp] theorem cacheInvalidate_overrun (s : State) : (cacheInvalidate s).overrun = s.overrun := rfl
@[simp] theorem cacheInvalidate_result (s : State) : (cacheInvalidate s).result = s.result := rfl
@[simp] theorem cacheInvalidate_ie (s : State) : (cacheInvalidate s).ie = s.ie := rfl
@[simp] theorem cacheInvalidate_width (s : State) : (cacheInvalidate s).width = s.width := rfl
@[simp] theorem cacheInvalidate_height (s : State) : (cacheInvalidate s).height = s.height := rfl
@[simp] theorem cacheInvalidate_inBase (s : State) : (cacheInvalidate s).inBase = s.inBase := rfl
@[simp] theorem cacheInvalidate_inLen (s : State) : (cacheInvalidate s).inLen = s.inLen := rfl
@[simp] theorem cacheInvalidate_outBase (s : State) : (cacheInvalidate s).outBase = s.outBase := rfl
@[simp] theorem cacheInvalidate_outLen (s : State) : (cacheInvalidate s).outLen = s.outLen := rfl
@[simp] theorem cacheInvalidate_phase (s : State) : (cacheInvalidate s).phase = s.phase := rfl
@[simp] theorem cacheInvalidate_mem (s : State) : (cacheInvalidate s).mem = s.mem := rfl
@[simp] theorem cacheInvalidate_dirty (s : State) : (cacheInvalidate s).dirty = s.dirty := rfl
@[simp] theorem cacheInvalidate_stale (s : State) : (cacheInvalidate s).stale = [] := rfl
@[simp] theorem cacheInvalidate_busData (s : State) : (cacheInvalidate s).busData = s.busData := rfl
@[simp] theorem cacheInvalidate_cfg (s : State) : (cacheInvalidate s).cfg = s.cfg := rfl
@[simp] theorem cacheInvalidate_agenda (s : State) : (cacheInvalidate s).agenda = s.agenda := rfl
@[simp] theorem cacheInvalidate_fresh (s : State) : (cacheInvalidate s).fresh = s.fresh := rfl

/-! ### `cacheClean` -/

@[simp] theorem cacheClean_ready (s : State) : (cacheClean s).ready = s.ready := rfl
@[simp] theorem cacheClean_done (s : State) : (cacheClean s).done = s.done := rfl
@[simp] theorem cacheClean_overrun (s : State) : (cacheClean s).overrun = s.overrun := rfl
@[simp] theorem cacheClean_result (s : State) : (cacheClean s).result = s.result := rfl
@[simp] theorem cacheClean_ie (s : State) : (cacheClean s).ie = s.ie := rfl
@[simp] theorem cacheClean_width (s : State) : (cacheClean s).width = s.width := rfl
@[simp] theorem cacheClean_height (s : State) : (cacheClean s).height = s.height := rfl
@[simp] theorem cacheClean_inBase (s : State) : (cacheClean s).inBase = s.inBase := rfl
@[simp] theorem cacheClean_inLen (s : State) : (cacheClean s).inLen = s.inLen := rfl
@[simp] theorem cacheClean_outBase (s : State) : (cacheClean s).outBase = s.outBase := rfl
@[simp] theorem cacheClean_outLen (s : State) : (cacheClean s).outLen = s.outLen := rfl
@[simp] theorem cacheClean_phase (s : State) : (cacheClean s).phase = s.phase := rfl
@[simp] theorem cacheClean_mem (s : State) : (cacheClean s).mem = s.mem := rfl
@[simp] theorem cacheClean_dirty (s : State) : (cacheClean s).dirty = [] := rfl
@[simp] theorem cacheClean_stale (s : State) : (cacheClean s).stale = s.stale := rfl
@[simp] theorem cacheClean_busData (s : State) : (cacheClean s).busData = s.busData := rfl
@[simp] theorem cacheClean_cfg (s : State) : (cacheClean s).cfg = s.cfg := rfl
@[simp] theorem cacheClean_agenda (s : State) : (cacheClean s).agenda = s.agenda := rfl
@[simp] theorem cacheClean_fresh (s : State) : (cacheClean s).fresh = s.fresh := rfl

/-! ### `resetRegisters` -/

@[simp] theorem resetRegisters_ready (s : State) : (resetRegisters s).ready = false := rfl
@[simp] theorem resetRegisters_done (s : State) : (resetRegisters s).done = false := rfl
@[simp] theorem resetRegisters_overrun (s : State) : (resetRegisters s).overrun = false := rfl
@[simp] theorem resetRegisters_result (s : State) : (resetRegisters s).result = .none := rfl
@[simp] theorem resetRegisters_ie (s : State) : (resetRegisters s).ie = false := rfl
@[simp] theorem resetRegisters_width (s : State) : (resetRegisters s).width = 0#16 := rfl
@[simp] theorem resetRegisters_height (s : State) : (resetRegisters s).height = 0#16 := rfl
@[simp] theorem resetRegisters_inBase (s : State) : (resetRegisters s).inBase = 0#32 := rfl
@[simp] theorem resetRegisters_inLen (s : State) : (resetRegisters s).inLen = 0#32 := rfl
@[simp] theorem resetRegisters_outBase (s : State) : (resetRegisters s).outBase = 0#30 := rfl
@[simp] theorem resetRegisters_outLen (s : State) : (resetRegisters s).outLen = 0#32 := rfl
@[simp] theorem resetRegisters_phase (s : State) : (resetRegisters s).phase = .idle := rfl
@[simp] theorem resetRegisters_mem (s : State) : (resetRegisters s).mem = s.mem := rfl
@[simp] theorem resetRegisters_dirty (s : State) : (resetRegisters s).dirty = s.dirty := rfl
@[simp] theorem resetRegisters_stale (s : State) : (resetRegisters s).stale = s.stale := rfl
@[simp] theorem resetRegisters_busData (s : State) : (resetRegisters s).busData = s.busData := rfl
@[simp] theorem resetRegisters_cfg (s : State) : (resetRegisters s).cfg = s.cfg := rfl
@[simp] theorem resetRegisters_agenda (s : State) : (resetRegisters s).agenda = s.agenda := rfl
@[simp] theorem resetRegisters_fresh (s : State) : (resetRegisters s).fresh = s.fresh := rfl

/-! ### `State.withFetchWord` -/

@[simp] theorem withFetchWord_ready (s : State) (nbits w : Nat) : (s.withFetchWord nbits w).ready = s.ready := rfl
@[simp] theorem withFetchWord_done (s : State) (nbits w : Nat) : (s.withFetchWord nbits w).done = s.done := rfl
@[simp] theorem withFetchWord_overrun (s : State) (nbits w : Nat) : (s.withFetchWord nbits w).overrun = s.overrun := rfl
@[simp] theorem withFetchWord_result (s : State) (nbits w : Nat) : (s.withFetchWord nbits w).result = s.result := rfl
@[simp] theorem withFetchWord_ie (s : State) (nbits w : Nat) : (s.withFetchWord nbits w).ie = s.ie := rfl
@[simp] theorem withFetchWord_width (s : State) (nbits w : Nat) : (s.withFetchWord nbits w).width = s.width := rfl
@[simp] theorem withFetchWord_height (s : State) (nbits w : Nat) : (s.withFetchWord nbits w).height = s.height := rfl
@[simp] theorem withFetchWord_inBase (s : State) (nbits w : Nat) : (s.withFetchWord nbits w).inBase = s.inBase := rfl
@[simp] theorem withFetchWord_inLen (s : State) (nbits w : Nat) : (s.withFetchWord nbits w).inLen = s.inLen := rfl
@[simp] theorem withFetchWord_outBase (s : State) (nbits w : Nat) : (s.withFetchWord nbits w).outBase = s.outBase := rfl
@[simp] theorem withFetchWord_outLen (s : State) (nbits w : Nat) : (s.withFetchWord nbits w).outLen = s.outLen := rfl
@[simp] theorem withFetchWord_phase (s : State) (nbits w : Nat) : (s.withFetchWord nbits w).phase = s.phase := rfl
@[simp] theorem withFetchWord_mem (s : State) (nbits w : Nat) : (s.withFetchWord nbits w).mem = s.mem := rfl
@[simp] theorem withFetchWord_dirty (s : State) (nbits w : Nat) : (s.withFetchWord nbits w).dirty = s.dirty := rfl
@[simp] theorem withFetchWord_stale (s : State) (nbits w : Nat) : (s.withFetchWord nbits w).stale = s.stale := rfl
@[simp] theorem withFetchWord_busData (s : State) (nbits w : Nat) : (s.withFetchWord nbits w).busData = s.busData := rfl
@[simp] theorem withFetchWord_cfg (s : State) (nbits w : Nat) : (s.withFetchWord nbits w).cfg = s.cfg := rfl
@[simp] theorem withFetchWord_agenda (s : State) (nbits w : Nat) : (s.withFetchWord nbits w).agenda = wr .cmd (tableWord nbits w) :: s.agenda := rfl
@[simp] theorem withFetchWord_fresh (s : State) (nbits w : Nat) : (s.withFetchWord nbits w).fresh = s.fresh := rfl

/-! ### Shared readings of a state -/

@[simp] theorem busy_of_idle (s : State) (h : s.phase = .idle) : busy s = false := by simp [busy, h]
@[simp] theorem busy_of_run (s : State) (j : Job) (h : s.phase = .run j) : busy s = true := by simp [busy, h]

theorem busy_iff (s : State) : busy s = true ↔ ∃ j, s.phase = .run j := by
  cases h : s.phase <;> simp [busy, h]

end Sys2Proof.Machine
end

