-- ==== Sys2Proof/Laws/Ops.lean ====
section
/-! SUPPORT. What each shared operation can do, said once. -/

namespace Sys2Proof.Machine

/-! ### Operands and STATUS -/

theorem opOutBase_toNat (s : State) : (opOutBase s).toNat = 4 * s.outBase.toNat := by
  have := s.outBase.isLt
  simp only [opOutBase, BitVec.toNat_shiftLeft, BitVec.toNat_setWidth, Nat.shiftLeft_eq]
  omega

theorem frameIn_eq (s : State) : frameIn s = needIn s.cfg.variant s.width.toNat s.height.toNat := by
  unfold frameIn needIn
  cases s.cfg.variant <;> simp

theorem needIn_pos (v : Variant) {w h : Nat} (hw : 0 < w) (hh : 0 < h) : 0 < needIn v w h := by
  cases v with
  | vision => exact Nat.mul_pos hw (by omega)
  | fallback => exact Nat.mul_pos hw hh

/-- The checks of PROCESS do not look at DONE. -/
@[simp] theorem processCheck_clearDone (s : State) : processCheck (clearDone s) = processCheck s := rfl

/-- The checks of PROCESS, in the words of `Safety` (R105). -/
theorem processCheck_eq (s : State) :
    processCheck s =
      if s.ready = false then some .errNotInit
      else if s.width.toNat = 0 ∨ s.height.toNat = 0 then some .errDim
      else if s.width.toNat > s.cfg.maxWidth ∨ s.height.toNat > s.cfg.maxHeight then some .errDim
      else if s.cfg.variant = .vision ∧ (s.width.toNat % 2 ≠ 0 ∨ s.height.toNat % 2 ≠ 0) then some .errDim
      else if frameIn s > s.inLen.toNat ∨ frameSlots s > s.outLen.toNat then some .errBounds
      else if s.inBase.toNat + frameIn s > 2 ^ 32 ∨ frameOut s + 4 * frameSlots s > 2 ^ 32 then some .errBounds
      else if s.inBase.toNat < frameOut s + 4 * frameSlots s ∧ frameOut s < s.inBase.toNat + frameIn s then
        some .errOverlap
      else none := by
  simp only [frameIn_eq, frameOut, ← opOutBase_toNat]
  rfl

/-- A PROCESS that fails a check records its code and DONE, nothing else (R205). -/
theorem processEffect_failed {s : State} {code : ResultCode} (h : processCheck s = some code) :
    processEffect s = { s with result := code, done := true } := by
  unfold processEffect
  rw [processCheck_clearDone, h]
  rfl

/-- A PROCESS that passes every check starts its job (R105). -/
theorem processEffect_passed {s : State} (h : processCheck s = none) : processEffect s = startJob (clearDone s) := by
  unfold processEffect
  rw [processCheck_clearDone, h]

/-- STATUS depends on its fields only, so a fact about it is a fact about finitely many values. -/
theorem statusWord_fields (s : State) :
    statusWord s = 0#23 ++ variantBit s.cfg.variant ++ resultCode s.result ++ BitVec.ofBool s.overrun
      ++ BitVec.ofBool s.done ++ BitVec.ofBool (busy s) ++ BitVec.ofBool s.ready := rfl

/-! ### `rangeOk` -/

theorem rangeOk_iff (c : Config) (a n : Nat) : rangeOk c a n = true ↔ ∀ k, k < n → memOk c (a + k) = true := by
  simp [rangeOk, List.all_eq_true]

theorem hitsDevice_false_iff (c : Config) (a n : Nat) :
    hitsDevice c a n = false ↔ ∀ k, k < n → isDevice c (a + k) = false := by
  simp [hitsDevice, List.any_eq_false]

/-! ### Reads -/

/-- With a coherent port the host sees memory as it stands. -/
theorem hostSees_coherent (s : State) (a : Nat) (hc : s.cfg.coherent = true) : hostSees s a = Memory.read s.mem a := by
  unfold hostSees
  split
  · rfl
  · split
    · rfl
    · simp [hc]

/-- While the block is idle the host sees memory as it stands. -/
theorem hostSees_idle (s : State) (a : Nat) (h : s.phase = .idle) : hostSees s a = Memory.read s.mem a := by
  simp [hostSees, h]

/-- With a coherent port, idempotent memory reads as it stands, for the engine and for the host. -/
theorem readByte_coherent (s : State) (a : Nat) (hc : s.cfg.coherent = true) (hd : isDevice s.cfg a = false) :
    engineReadByte s a = Memory.read s.mem a ∧ hostReadByte s a = Memory.read s.mem a := by
  simp [engineReadByte, hostReadByte, hostSees_coherent, hc, hd]

/-- A byte address inside slot `i` belongs to slot `i`. -/
theorem slotAtAddr_slot (j : Job) {i k : Nat} (hi : i < jobSlots j) (hk : k < 4) :
    slotAtAddr j (slotAddr j i + k) = some i := by
  unfold slotAtAddr slotAddr
  rw [if_pos (by omega)]
  congr 1
  omega

/-- Through a port that is not coherent, a host without a stale copy of a slot of the running job sees the whole slot as
it was at acceptance or the whole slot as it stands, one of the two for all four bytes (R58, R61 item 3). -/
theorem hostSees_slot (s : State) (j : Job) {i : Nat} (hp : s.phase = .run j) (hc : s.cfg.coherent = false)
    (hi : i < jobSlots j) :
    (∀ k, k < 4 → hostSees s (slotAddr j i + k) = wordByte (j.old.getD i 0#32) k) ∨
      ∀ k, k < 4 → hostSees s (slotAddr j i + k) = Memory.read s.mem (slotAddr j i + k) := by
  cases hs : Config.seesOld s.fresh i with
  | true =>
    refine .inl fun k hk => ?_
    simp [hostSees, hp, slotAtAddr_slot j hi hk, hc, hs]
  | false =>
    refine .inr fun k hk => ?_
    simp [hostSees, hp, slotAtAddr_slot j hi hk, hc, hs]

/-! ### Stores: only memory changes, and only at the bytes stored -/

/-- A byte store changes memory and nothing else. -/
theorem storeByte_eq (a : Nat) (b : Byte) (s : State) :
    storeByte a b s = { s with mem := if memOk s.cfg a then Memory.write s.mem a b else s.mem } := by
  unfold storeByte
  split <;> simp [*]

theorem storeByte_cfg (a : Nat) (b : Byte) (s : State) : (storeByte a b s).cfg = s.cfg := by
  simp [storeByte_eq]

theorem storeByte_wf (a : Nat) (b : Byte) (s : State) (h : Memory.wf s.mem = true) (ha : a < 2 ^ 32) :
    Memory.wf (storeByte a b s).mem = true := by
  rw [storeByte_eq]
  by_cases hm : memOk s.cfg a = true
  · simpa [hm] using Memory.wf_write s.mem a b h ha
  · simpa [hm] using h

theorem storeByte_read_other (a x : Nat) (b : Byte) (s : State) (h : Memory.wf s.mem = true) (hx : x ≠ a) :
    Memory.read (storeByte a b s).mem x = Memory.read s.mem x := by
  rw [storeByte_eq]
  by_cases hm : memOk s.cfg a = true
  · simpa [hm] using Memory.read_write_other s.mem a x b h hx
  · simp [hm]

theorem storeByte_read_same (a : Nat) (b : Byte) (s : State) (h : Memory.wf s.mem = true)
    (hm : memOk s.cfg a = true) : Memory.read (storeByte a b s).mem a = b := by
  rw [storeByte_eq]
  simpa [hm] using Memory.read_write_same s.mem a b h

/-- A word store changes memory and nothing else. -/
theorem storeWord_eq (a : Nat) (v : Word) (s : State) :
    storeWord a v s = { s with mem := (storeWord a v s).mem } := by
  simp [storeWord, storeByte_eq]

theorem storeWord_wf (a : Nat) (v : Word) (s : State) (h : Memory.wf s.mem = true) (ha : a + 4 ≤ 2 ^ 32) :
    Memory.wf (storeWord a v s).mem = true := by
  unfold storeWord
  refine storeByte_wf _ _ _ (storeByte_wf _ _ _ (storeByte_wf _ _ _ (storeByte_wf _ _ _ h ?_) ?_) ?_) ?_ <;> omega

/-- A word store leaves every other byte alone. -/
theorem storeWord_read_other (a x : Nat) (v : Word) (s : State) (h : Memory.wf s.mem = true) (ha : a + 4 ≤ 2 ^ 32)
    (hx : ¬ (a ≤ x ∧ x < a + 4)) : Memory.read (storeWord a v s).mem x = Memory.read s.mem x := by
  have h0 := storeByte_wf a (wordByte v 0) s h (by omega)
  have h1 := storeByte_wf (a + 1) (wordByte v 1) _ h0 (by omega)
  have h2 := storeByte_wf (a + 2) (wordByte v 2) _ h1 (by omega)
  unfold storeWord
  rw [storeByte_read_other _ _ _ _ h2 (by omega), storeByte_read_other _ _ _ _ h1 (by omega),
    storeByte_read_other _ _ _ _ h0 (by omega), storeByte_read_other _ _ _ _ h (by omega)]

/-- Where the platform answers, the stored bytes are the word's, the low byte first (R53). -/
theorem storeWord_read_byte (a k : Nat) (v : Word) (s : State) (h : Memory.wf s.mem = true) (ha : a + 4 ≤ 2 ^ 32)
    (hk : k < 4) (hm : rangeOk s.cfg a 4 = true) : Memory.read (storeWord a v s).mem (a + k) = wordByte v k := by
  have h0 := storeByte_wf a (wordByte v 0) s h (by omega)
  have h1 := storeByte_wf (a + 1) (wordByte v 1) _ h0 (by omega)
  have h2 := storeByte_wf (a + 2) (wordByte v 2) _ h1 (by omega)
  have hok := (rangeOk_iff _ _ _).1 hm
  have c0 : (storeByte a (wordByte v 0) s).cfg = s.cfg := storeByte_cfg _ _ _
  have c1 : (storeByte (a + 1) (wordByte v 1) (storeByte a (wordByte v 0) s)).cfg = s.cfg := by
    rw [storeByte_cfg, c0]
  have c2 : (storeByte (a + 2) (wordByte v 2)
      (storeByte (a + 1) (wordByte v 1) (storeByte a (wordByte v 0) s))).cfg = s.cfg := by
    rw [storeByte_cfg, c1]
  have m0 : memOk s.cfg a = true := hok 0 (by omega)
  have m1 : memOk s.cfg (a + 1) = true := hok 1 (by omega)
  have m2 : memOk s.cfg (a + 2) = true := hok 2 (by omega)
  have m3 : memOk s.cfg (a + 3) = true := hok 3 (by omega)
  unfold storeWord
  obtain rfl | rfl | rfl | rfl : k = 0 ∨ k = 1 ∨ k = 2 ∨ k = 3 := by omega
  · rw [storeByte_read_other _ _ _ _ h2 (by omega), storeByte_read_other _ _ _ _ h1 (by omega),
      storeByte_read_other _ _ _ _ h0 (by omega)]
    exact storeByte_read_same _ _ _ h m0
  · rw [storeByte_read_other _ _ _ _ h2 (by omega), storeByte_read_other _ _ _ _ h1 (by omega)]
    exact storeByte_read_same _ _ _ h0 (c0 ▸ m1)
  · rw [storeByte_read_other _ _ _ _ h2 (by omega)]
    exact storeByte_read_same _ _ _ h1 (c1 ▸ m2)
  · exact storeByte_read_same _ _ _ h2 (c2 ▸ m3)

/-- The four bytes of a word, put together again. -/
theorem word_of_bytes (v : Word) : (wordByte v 3 ++ wordByte v 2 ++ wordByte v 1 ++ wordByte v 0 : Word) = v := by
  have h3 : wordByte v 3 ++ wordByte v 2 = v.extractLsb' 16 16 :=
    BitVec.extractLsb'_append_extractLsb'_eq_extractLsb' (by decide)
  have h2 : v.extractLsb' 16 16 ++ wordByte v 1 = v.extractLsb' 8 24 :=
    BitVec.extractLsb'_append_extractLsb'_eq_extractLsb' (by decide)
  have h1 : v.extractLsb' 8 24 ++ wordByte v 0 = v.extractLsb' 0 32 :=
    BitVec.extractLsb'_append_extractLsb'_eq_extractLsb' (by decide)
  rw [h3, h2, h1]
  simp

/-- Where the platform answers, a word read back is the word stored. -/
theorem storeWord_readWord (a : Nat) (v : Word) (s : State) (h : Memory.wf s.mem = true) (ha : a + 4 ≤ 2 ^ 32)
    (hm : rangeOk s.cfg a 4 = true) : Memory.readWord (storeWord a v s).mem a = v := by
  have hb := fun k hk => storeWord_read_byte a k v s h ha hk hm
  have h0 := hb 0 (by omega)
  rw [Nat.add_zero] at h0
  unfold Memory.readWord
  rw [hb 3 (by omega), hb 2 (by omega), hb 1 (by omega), h0]
  exact word_of_bytes v

/-! ### Cache marks: only `dirty` and `stale` change -/

theorem markDirty_eq (a n : Nat) (s : State) :
    markDirty a n s = { s with dirty := (markDirty a n s).dirty, stale := (markDirty a n s).stale } := by
  unfold markDirty
  split <;> rfl

theorem overwriteDirty_eq (a n : Nat) (s : State) :
    overwriteDirty a n s = { s with dirty := (overwriteDirty a n s).dirty } := by
  unfold overwriteDirty
  split <;> rfl

theorem addStale_eq (a n : Nat) (s : State) : addStale a n s = { s with stale := (addStale a n s).stale } := by
  unfold addStale
  split <;> rfl

theorem mem_addAddr {l : List Nat} {a x : Nat} : x ∈ addAddr l a ↔ x = a ∨ x ∈ l := by
  unfold addAddr
  split
  · rename_i h
    have ha : a ∈ l := by simpa using h
    constructor
    · exact .inr
    · rintro (rfl | hx)
      · exact ha
      · exact hx
  · simp

/-- With a coherent port nothing becomes stale; with another exactly the given bytes do. -/
theorem mem_addStale (a n x : Nat) (s : State) :
    x ∈ (addStale a n s).stale ↔ x ∈ s.stale ∨ (s.cfg.coherent = false ∧ a ≤ x ∧ x < a + n) := by
  have key : ∀ (l m : List Nat), x ∈ l.foldl addAddr m ↔ x ∈ m ∨ x ∈ l := by
    intro l
    induction l with
    | nil => simp
    | cons b l ih =>
      intro m
      rw [List.foldl_cons, ih, mem_addAddr, List.mem_cons]
      tauto
  unfold addStale
  cases hc : s.cfg.coherent with
  | true => simp
  | false =>
    simp only [Bool.false_eq_true, if_false, key, List.mem_map, List.mem_range, true_and]
    constructor
    · rintro (h | ⟨k, hk, rfl⟩)
      · exact .inl h
      · exact .inr ⟨by omega, by omega⟩
    · rintro (h | ⟨h1, h2⟩)
      · exact .inl h
      · exact .inr ⟨x - a, by omega, by omega⟩

/-! ### Acceptance -/

@[simp] theorem acceptCommand_idle (f : State → State) (s : State) (h : s.phase = .idle) : acceptCommand f s = f s := by
  simp [acceptCommand, h]

@[simp] theorem acceptCommand_run (f : State → State) (s : State) (j : Job) (h : s.phase = .run j) :
    acceptCommand f s = dropCommand s := by
  simp [acceptCommand, h]

end Sys2Proof.Machine
end

