-- ==== Sys2Proof/Laws/Engine.lean ====
section
/-! SUPPORT. What an engine step can do (R107 to R109), said once. -/

namespace Sys2Proof.Machine

/-! ### One slot -/

/-- The engine's store of a slot changes memory and the marks of host writes not yet visible, nothing else. -/
theorem engineStore_eq (j : Job) (i : Nat) (v : Word) (s : State) :
    engineStore j i v s =
      { s with mem := (engineStore j i v s).mem, dirty := (engineStore j i v s).dirty } := by
  unfold engineStore
  rw [overwriteDirty_eq, storeWord_eq]

theorem engineStore_mem (j : Job) (i : Nat) (v : Word) (s : State) :
    (engineStore j i v s).mem = (storeWord (slotAddr j i) v s).mem := by
  unfold engineStore
  rw [overwriteDirty_eq]

theorem engineStore_wf (j : Job) (i : Nat) (v : Word) (s : State) (h : Memory.wf s.mem = true)
    (hi : slotAddr j i + 4 ≤ 2 ^ 32) : Memory.wf (engineStore j i v s).mem = true := by
  rw [engineStore_mem]
  exact storeWord_wf _ _ _ h hi

/-- Bytes outside the slot read as before. -/
theorem engineStore_read_other (j : Job) (i x : Nat) (v : Word) (s : State) (h : Memory.wf s.mem = true)
    (hi : slotAddr j i + 4 ≤ 2 ^ 32) (hx : ¬ (slotAddr j i ≤ x ∧ x < slotAddr j i + 4)) :
    Memory.read (engineStore j i v s).mem x = Memory.read s.mem x := by
  rw [engineStore_mem]
  exact storeWord_read_other _ _ _ _ h hi hx

/-- Where the platform answers, the slot holds the word written. -/
theorem engineStore_readWord (j : Job) (i : Nat) (v : Word) (s : State) (h : Memory.wf s.mem = true)
    (hi : slotAddr j i + 4 ≤ 2 ^ 32) (hm : slotOk s.cfg j i = true) :
    Memory.readWord (engineStore j i v s).mem (slotAddr j i) = v := by
  rw [engineStore_mem]
  exact storeWord_readWord _ _ _ h hi hm

/-! ### Several slots with any value -/

/-- Loosening changes memory, the marks of host writes not yet visible and the supply of free values, nothing else. -/
theorem loosenSlots_eq (j : Job) (l : List Nat) (s : State) :
    loosenSlots j l s =
      { s with mem := (loosenSlots j l s).mem, dirty := (loosenSlots j l s).dirty, fresh := s.fresh + 1 } := by
  have key : ∀ (f : Nat → Word) (l : List Nat) (t : State),
      l.foldl (fun u i => engineStore j i (f i) u) t =
        { t with mem := (l.foldl (fun u i => engineStore j i (f i) u) t).mem,
                 dirty := (l.foldl (fun u i => engineStore j i (f i) u) t).dirty } := by
    intro f l
    induction l with
    | nil => intro t; rfl
    | cons i l ih =>
      intro t
      simp only [List.foldl_cons]
      rw [ih, engineStore_eq j i (f i) t]
  unfold loosenSlots useFresh
  rw [key]

/-- Loosening keeps the canonical form and leaves every byte outside the given slots alone. -/
theorem loosenSlots_mem (j : Job) (l : List Nat) (s : State) (h : Memory.wf s.mem = true)
    (hl : ∀ i ∈ l, slotAddr j i + 4 ≤ 2 ^ 32) :
    Memory.wf (loosenSlots j l s).mem = true ∧
      ∀ x, (∀ i ∈ l, ¬ (slotAddr j i ≤ x ∧ x < slotAddr j i + 4)) →
        Memory.read (loosenSlots j l s).mem x = Memory.read s.mem x := by
  have key : ∀ (f : Nat → Word) (l : List Nat) (t : State), Memory.wf t.mem = true →
      (∀ i ∈ l, slotAddr j i + 4 ≤ 2 ^ 32) →
      Memory.wf (l.foldl (fun u i => engineStore j i (f i) u) t).mem = true ∧
        ∀ x, (∀ i ∈ l, ¬ (slotAddr j i ≤ x ∧ x < slotAddr j i + 4)) →
          Memory.read (l.foldl (fun u i => engineStore j i (f i) u) t).mem x = Memory.read t.mem x := by
    intro f l
    induction l with
    | nil => exact fun t ht _ => ⟨ht, fun _ _ => rfl⟩
    | cons i l ih =>
      intro t ht hl
      have hi := hl i (List.mem_cons_self ..)
      have hw := engineStore_wf j i (f i) t ht hi
      obtain ⟨h1, h2⟩ := ih _ hw fun k hk => hl k (List.mem_cons_of_mem _ hk)
      refine ⟨h1, fun x hx => ?_⟩
      simp only [List.foldl_cons]
      rw [h2 x fun k hk => hx k (List.mem_cons_of_mem _ hk)]
      exact engineStore_read_other j i x _ t ht hi (hx i (List.mem_cons_self ..))
  have hf : ∀ i ∈ l.filter (slotOk s.cfg j), i ∈ l := fun i hi => (List.mem_filter.1 hi).1
  obtain ⟨h1, h2⟩ := key (fun i => Config.looseWord s.fresh i) (l.filter (slotOk s.cfg j)) s h
    fun i hi => hl i (hf i hi)
  exact ⟨h1, fun x hx => h2 x fun i hi => hx i (hf i hi)⟩

/-- With no slot to loosen, memory and the marks stay as they are. -/
@[simp] theorem loosenSlots_nil (j : Job) (s : State) : loosenSlots j [] s = useFresh s := rfl

/-! ### The end of a job, seen by the host's caches -/

theorem staleOutput_eq (j : Job) (s : State) : staleOutput j s = { s with stale := (staleOutput j s).stale } :=
  addStale_eq _ _ s

/-- What becomes stale depends on the build and on what was stale before. -/
theorem staleOutput_stale (j : Job) (s : State) (m : Memory) (d : List Nat) (n : Nat) :
    (staleOutput j { s with mem := m, dirty := d, fresh := n }).stale = (staleOutput j s).stale := by
  unfold staleOutput addStale
  split <;> rfl

/-- Only bytes of the output range become stale, and only through a port that is not coherent (R60). -/
theorem mem_staleOutput (j : Job) (x : Nat) (s : State) :
    x ∈ (staleOutput j s).stale ↔
      x ∈ s.stale ∨ (s.cfg.coherent = false ∧ j.outb.toNat ≤ x ∧ x < j.outb.toNat + 4 * jobSlots j) :=
  mem_addStale ..

/-! ### Picking a slot -/

theorem pickSlot_mem {p : Nat} {l : List Nat} {i : Nat} (h : pickSlot p l = some i) : i ∈ l :=
  List.mem_of_getElem? h

theorem pickSlot_none {p : Nat} {l : List Nat} (h : pickSlot p l = none) : l = [] := by
  cases l with
  | nil => rfl
  | cons a r =>
    have hlt : p % (a :: r).length < (a :: r).length := Nat.mod_lt _ (by simp)
    rw [pickSlot, List.getElem?_eq_getElem hlt] at h
    cases h

/-! ### An engine step of a running job -/

/-- Slots of a good job lie inside the address space. -/
theorem JobInv.slot_fits {c : Config} {j : Job} (h : JobInv c j) {i : Nat} (hi : i < jobSlots j) :
    slotAddr j i + 4 ≤ 2 ^ 32 := by
  have := h.output_fits
  unfold slotAddr
  omega

/-- Every slot of a job without a bus error may be written. -/
theorem slotOk_of_clear {c : Config} {j : Job} (h : jobClear c j = true) {i : Nat} (hi : i < jobSlots j) :
    slotOk c j i = true := by
  simp only [jobClear, Bool.and_eq_true, rangeOk_iff] at h
  rw [slotOk, rangeOk_iff]
  intro k hk
  have := h.2 (4 * i + k) (by omega)
  rwa [slotAddr, Nat.add_assoc]

/-- What an engine step does while a job runs: it writes one unwritten slot, or it completes the job. -/
theorem engineStep_cases (t : EngineTurn) (j : Job) (s : State) (h : s.phase = .run j) :
    (∃ i v, i ∈ j.unwritten ∧ engineStep t s = writeSlot j i v s ∧
        (jobClear s.cfg j = true → v = slotValue j i s.fresh) ∧ (jobClear s.cfg j = false → slotOk s.cfg j i = true)) ∨
      (jobClear s.cfg j = true ∧ j.unwritten = [] ∧ engineStep t s = completeJob .ok j s) ∨
      (jobClear s.cfg j = false ∧ engineStep t s = completeJob .errBus j s) := by
  cases hc : jobClear s.cfg j with
  | true =>
    simp only [engineStep, h, hc, if_true, clearJobStep]
    cases hp : pickSlot t.pick j.unwritten with
    | none => exact .inr (.inl ⟨trivial, pickSlot_none hp, rfl⟩)
    | some i => exact .inl ⟨i, _, pickSlot_mem hp, rfl, fun _ => rfl, fun e => nomatch e⟩
  | false =>
    simp only [engineStep, h, hc, Bool.false_eq_true, if_false, faultyJobStep]
    split
    · exact .inr (.inr ⟨trivial, rfl⟩)
    · cases hp : pickSlot t.pick (j.unwritten.filter (slotOk s.cfg j)) with
      | none => exact .inr (.inr ⟨trivial, rfl⟩)
      | some i =>
        have hm := List.mem_filter.1 (pickSlot_mem hp)
        exact .inl ⟨i, _, hm.1, rfl, fun e => (nomatch e), fun _ => hm.2⟩

/-- A slot write changes the phase's job, memory, the marks of host writes not yet visible and the supply of free values,
nothing else. -/
theorem writeSlot_eq (j : Job) (i : Nat) (v : Word) (s : State) :
    writeSlot j i v s =
      { s with phase := .run { j with unwritten := j.unwritten.erase i }, mem := (writeSlot j i v s).mem,
               dirty := (writeSlot j i v s).dirty, fresh := s.fresh + 1 } := by
  unfold writeSlot
  rw [engineStore_eq]
  rfl

/-- A completion changes the phase, RESULT, DONE, memory, the cache marks and the supply of free values, nothing
else. -/
theorem completeJob_eq (code : ResultCode) (j : Job) (s : State) :
    completeJob code j s =
      { s with phase := .idle, result := code, done := true, mem := (loosenSlots j j.loose s).mem,
               dirty := (loosenSlots j j.loose s).dirty, stale := (staleOutput j s).stale, fresh := s.fresh + 1 } := by
  unfold completeJob completeWith
  rw [staleOutput_eq, loosenSlots_eq, staleOutput_stale]

end Sys2Proof.Machine
end

