-- ==== Sys2Proof/Laws/Environment.lean ====
section
/-! SUPPORT. What the host's memory accesses, other blocks and reset can do, said once. -/

namespace Sys2Proof.Machine

/-- Noticing a write to the input changes the running job's `loose` slots, nothing else (R241). -/
theorem noteInputWrite_cases (a n : Nat) (s : State) :
    noteInputWrite a n s = s ∨
      ∃ j, s.phase = .run j ∧ meetsInput s.cfg.variant j a n = true ∧
        noteInputWrite a n s = { s with phase := .run { j with loose := List.range (jobSlots j) } } := by
  unfold noteInputWrite
  split
  · exact .inl rfl
  · rename_i j hj
    split
    · exact .inr ⟨j, hj, by assumption, rfl⟩
    · exact .inl rfl

/-- Noticing a write to a slot changes the running job's `loose` slots, nothing else (R221). -/
theorem noteOverlap_cases (a : Nat) (s : State) :
    noteOverlap a s = s ∨
      ∃ j i, s.phase = .run j ∧ slotAtAddr j a = some i ∧
        noteOverlap a s = { s with phase := .run { j with loose := i :: j.loose } } := by
  unfold noteOverlap
  split
  · exact .inl rfl
  · rename_i j hj
    split
    · rename_i i hi
      exact .inr ⟨j, i, hj, hi, rfl⟩
    · exact .inl rfl

/-- A host byte store changes memory as the byte store does, the cache marks, and the running job's `loose` slots. -/
theorem hostStoreByte_eq (a : Nat) (b : Byte) (s : State) :
    hostStoreByte a b s =
      { s with mem := (storeByte a b s).mem, dirty := (hostStoreByte a b s).dirty,
               stale := (hostStoreByte a b s).stale, phase := (hostStoreByte a b s).phase } := by
  unfold hostStoreByte
  rcases noteInputWrite_cases a 1 (markDirty a 1 (storeByte a b s)) with h | ⟨j, -, -, h⟩ <;>
    rw [h, markDirty_eq, storeByte_eq]

/-- A host word store changes memory as the word store does, the cache marks, and the running job's `loose` slots. -/
theorem hostStoreWord_eq (a : Nat) (v : Word) (s : State) :
    hostStoreWord a v s =
      { s with mem := (storeWord a v s).mem, dirty := (hostStoreWord a v s).dirty,
               stale := (hostStoreWord a v s).stale, phase := (hostStoreWord a v s).phase } := by
  unfold hostStoreWord
  rcases noteInputWrite_cases a 4 (markDirty a 4 (storeWord a v s)) with h | ⟨j, -, -, h⟩ <;>
    rw [h, markDirty_eq, storeWord_eq]

/-- Another block's store changes memory, the cache marks, the running job's `loose` slots and the supply of free
values. -/
theorem otherBlockStore_eq (a : Nat) (s : State) :
    let m := storeWord a (Config.looseWord s.fresh a) s
    otherBlockStore a s =
      { s with mem := m.mem, dirty := (overwriteDirty a 4 m).dirty,
               stale := (addStale a 4 (overwriteDirty a 4 m)).stale,
               phase := (otherBlockStore a s).phase, fresh := s.fresh + 1 } := by
  have key : ∀ u : State,
      noteOverlap a (noteInputWrite a 4 u) = { u with phase := (noteOverlap a (noteInputWrite a 4 u)).phase } := by
    intro u
    rcases noteOverlap_cases a (noteInputWrite a 4 u) with h | ⟨j, i, -, -, h⟩ <;>
      rcases noteInputWrite_cases a 4 u with g | ⟨k, -, -, g⟩ <;>
        rw [h, g]
  intro m
  have hm : m = { s with mem := m.mem } := storeWord_eq a _ s
  have ho := overwriteDirty_eq a 4 m
  have ha := addStale_eq a 4 (overwriteDirty a 4 m)
  have h := key (useFresh (addStale a 4 (overwriteDirty a 4 m)))
  change otherBlockStore a s =
    { useFresh (addStale a 4 (overwriteDirty a 4 m)) with phase := (otherBlockStore a s).phase } at h
  generalize (otherBlockStore a s).phase = p at h ⊢
  rw [h]
  generalize (addStale a 4 (overwriteDirty a 4 m)).stale = x at ha ⊢
  rw [ha]
  generalize (overwriteDirty a 4 m).dirty = y at ho ⊢
  rw [ho]
  generalize m.mem = z at hm ⊢
  rw [hm]
  rfl

/-- Abandoning a job changes memory, the cache marks and the supply of free values, nothing else (R231). -/
theorem abandonJob_eq (s : State) :
    abandonJob s =
      { s with mem := (abandonJob s).mem, dirty := (abandonJob s).dirty, stale := (abandonJob s).stale,
               fresh := (abandonJob s).fresh } := by
  unfold abandonJob
  split
  · rfl
  · rw [staleOutput_eq, loosenSlots_eq]

end Sys2Proof.Machine
end

