-- ==== Sys2Proof/Laws/Image.lean ====
section
/-! SUPPORT. Images: what `tabulate` and `pixel` do together (R11), and the border functions. -/

namespace Sys2Proof.Machine

@[simp] theorem tabulate_w {α : Type} (w h : Nat) (f : Nat → Nat → α) : (tabulate w h f).w = w := rfl

@[simp] theorem tabulate_h {α : Type} (w h : Nat) (f : Nat → Nat → α) : (tabulate w h f).h = h := rfl

@[simp] theorem tabulate_length {α : Type} (w h : Nat) (f : Nat → Nat → α) : (tabulate w h f).px.length = w * h := by
  simp [tabulate]

/-- Position (x, y) lies at index `y*w + x` (R11). -/
theorem index_lt {w h x y : Nat} (hx : x < w) (hy : y < h) : y * w + x < w * h := by
  calc y * w + x < y * w + w := by omega
    _ = (y + 1) * w := by ring
    _ ≤ h * w := Nat.mul_le_mul_right _ hy
    _ = w * h := Nat.mul_comm ..

theorem index_mod {w x y : Nat} (hx : x < w) : (y * w + x) % w = x := by
  rw [Nat.add_comm, Nat.add_mul_mod_self_right, Nat.mod_eq_of_lt hx]

theorem index_div {w x y : Nat} (hx : x < w) : (y * w + x) / w = y := by
  rw [Nat.add_comm, Nat.add_mul_div_right _ _ (by omega), Nat.div_eq_of_lt hx, Nat.zero_add]

/-- Inside the image a pixel is the function's value there. -/
theorem pixel_tabulate {α : Type} [Inhabited α] {w h x y : Nat} (f : Nat → Nat → α) (hx : x < w) (hy : y < h) :
    pixel (tabulate w h f) x y = f x y := by
  have hi := index_lt hx hy
  simp [pixel, tabulate, List.getD_eq_getElem?_getD, List.getElem?_map, List.getElem?_range hi, index_mod hx,
    index_div hx]

/-- A slot's value is the pixel at its position. -/
theorem px_tabulate_getD {α : Type} (w h i : Nat) (f : Nat → Nat → α) (d : α) (hi : i < w * h) :
    (tabulate w h f).px.getD i d = f (i % w) (i / w) := by
  simp [tabulate, List.getD_eq_getElem?_getD, List.getElem?_map, List.getElem?_range hi]

theorem mem_tabulate {α : Type} {w h : Nat} {f : Nat → Nat → α} {v : α} (hv : v ∈ (tabulate w h f).px) :
    ∃ x y, v = f x y := by
  simp only [tabulate, List.mem_map] at hv
  obtain ⟨i, -, rfl⟩ := hv
  exact ⟨_, _, rfl⟩

/-- Two images are equal when their values agree at every position inside. -/
theorem tabulate_congr {α : Type} {w h : Nat} {f g : Nat → Nat → α}
    (hfg : ∀ x y, x < w → y < h → f x y = g x y) : tabulate w h f = tabulate w h g := by
  unfold tabulate
  congr 1
  apply List.map_congr_left
  intro i hi
  have hi := List.mem_range.1 hi
  have hw : 0 < w := by
    rcases Nat.eq_zero_or_pos w with h | h
    · simp [h] at hi
    · exact h
  refine hfg _ _ (Nat.mod_lt _ hw) ?_
  rw [Nat.div_lt_iff_lt_mul hw, Nat.mul_comm]
  exact hi

/-- Listing an image's values by index is reading its pixels in row-major order (R11). -/
theorem pixel_index {α : Type} [Inhabited α] (img : Image α) (i : Nat) :
    pixel img (i % img.w) (i / img.w) = img.px.getD i default := by
  unfold pixel
  rw [Nat.mul_comm, Nat.div_add_mod]

/-- A pixel is at most what every listed value is at most. -/
theorem pixel_le {m : Nat} {img : Image Nat} (h : ImageLe m img) (x y : Nat) : pixel img x y ≤ m := by
  unfold pixel
  rw [List.getD_eq_getElem?_getD]
  cases hg : img.px[y * img.w + x]? with
  | none => exact Nat.zero_le _
  | some v => exact h v (List.mem_of_getElem? hg)

theorem inside_iff {α : Type} (img : Image α) (x y : Int) :
    inside img x y = true ↔ 0 ≤ x ∧ x < img.w ∧ 0 ≤ y ∧ y < img.h := by
  simp [inside, and_assoc]

theorem clampIdx_lt (p : Int) (n : Nat) (hn : 0 < n) : clampIdx p n < n := by
  unfold clampIdx
  omega

end Sys2Proof.Machine
end

