-- ==== Sys2Proof/Laws/PerInstr.lean ====
section
/-! SUPPORT. What holds of every command as syntax, one lemma per command. -/

namespace Sys2Proof.Laws.ReservedBitsZero

/-- R71: the word of a well-formed command has RSVD, bits 31:4, all zero, and its OPC below 4. -/
def Statement (i : Instr) : Prop :=
  i.wf = true → rsvdField (encode i) = 0#28 ∧ (opcField (encode i)).toNat < 4

theorem nop : Statement .nop := by
  unfold Statement
  decide

theorem init : Statement .init := by
  unfold Statement
  decide

theorem cleanup : Statement .cleanup := by
  unfold Statement
  decide

theorem process : Statement .process := by
  unfold Statement
  decide

end Sys2Proof.Laws.ReservedBitsZero
end

