-- ==== Sys2Proof/Laws/Pipeline.lean ====
section
/-! SUPPORT. The dimensions of every stage's image, and the values of the edge image. -/

namespace Sys2Proof.Machine

/-! ### Dimensions: no stage changes them -/

@[simp] theorem nv21ToRgb_w (input : List Byte) (w h : Nat) : (nv21ToRgb input w h).w = w := rfl

@[simp] theorem nv21ToRgb_h (input : List Byte) (w h : Nat) : (nv21ToRgb input w h).h = h := rfl

@[simp] theorem resize_eq (img : Image Rgb) : resize img = img := rfl

@[simp] theorem grayImage_w (img : Image Rgb) : (grayImage img).w = img.w := rfl

@[simp] theorem grayImage_h (img : Image Rgb) : (grayImage img).h = img.h := rfl

@[simp] theorem gaussBlur5_w (g : Image Nat) : (gaussBlur5 g).w = g.w := rfl

@[simp] theorem gaussBlur5_h (g : Image Nat) : (gaussBlur5 g).h = g.h := rfl

@[simp] theorem rowPass_w (g : Image Nat) : (rowPass g).w = g.w := rfl

@[simp] theorem rowPass_h (g : Image Nat) : (rowPass g).h = g.h := rfl

@[simp] theorem gradientImage_w (b : Image Nat) : (gradientImage b).w = b.w := rfl

@[simp] theorem gradientImage_h (b : Image Nat) : (gradientImage b).h = b.h := rfl

@[simp] theorem classImage_w (g : Image Gradient) : (classImage g).w = g.w := rfl

@[simp] theorem classImage_h (g : Image Gradient) : (classImage g).h = g.h := rfl

@[simp] theorem growEdges_w (c : Image EdgeClass) (e : Image Bool) : (growEdges c e).w = c.w := rfl

@[simp] theorem growEdges_h (c : Image EdgeClass) (e : Image Bool) : (growEdges c e).h = c.h := rfl

@[simp] theorem growEdges_length (c : Image EdgeClass) (e : Image Bool) : (growEdges c e).px.length = c.w * c.h :=
  tabulate_length ..

/-- Growth keeps an image of the class image's dimensions one. -/
theorem growLoop_dims (c : Image EdgeClass) (n : Nat) (e : Image Bool)
    (h : e.w = c.w ∧ e.h = c.h ∧ e.px.length = c.w * c.h) :
    (growLoop c n e).w = c.w ∧ (growLoop c n e).h = c.h ∧ (growLoop c n e).px.length = c.w * c.h := by
  induction n generalizing e with
  | zero => exact h
  | succ n ih =>
    simp only [growLoop]
    split
    · exact h
    · exact ih _ ⟨rfl, rfl, growEdges_length c e⟩

theorem hysteresis_dims (c : Image EdgeClass) :
    (hysteresis c).w = c.w ∧ (hysteresis c).h = c.h ∧ (hysteresis c).px.length = c.w * c.h :=
  growLoop_dims c _ _ ⟨rfl, rfl, tabulate_length ..⟩

@[simp] theorem hysteresis_w (c : Image EdgeClass) : (hysteresis c).w = c.w := (hysteresis_dims c).1

@[simp] theorem hysteresis_h (c : Image EdgeClass) : (hysteresis c).h = c.h := (hysteresis_dims c).2.1

@[simp] theorem hysteresis_length (c : Image EdgeClass) : (hysteresis c).px.length = c.w * c.h :=
  (hysteresis_dims c).2.2

@[simp] theorem edgeImage_w (e : Image Bool) : (edgeImage e).w = e.w := rfl

@[simp] theorem edgeImage_h (e : Image Bool) : (edgeImage e).h = e.h := rfl

@[simp] theorem canny_w (b : Image Nat) : (canny b).w = b.w := by simp [canny]

@[simp] theorem canny_h (b : Image Nat) : (canny b).h = b.h := by simp [canny]

@[simp] theorem canny_length (b : Image Nat) : (canny b).px.length = b.w * b.h := by
  rw [canny, edgeImage, tabulate_length]
  simp

@[simp] theorem visionEdges_w (input : List Byte) (w h : Nat) : (visionEdges input w h).w = w := by
  simp [visionEdges]

@[simp] theorem visionEdges_h (input : List Byte) (w h : Nat) : (visionEdges input w h).h = h := by
  simp [visionEdges]

@[simp] theorem visionEdges_length (input : List Byte) (w h : Nat) : (visionEdges input w h).px.length = w * h := by
  simp [visionEdges]

/-! ### Values -/

/-- The edge image is binary (R160). -/
theorem mem_edgeImage {e : Image Bool} {v : Nat} (hv : v ∈ (edgeImage e).px) : v = 255 ∨ v = 0 := by
  obtain ⟨x, y, rfl⟩ := mem_tabulate hv
  by_cases h : pixel e x y = true <;> simp [h]

/-- A byte is at most 255. -/
theorem inByte_le (input : List Byte) (k : Nat) : inByte input k ≤ 255 := by
  have := (input.getD k 0#8).isLt
  unfold inByte
  omega

theorem sat8_le (v : Int) : sat8 v ≤ 255 := by
  unfold sat8
  omega

/-! ### Pixels of the stages -/

theorem pixel_gradientImage {b : Image Nat} {x y : Nat} (hx : x < b.w) (hy : y < b.h) :
    pixel (gradientImage b) x y = ⟨sobelX b x y, sobelY b x y⟩ := by
  rw [gradientImage, pixel_tabulate _ hx hy]

theorem pixel_classImage {g : Image Gradient} {x y : Nat} (hx : x < g.w) (hy : y < g.h) :
    pixel (classImage g) x y = classOf (magnitude (pixel g x y)) (isKept g x y) := by
  rw [classImage, pixel_tabulate _ hx hy]

theorem pixel_growEdges {c : Image EdgeClass} {e : Image Bool} {x y : Nat} (hx : x < c.w) (hy : y < c.h) :
    pixel (growEdges c e) x y =
      (pixel e x y || (pixel c x y == .weak && (neighbours x y).any fun p => marked e p.1 p.2)) := by
  rw [growEdges, pixel_tabulate _ hx hy]

/-- The eight neighbours are the 8-adjacent positions (R159). -/
theorem mem_neighbours_iff {x y x' y' : Nat} : ((x' : Int), (y' : Int)) ∈ neighbours x y ↔ Adjacent8 x y x' y' := by
  simp only [neighbours, List.mem_cons, Prod.mk.injEq, List.not_mem_nil, or_false, Adjacent8]
  omega

/-! ### The reflect-101 loop (R140) -/

theorem reflectLoop_inside (n : Int) (k : Nat) (p : Int) (h0 : 0 ≤ p) (h1 : p < n) : reflectLoop n k p = p := by
  cases k with
  | zero => rfl
  | succ k => simp [reflectLoop, show ¬ p < 0 by omega, show ¬ n ≤ p by omega]

/-- With more passes than `|p|` the loop has ended inside the image, and further passes change nothing. -/
theorem reflectLoop_settles (n : Int) (hn : 2 ≤ n) (k : Nat) (p : Int) (hk : p < 0 ∨ n ≤ p → p.natAbs < k + 1)
    (hneg : p < 0 → p.natAbs < k) :
    0 ≤ reflectLoop n k p ∧ reflectLoop n k p < n ∧ ∀ m, k ≤ m → reflectLoop n m p = reflectLoop n k p := by
  induction k generalizing p with
  | zero =>
    have h0 : 0 ≤ p := by
      by_contra h
      have := hneg (by omega)
      omega
    have h1 : p < n := by
      by_contra h
      have := hk (by omega)
      omega
    refine ⟨h0, h1, fun m _ => ?_⟩
    rw [reflectLoop_inside _ _ _ h0 h1, reflectLoop_inside _ _ _ h0 h1]
  | succ k ih =>
    by_cases hp : p < 0
    · have := hneg hp
      have e : ∀ m, reflectLoop n (m + 1) p = reflectLoop n m (-p) := fun m => by simp [reflectLoop, hp]
      obtain ⟨a, b, c⟩ := ih (-p) (fun _ => by omega) (fun _ => by omega)
      rw [e]
      refine ⟨a, b, fun m hm => ?_⟩
      obtain ⟨m, rfl⟩ : ∃ q, m = q + 1 := ⟨m - 1, by omega⟩
      rw [e, c m (by omega)]
    · by_cases hq : n ≤ p
      · have := hk (by omega)
        have e : ∀ m, reflectLoop n (m + 1) p = reflectLoop n m (2 * (n - 1) - p) := fun m => by
          simp [reflectLoop, hp, hq]
        obtain ⟨a, b, c⟩ := ih (2 * (n - 1) - p) (fun _ => by omega) (fun _ => by omega)
        rw [e]
        refine ⟨a, b, fun m hm => ?_⟩
        obtain ⟨m, rfl⟩ : ∃ q, m = q + 1 := ⟨m - 1, by omega⟩
        rw [e, c m (by omega)]
      · rw [reflectLoop_inside _ _ _ (by omega) (by omega)]
        exact ⟨by omega, by omega, fun m _ => reflectLoop_inside _ _ _ (by omega) (by omega)⟩

end Sys2Proof.Machine
end

