-- ==== Sys2Proof/Laws/Step.lean ====
section
/-! SUPPORT. What a command, a register access, a turn and a step can do, said once. -/

namespace Sys2Proof.Machine

/-- A command is dropped or has its own effect, by the phase (R100). -/
theorem acceptCommand_cases (f : State → State) (s : State) :
    (s.phase = .idle ∧ acceptCommand f s = f s) ∨
      ((∃ j, s.phase = .run j) ∧ acceptCommand f s = dropCommand s) := by
  cases h : s.phase with
  | idle => exact .inl ⟨rfl, acceptCommand_idle f s h⟩
  | run j => exact .inr ⟨⟨j, rfl⟩, acceptCommand_run f s j h⟩

/-- What acceptance can change, given what the command's own effect can. -/
theorem acceptCommand_frame (f : State → State) (s : State)
    (hf : f s = { s with ready := (f s).ready, done := (f s).done, overrun := (f s).overrun,
                         result := (f s).result, phase := (f s).phase, fresh := (f s).fresh }) :
    acceptCommand f s =
      { s with ready := (acceptCommand f s).ready, done := (acceptCommand f s).done,
               overrun := (acceptCommand f s).overrun, result := (acceptCommand f s).result,
               phase := (acceptCommand f s).phase, fresh := (acceptCommand f s).fresh } := by
  rcases acceptCommand_cases f s with ⟨-, h⟩ | ⟨-, h⟩
  · rw [h]
    exact hf
  · rw [h]
    rfl

/-- Every command answers a next state that differs from the old one in READY, DONE, OVERRUN, RESULT, the phase and
the supply of free values at most. -/
theorem exec_frame (i : Instr) (s : State) :
    ∃ t, exec i s = .next t ∧
      t = { s with ready := t.ready, done := t.done, overrun := t.overrun, result := t.result, phase := t.phase,
                   fresh := t.fresh } := by
  cases i
  case process =>
    refine ⟨_, rfl, acceptCommand_frame _ _ ?_⟩
    cases h : processCheck s with
    | some code =>
      rw [processEffect_failed h]
    | none =>
      rw [processEffect_passed h]
      rfl
  all_goals exact ⟨_, rfl, acceptCommand_frame _ _ rfl⟩

/-- A register's offset is a word offset of the window. -/
theorem regAt_some {off : Nat} {r : RegName} (h : regAt off = some r) : off % 4 = 0 ∧ off < 0x40 := by
  unfold regAt at h
  split at h <;> first | exact ⟨by omega, by omega⟩ | cases h

/-- Every word offset of the window is a register's. -/
theorem regAt_of_aligned {off : Nat} (h4 : off % 4 = 0) (h : off < 0x40) : ∃ r, regAt off = some r := by
  interval_cases off <;> first | exact ⟨_, rfl⟩ | omega

/-- A register access that answers a next state is a read, which returns data and changes nothing else, or a write of a
register. -/
theorem regAccess_cases {a : RegAccess} {s t : State} (h : regAccess a s = .next t) :
    (∃ r, a.write = false ∧ regAt a.off = some r ∧ t = regLoad r s) ∨
      ∃ r, a.write = true ∧ a.size = 4 ∧ regAt a.off = some r ∧ regWrite r a.data s = .next t := by
  unfold regAccess at h
  split at h
  · cases h
  split at h
  · cases h
  split at h
  · cases h
  rename_i h1 _ _ r hr
  split at h
  · exact .inr ⟨r, by assumption, by simpa [RegAccess.fullWidth] using h1, hr, h⟩
  · refine .inl ⟨r, by simpa using ‹¬ a.write = true›, hr, ?_⟩
    cases h
    rfl

/-- The engine's own turn is nothing, or an engine step with free choices. -/
theorem ownEngineStep_cases (s : State) :
    (s.phase = .idle ∧ ownEngineStep s = s) ∨
      ∃ j, s.phase = .run j ∧ ownEngineStep s = engineStep (Config.freeTurn s.fresh) (useFresh s) := by
  unfold ownEngineStep
  split
  · exact .inl ⟨by assumption, rfl⟩
  · exact .inr ⟨_, by assumption, rfl⟩

/-- A step is the engine's own turn or the first turn of the agenda. -/
theorem step_cases {s t : State} (h : step s = .next t) :
    (s.agenda = [] ∧ t = ownEngineStep s) ∨
      ∃ e rest, s.agenda = e :: rest ∧ runEvent e { s with agenda := rest } = .next t := by
  unfold step takeTurn at h
  split at h
  · refine .inl ⟨by assumption, ?_⟩
    cases h
    rfl
  · exact .inr ⟨_, _, by assumption, h⟩

/-- A run of one step more begins with that step. -/
theorem run_succ {M : Host.Core} {n : Nat} {s t : M.State} (h : M.step s = .next t) :
    M.run (n + 1) s = M.run n t := by
  simp [Host.Core.run, h]

end Sys2Proof.Machine
end

