-- ==== Sys2Proof/Tests/Slice0.lean ====
section
/-! SUPPORT. Small tests of the model, their expected values from the spec's own examples (95_test_vectors.md and the
rules' examples), and for every obligation with hypotheses a state that meets them. -/

namespace Sys2Proof.Tests

open Sys2Proof Sys2Proof.Machine

/-! ## Builds, states and jobs -/

/-- VISION, maxima 4096, every address answers, coherent. -/
def cfgV : Config := ⟨.vision 2047 2047, [], [], true, 0#26⟩

/-- FALLBACK, maxima 4096. -/
def cfgF : Config := ⟨.fallback 4095 4095, [], [], true, 0#26⟩

/-- FALLBACK through a memory port that is not coherent. -/
def cfgN : Config := { cfgF with coherent := false }

/-- FALLBACK with one address that answers with a bus error. -/
def cfgHole : Config := { cfgF with busHoles := [⟨0x1001, 1⟩] }

/-- The block after INIT: STATUS 0x15 under VISION. -/
def ready (c : Config) : State := { State.resetOf c with ready := true, done := true, result := .ok }

/-- A Ready block with the parameters of a frame; `ob` is OUT_BASE[31:2]. -/
def framed (c : Config) (w h : BitVec 16) (ib il : Word) (ob : BitVec 30) (ol : Word) : State :=
  { ready c with width := w, height := h, inBase := ib, inLen := il, outBase := ob, outLen := ol }

/-- A 2×1 FALLBACK job over zero input bytes, nothing written yet. -/
def jobF : Job := ⟨2#16, 1#16, 0x1000#32, 0x2000#32, [0xFFFFFFFF#32, 0xFFFFFFFF#32],
  [0#32, 0#32], [0, 1], []⟩

/-- A Ready block that runs a job. -/
def runs (c : Config) (j : Job) : State := { State.resetOf c with ready := true, result := .ok, phase := .run j }

/-- A block that runs `jobF`. -/
def running (c : Config) : State := runs c jobF

/-- `jobF` after its host has written to its input. -/
def jobLoose : Job := { jobF with loose := [0, 1] }

/-- The next state's STATUS, if there is a next state. -/
def statusAfter (a : Answer) : Option Word :=
  match a with
  | .next t => some (regRead .status t)
  | .fault _ => none
  | .refused _ => none

/-- The invariant holds of `jobF`, whatever the FALLBACK build. -/
theorem test_job_inv (c : Config) (hb : c.build = .fallback 4095 4095) : JobInv c jobF := by
  have hv : c.variant = .fallback := by simp [Config.variant, hb]
  have hw : c.maxWidth = 4096 ∧ c.maxHeight = 4096 := by simp [Config.maxWidth, Config.maxHeight, hb]
  have hn : jobNeedIn c.variant jobF = 2 := by rw [hv]; rfl
  refine ⟨by decide, by rw [hw.1, hw.2]; decide, fun h => ?_, by rw [hn]; decide, by decide, by decide,
    ?_, by decide, fun v hv => ?_, by decide, by decide, by decide, by decide⟩
  · rw [hv] at h
    cases h
  · have hi : jobF.inb.toNat = 0x1000 := rfl
    have ho : jobF.outb.toNat = 0x2000 := rfl
    omega
  · obtain rfl : v = 0xFFFFFFFF#32 := by simpa [jobF] using hv
    decide

/-- The invariant holds of a block that runs `jobF`, with any of its slots loose. -/
theorem test_runs_inv (c : Config) (hb : c.build = .fallback 4095 4095) (loose : List Nat) (hl : ∀ i ∈ loose, i < 2) :
    StateInv (runs c { jobF with loose := loose }) := by
  refine ⟨rfl, fun j hj => ?_, fun _ => rfl, fun _ => rfl, fun h => by simp [runs] at h⟩
  obtain rfl : { jobF with loose := loose } = j := Phase.run.inj hj
  exact { test_job_inv c hb with loose_lt := hl }

theorem test_running_inv (c : Config) (hb : c.build = .fallback 4095 4095) : StateInv (running c) :=
  test_runs_inv c hb [] (by decide)

/-- The invariant holds of a Ready block. -/
theorem test_framed_inv (c : Config) (w h : BitVec 16) (ib il : Word) (ob : BitVec 30) (ol : Word) :
    StateInv (framed c w h ib il ob ol) :=
  ⟨rfl, fun _ hj => (nomatch hj), fun hb => (nomatch hb), fun hb => (nomatch hb), fun hr => (nomatch hr)⟩

/-! ## Well-formedness: one ill-formed access for each check (R70, S1) -/

theorem test_wf_refuses_narrow : RegAccess.fullWidth ⟨false, 1, 0x08, 0#32⟩ = false := by decide

theorem test_wf_refuses_misaligned : RegAccess.aligned ⟨true, 4, 0x0A, 0#32⟩ = false := by decide

theorem test_wf_refuses_outside : RegAccess.inWindow ⟨true, 4, 0x40, 0#32⟩ = false := by decide

theorem test_wf_accepts_last_offset : RegAccess.wf ⟨true, 4, 0x3C, 0#32⟩ = true := by decide

theorem test_wf_conjoins :
    [RegAccess.wf ⟨false, 2, 0x08, 0#32⟩, RegAccess.wf ⟨false, 4, 0x09, 0#32⟩, RegAccess.wf ⟨false, 4, 0x44, 0#32⟩]
      = [false, false, false] := by decide

/-! ## Decoding: words written out from R71 to R73 -/

theorem test_decode_nop : decode 0b00000000000000000000000000000000#32 = .ok .nop := rfl

theorem test_decode_init : decode 0b00000000000000000000000000000001#32 = .ok .init := rfl

theorem test_decode_cleanup : decode 0b00000000000000000000000000000010#32 = .ok .cleanup := rfl

theorem test_decode_process : decode 0b00000000000000000000000000000011#32 = .ok .process := rfl

/-- R110's example: OPC 3 with bit 4 set. -/
theorem test_decode_reserved_bits : decode 0b00000000000000000000000000010011#32 = .error .reservedBits := rfl

theorem test_decode_top_bit : decode 0b10000000000000000000000000000001#32 = .error .reservedBits := rfl

theorem test_decode_reserved_opcode : decode 0b00000000000000000000000000001111#32 = .error .reservedOpcode := rfl

theorem test_table_word : decodeTableWord 32 3 = some .process ∧ decodeTableWord 32 4 = none := ⟨rfl, rfl⟩

/-! ## One step of each command -/

/-- R101's example. -/
theorem test_nop_keeps_status :
    statusAfter (step ((ready cfgV).withFetchWord 32 0)) = some 0x00000015#32 := rfl

/-- R101: OVERRUN while a job runs (VARIANT, OVERRUN, BUSY, READY, RESULT = OK). -/
theorem test_nop_busy_sets_overrun :
    statusAfter (step ((running cfgF).withFetchWord 32 0)) = some 0x0000011B#32 := rfl

/-- R102's example. -/
theorem test_init_from_reset :
    statusAfter (step ((State.resetOf cfgV).withFetchWord 32 1)) = some 0x00000015#32 := rfl

/-- R103's example. -/
theorem test_cleanup_of_ready :
    statusAfter (step ((ready cfgV).withFetchWord 32 2)) = some 0x00000014#32 := rfl

/-- R201: RESULT = ERR_NOT_INIT and DONE. -/
theorem test_process_before_init :
    statusAfter (step ((State.resetOf cfgV).withFetchWord 32 3)) = some 0x00000024#32 := rfl

/-- R105's example: BUSY becomes 1, DONE is cleared, RESULT still shows INIT's OK. -/
theorem test_process_starts_a_job :
    statusAfter (step ((framed cfgV 4#16 4#16 0x1000#32 24#32 0x800#30 16#32).withFetchWord 32 3))
      = some 0x00000013#32 := rfl

/-- R110's example. -/
theorem test_illegal_word : statusAfter (commandWrite 0x00000013#32 (ready cfgV)) = some 0x00000075#32 := rfl

/-! ## The registers -/

/-- R38: bits 1:0 of OUT_BASE read 0. -/
theorem test_out_base_low_bits :
    (match regWrite .outBase 0x00002003#32 (ready cfgV) with
      | .next t => regRead .outBase t == 0x00002000#32
      | _ => false) = true := rfl

/-- R41: a write of STATUS clears DONE by bit 2 only. -/
theorem test_status_w1c : statusAfter (regWrite .status 0x00000004#32 (ready cfgV)) = some 0x00000011#32 := rfl

/-! ## The stages -/

/-- R120's example frame: V = U = 128 and the four luma bytes. -/
theorem test_gray_of_example_frame :
    (grayImage (resize (nv21ToRgb [16#8, 235#8, 16#8, 235#8, 128#8, 128#8] 2 2))).px = [0, 255, 0, 255] := by
  decide +kernel

/-- R121's examples: the pair (V, U) = (240, 90), and the same bytes read the other way. -/
theorem test_chroma_order : yuvToRgb 81 90 240 = ⟨254, 0, 0⟩ ∧ yuvToRgb 81 240 90 = ⟨15, 63, 255⟩ := by decide

/-- R125's examples, and R121's two luminances. -/
theorem test_gray_examples :
    [rgbToGray ⟨100, 150, 200⟩, rgbToGray ⟨254, 0, 0⟩, rgbToGray ⟨15, 63, 255⟩] = [141, 76, 71] := by decide

/-- R140's examples for n = 2. -/
theorem test_reflect_two :
    [reflect101 (-2) 2, reflect101 (-1) 2, reflect101 2 2, reflect101 3 2] = [0, 1, 0, 1] := by decide

/-- R144's impulse in a 5×5 image: the first row and the middle. -/
theorem test_blur_impulse :
    let g : Image Nat := tabulate 5 5 fun x y => if x = 2 ∧ y = 2 then 255 else 0
    (gaussBlur5 g).px.take 5 = [4, 8, 12, 8, 4] ∧ pixel (gaussBlur5 g) 2 2 = 36 := by
  decide +kernel

/-- R144: halves round up, and a 2×2 image folds to its mean. -/
theorem test_blur_rounding :
    (gaussBlur5 ⟨6, 1, [0, 255, 0, 255, 0, 255]⟩).px = [128, 128, 128, 128, 128, 128] ∧
      (gaussBlur5 ⟨2, 2, [10, 20, 30, 40]⟩).px = [25, 25, 25, 25] := by
  decide +kernel

/-- R152's example: dx at x = 3. -/
theorem test_sobel_example :
    sobelX (tabulate 8 3 fun x _ => [0, 0, 16, 80, 175, 239, 255, 255].getD x 0) 3 1 = 636 := by decide +kernel

/-- R156's example. -/
theorem test_sector_example : sectorOf ⟨300, 300⟩ = .diagonal 1 ∧ sectorOf ⟨-300, 300⟩ = .diagonal (-1) := by decide

/-- R161: a sharp step of 30 gives no edge, a step of 40 gives one. -/
theorem test_canny_steps :
    (canny (tabulate 4 2 fun x _ => if x < 2 then 0 else 30)).px = [0, 0, 0, 0, 0, 0, 0, 0] ∧
      (canny (tabulate 4 2 fun x _ => if x < 2 then 0 else 40)).px = [0, 255, 0, 0, 0, 255, 0, 0] := by
  decide +kernel

/-- R171's and R175's examples. -/
theorem test_pack_examples :
    pack 155 155 155 = 0xFF9B9B9B#32 ∧ packInvert 100 = 0xFF9B9B9B#32 ∧ packInvert 0 = 0xFFFFFFFF#32 ∧
      packInvert 255 = 0xFF000000#32 ∧ packInvert 128 = 0xFF7F7F7F#32 := by decide

/-! ## Witnesses: a state and operands that meet each obligation's hypotheses together -/

theorem test_witness_DecodeOfEncodeIsTheCommand : Instr.process.wf = true := rfl

theorem test_witness_StepRunsTheDecodedCommand :
    decode 0x00000001#32 = .ok .init ∧ Instr.init.wf = true ∧
      ({ ready cfgV with agenda := [wr .cmd 0x00000001#32] } : State).agenda = wr .cmd 0x00000001#32 :: [] :=
  ⟨rfl, rfl, rfl⟩

theorem test_witness_StepTakesTheNextTurn :
    ({ ready cfgV with agenda := [rd .status] } : State).agenda = rd .status :: [] ∧
      ((ready cfgV).agenda = [] ∧ (ready cfgV).phase = .idle) ∧
      ((running cfgF).agenda = [] ∧ (running cfgF).phase = .run jobF) :=
  ⟨rfl, ⟨rfl, rfl⟩, rfl, rfl⟩

/-- For NOP, INIT and CLEANUP: an idle block, a running one, VISION, and STATUS 0x15. -/
theorem test_witness_LifecycleCommands :
    (ready cfgV).phase = .idle ∧ (running cfgF).phase = .run jobF ∧
      (StateInv (running cfgF) ∧ busy (running cfgF) = true) ∧ cfgV.variant = .vision ∧
      regRead .status (ready cfgV) = 0x00000015#32 :=
  ⟨rfl, rfl, ⟨test_running_inv cfgF rfl, rfl⟩, rfl, rfl⟩

/-- VISION at the largest legal width, the input ending where the output begins and the output at the top of memory. -/
theorem test_witness_ProcessAcceptedStartsTheJob :
    ProcessReady (framed cfgV 4096#16 2#16 0xFFFF5000#32 12288#32 0x3FFFE000#30 8192#32) := by
  refine ⟨rfl, rfl, by unfold DimsLegal; decide, by unfold BoundsLegal; decide, ?_⟩
  rintro ⟨a, h1, h2, h3, h4⟩
  have e1 : frameIn (framed cfgV 4096#16 2#16 0xFFFF5000#32 12288#32 0x3FFFE000#30 8192#32) = 12288 := by decide
  have e2 : frameOut (framed cfgV 4096#16 2#16 0xFFFF5000#32 12288#32 0x3FFFE000#30 8192#32) = 0xFFFF8000 := by decide
  have e3 : (framed cfgV 4096#16 2#16 0xFFFF5000#32 12288#32 0x3FFFE000#30 8192#32).inBase.toNat = 0xFFFF5000 := by
    decide
  omega

theorem test_witness_ProcessNotInitialised :
    (State.resetOf cfgV).phase = .idle ∧ (State.resetOf cfgV).ready = false := ⟨rfl, rfl⟩

/-- ERR_DIM at each boundary: zero, one above the maximum, odd under VISION. -/
theorem test_witness_ProcessBadDimensions :
    ¬ DimsLegal (framed cfgV 0#16 2#16 0x1000#32 24#32 0x800#30 16#32) ∧
      ¬ DimsLegal (framed cfgF 4097#16 1#16 0x1000#32 9999#32 0x800#30 9999#32) ∧
      ¬ DimsLegal (framed cfgV 3#16 2#16 0x1000#32 24#32 0x800#30 16#32) ∧
      (framed cfgV 3#16 2#16 0x1000#32 24#32 0x800#30 16#32).phase = .idle ∧
      (framed cfgV 3#16 2#16 0x1000#32 24#32 0x800#30 16#32).ready = true := by
  unfold DimsLegal
  exact ⟨by decide, by decide, by decide, rfl, rfl⟩

/-- ERR_BOUNDS at each boundary: one input byte short, one slot short, one byte past the top of memory. -/
theorem test_witness_ProcessBadBounds :
    (DimsLegal (framed cfgV 2#16 2#16 0x1000#32 5#32 0x800#30 4#32) ∧
        ¬ BoundsLegal (framed cfgV 2#16 2#16 0x1000#32 5#32 0x800#30 4#32)) ∧
      ¬ BoundsLegal (framed cfgV 2#16 2#16 0x1000#32 6#32 0x800#30 3#32) ∧
      ¬ BoundsLegal (framed cfgV 2#16 2#16 0xFFFFFFFB#32 6#32 0x800#30 4#32) ∧
      BoundsLegal (framed cfgV 2#16 2#16 0xFFFFFFFA#32 6#32 0x800#30 4#32) := by
  unfold DimsLegal BoundsLegal
  exact ⟨⟨by decide, by decide⟩, by decide, by decide, by decide⟩

/-- ERR_OVERLAP: the last input byte is the first output byte. -/
theorem test_witness_ProcessOverlap :
    DimsLegal (framed cfgV 2#16 2#16 0x0FFB#32 6#32 0x400#30 4#32) ∧
      BoundsLegal (framed cfgV 2#16 2#16 0x0FFB#32 6#32 0x400#30 4#32) ∧
      RangesOverlap (framed cfgV 2#16 2#16 0x0FFB#32 6#32 0x400#30 4#32) := by
  unfold DimsLegal BoundsLegal
  exact ⟨by decide, by decide, 0x1000, by decide, by decide, by decide, by decide⟩

theorem test_witness_IllegalWordOnlyRecordsItsCode :
    (ready cfgV).phase = .idle ∧ (0x00000013#32).extractLsb' 4 28 ≠ 0#28 ∧
      4 ≤ ((0x00000004#32).extractLsb' 0 4).toNat := by decide

theorem test_witness_BusyDropsEveryCommandWord : busy (running cfgF) = true := rfl

theorem test_witness_StatusReadsItsFields : cfgF.variant = .fallback ∧ ∃ j, (running cfgF).phase = .run j :=
  ⟨rfl, jobF, rfl⟩

/-- The first and the last parameter register of the map. -/
theorem test_witness_ParameterRegistersReadBack :
    let rows := [(0x0C, RegName.irqEn, 0x00000001#32), (0x10, .width, 0x0000FFFF#32),
      (0x14, .height, 0x0000FFFF#32), (0x18, .inBase, 0xFFFFFFFF#32), (0x1C, .inLen, 0xFFFFFFFF#32),
      (0x20, .outBase, 0xFFFFFFFC#32), (0x24, .outLen, 0xFFFFFFFF#32)]
    (0x0C, RegName.irqEn, 0x00000001#32) ∈ rows ∧ (0x24, RegName.outLen, 0xFFFFFFFF#32) ∈ rows := by decide

/-- The first and the last offset of the register map. -/
theorem test_witness_ReadsHaveNoSideEffect :
    let rows := [(0x00, RegName.id), (0x04, .cmd), (0x08, .status), (0x0C, .irqEn), (0x10, .width), (0x14, .height),
      (0x18, .inBase), (0x1C, .inLen), (0x20, .outBase), (0x24, .outLen), (0x28, .reserved), (0x2C, .reserved),
      (0x30, .reserved), (0x34, .reserved), (0x38, .reserved), (0x3C, .reserved)]
    (0x00, RegName.id) ∈ rows ∧ (0x3C, RegName.reserved) ∈ rows := by decide

/-- The register map, held by hand against the table of 10_state.md section 2. -/
theorem test_register_map :
    [0x00, 0x04, 0x08, 0x0C, 0x10, 0x14, 0x18, 0x1C, 0x20, 0x24, 0x28, 0x3C].filterMap regAt =
      [.id, .cmd, .status, .irqEn, .width, .height, .inBase, .inLen, .outBase, .outLen, .reserved, .reserved] := by
  decide

theorem test_witness_OnlyUnsupportedAccessesAreRefused :
    RegAccess.wf ⟨true, 4, 0x3C, 0#32⟩ = true ∧ RegAccess.wf ⟨true, 4, 0x40, 0#32⟩ = false := by decide

theorem test_witness_BusAccessActsAtItsOffset : 0x3F < 0x40 := by decide

theorem test_witness_InterruptRisesAtCompletionAndFallsAtAck :
    ({ ready cfgV with ie := true } : State).ie = true := rfl

theorem test_witness_ResetLeavesItsValues : (ready cfgV).phase = .idle := rfl

theorem test_witness_ResetAbandonsTheJob : StateInv (running cfgF) ∧ (running cfgF).phase = .run jobF :=
  ⟨test_running_inv cfgF rfl, rfl⟩

/-- A slot that is loose and one that is not. -/
theorem test_witness_EngineStepWritesOneSlot :
    let j : Job := { jobF with loose := [0] }
    StateInv (runs cfgF j) ∧ (runs cfgF j).phase = .run j ∧ jobClear (runs cfgF j).cfg j = true ∧
      (pickSlot 1 j.unwritten = some 1 ∧ 1 ∉ j.loose) ∧ pickSlot 0 j.unwritten = some 0 ∧ 0 ∈ j.loose :=
  ⟨test_runs_inv cfgF rfl [0] (by decide), rfl, by decide, ⟨rfl, by decide⟩, rfl, by decide⟩

/-- A job whose host kept its duties, and one whose host did not; coherent and not. -/
theorem test_witness_LastEngineStepCompletesOk :
    let j : Job := { jobF with unwritten := [] }
    let k : Job := { jobLoose with unwritten := [] }
    (jobClear cfgF j = true ∧ (runs cfgF j).phase = .run j ∧ j.unwritten = [] ∧ j.loose = []) ∧
      jobClear cfgN k = true ∧ (runs cfgN k).phase = .run k ∧ k.unwritten = [] ∧ k.loose ≠ [] ∧
      (runs cfgN k).cfg.coherent = false :=
  ⟨⟨by decide, rfl, rfl, rfl⟩, by decide, rfl, rfl, by decide, rfl⟩

theorem test_witness_ClearJobWritesEverySlotInAnyOrder :
    (StateInv (running cfgF) ∧ (running cfgF).phase = .run jobF ∧ jobClear (running cfgF).cfg jobF = true ∧
      jobF.loose = [] ∧ jobF.unwritten.length < ([⟨5, true⟩, ⟨0, false⟩, ⟨7, true⟩] : List EngineTurn).length) ∧
      StateInv (runs cfgF jobLoose) ∧ (runs cfgF jobLoose).phase = .run jobLoose ∧
      jobClear (runs cfgF jobLoose).cfg jobLoose = true ∧
      jobLoose.unwritten.length < ([⟨5, true⟩, ⟨0, false⟩, ⟨7, true⟩] : List EngineTurn).length :=
  ⟨⟨test_running_inv cfgF rfl, rfl, by decide, rfl, by decide⟩, test_runs_inv cfgF rfl [0, 1] (by decide), rfl,
    by decide, by decide⟩

theorem test_witness_ProcessedFrameHoldsItsResult :
    let s := framed cfgF 2#16 1#16 0x1FFE#32 2#32 0x800#30 2#32
    StateInv s ∧ ProcessReady s ∧ s.cfg.coherent = true ∧ rangeOk s.cfg s.inBase.toNat (frameIn s) = true ∧
      rangeOk s.cfg (frameOut s) (4 * frameSlots s) = true ∧
      hitsDevice s.cfg s.inBase.toNat (frameIn s) = false ∧
      frameSlots s < ([⟨1, false⟩, ⟨0, false⟩, ⟨0, false⟩] : List EngineTurn).length := by
  refine ⟨test_framed_inv .., ⟨rfl, rfl, by unfold DimsLegal; decide, by unfold BoundsLegal; decide, ?_⟩, rfl,
    by decide, by decide, by decide, by decide⟩
  rintro ⟨a, h1, h2, h3, h4⟩
  have e1 : frameIn (framed cfgF 2#16 1#16 0x1FFE#32 2#32 0x800#30 2#32) = 2 := by decide
  have e2 : frameOut (framed cfgF 2#16 1#16 0x1FFE#32 2#32 0x800#30 2#32) = 0x2000 := by decide
  have e3 : (framed cfgF 2#16 1#16 0x1FFE#32 2#32 0x800#30 2#32).inBase.toNat = 0x1FFE := by decide
  omega

/-- The last input byte of the job answers with a bus error. -/
theorem test_witness_FaultyJobEndsWithErrBus :
    StateInv (running cfgHole) ∧ (running cfgHole).phase = .run jobF ∧
      jobClear (running cfgHole).cfg jobF = false ∧
      jobF.unwritten.length < ([⟨1, false⟩, ⟨0, false⟩, ⟨0, false⟩] : List EngineTurn).length :=
  ⟨test_running_inv cfgHole rfl, rfl, by decide, by decide⟩

theorem test_witness_EveryJobEndsWithinItsBound :
    StateInv (running cfgHole) ∧ (running cfgHole).phase = .run jobF ∧ (running cfgHole).agenda = [] :=
  ⟨test_running_inv cfgHole rfl, rfl, rfl⟩

/-- The input bytes of `jobF` read 0 in empty memory, and its RES is their inversion. -/
theorem test_witness_StepKeepsTheInvariants :
    StateInv (running cfgF) ∧ ResFaithful (running cfgF) ∧
      step (running cfgF) = .next (ownEngineStep (running cfgF)) := by
  refine ⟨test_running_inv cfgF rfl, fun j hj _ _ => ?_, rfl⟩
  obtain rfl : jobF = j := Phase.run.inj hj
  decide +kernel

/-- READY rises by INIT and falls by CLEANUP and by reset. -/
theorem test_witness_ReadyChangesOnlyByTheLifecycle :
    (∃ t, step ((State.resetOf cfgV).withFetchWord 32 1) = .next t ∧ t.ready = true) ∧
      (∃ t, step ((ready cfgV).withFetchWord 32 2) = .next t ∧ t.ready = false) ∧
      ∃ t, step { ready cfgV with agenda := [.reset] } = .next t ∧ t.ready = false :=
  ⟨⟨_, rfl, rfl⟩, ⟨_, rfl, rfl⟩, _, rfl, rfl⟩

/-- A CMD write while busy; OVERRUN cleared by a write of STATUS and by reset. -/
theorem test_witness_OverrunIsSticky :
    (busy ((running cfgF).withFetchWord 32 0) = true ∧ NextWrites ((running cfgF).withFetchWord 32 0) .cmd 0#32) ∧
      (∃ t, step { running cfgF with overrun := true, agenda := [wr .status 0x00000008#32] } = .next t ∧
        t.overrun = false) ∧
      ∃ t, step { ready cfgV with overrun := true, agenda := [.reset] } = .next t ∧ t.overrun = false :=
  ⟨⟨rfl, _, _, _, rfl, rfl, rfl, rfl, rfl, rfl⟩, ⟨_, rfl, rfl⟩, _, rfl, rfl⟩

/-- RESULT changes by a CMD write while IDLE, by the engine's last step of a job with a bus error, and by reset. -/
theorem test_witness_ResultChangesOnlyAtCompletion :
    (∃ t, step ((ready cfgV).withFetchWord 32 4) = .next t ∧ t.result ≠ (ready cfgV).result) ∧
      (∃ t, step { running cfgHole with agenda := [.engine ⟨0, true⟩] } = .next t ∧
        t.result ≠ (running cfgHole).result) ∧
      ∃ t, step { ready cfgV with agenda := [.reset] } = .next t ∧ t.result ≠ (ready cfgV).result :=
  ⟨⟨_, rfl, by decide⟩, ⟨_, rfl, by decide⟩, _, rfl, by decide⟩

theorem test_witness_RegisterAccessesLeaveMemoryAlone :
    ∃ t, regAccess ⟨true, 4, 0x04, 3#32⟩ (framed cfgV 4#16 4#16 0x1000#32 24#32 0x800#30 16#32) = .next t :=
  ⟨_, rfl⟩

/-- An address that does not answer, alone and as byte 1 of a word. -/
theorem test_witness_BusErrorChangesNothing :
    StateInv (running cfgHole) ∧ memOk (running cfgHole).cfg (0x1001#32).toNat = false ∧
      (0x1000 + 4 ≤ 2 ^ 32 ∧ memOk (running cfgHole).cfg (0x1000 + 1) = false) ∧
      rangeOk (running cfgHole).cfg (4 * (0x400#30).toNat) 4 = false :=
  ⟨test_running_inv cfgHole rfl, by decide, by decide, by decide⟩

theorem test_witness_HostStoreReachesTheEngine :
    StateInv (running cfgHole) ∧ memOk (running cfgHole).cfg (0x1002#32).toNat = true ∧
      isDevice (running cfgHole).cfg (0x1002#32).toNat = false ∧ (running cfgHole).cfg.coherent = true ∧
      0x1001 ≠ (0x1002#32).toNat :=
  ⟨test_running_inv cfgHole rfl, by decide, rfl, rfl, by decide⟩

/-- An idle block, and a running one: the last byte of the input and the byte after it; a word that meets the input, a slot, and a word that is neither
(the first after the job's last slot). -/
theorem test_witness_HostStoreToInputLoosensTheJob :
    (StateInv (running cfgF) ∧ (running cfgF).phase = .run jobF ∧ jobNeedIn (running cfgF).cfg.variant jobF = 2) ∧
      (jobF.inb.toNat ≤ (0x1001#32).toNat ∧ (0x1001#32).toNat < jobF.inb.toNat + 2) ∧
      ¬ (jobF.inb.toNat ≤ (0x1002#32).toNat ∧ (0x1002#32).toNat < jobF.inb.toNat + 2) ∧
      (∃ x, 4 * (0x400#30).toNat ≤ x ∧ x < 4 * (0x400#30).toNat + 4 ∧ jobF.inb.toNat ≤ x ∧ x < jobF.inb.toNat + 2) ∧
      (1 < jobSlots jobF ∧ 4 * (0x801#30).toNat = slotAddr jobF 1) ∧
      (jobF.inb.toNat + 2 ≤ 4 * (0x802#30).toNat ∧ ∀ i, i < jobSlots jobF → 4 * (0x802#30).toNat ≠ slotAddr jobF i) ∧
      rangeOk (running cfgF).cfg (4 * (0x400#30).toNat) 4 = true ∧
      StateInv (State.resetOf cfgF) ∧ (State.resetOf cfgF).phase = .idle :=
  ⟨⟨test_running_inv cfgF rfl, rfl, rfl⟩, by decide, by decide, ⟨0x1001, by decide⟩, by decide, by decide, by decide,
    ⟨rfl, fun _ h => (nomatch h), fun h => (nomatch h), fun h => (nomatch h), fun _ => ⟨rfl, rfl, rfl⟩⟩, rfl⟩

/-- Coherent, at the top of memory; not coherent, idle, and while a job runs its last slot and the word after it; a
byte. -/
theorem test_witness_HostReadReturnsTheWholeWord :
    ((running cfgF).cfg.coherent = true ∧ rangeOk cfgF (4 * (0x3FFFFFFF#30).toNat) 4 = true ∧
      hitsDevice cfgF (4 * (0x3FFFFFFF#30).toNat) 4 = false) ∧
      (cfgN.coherent = false ∧ rangeOk cfgN (4 * (0x801#30).toNat) 4 = true ∧
        hitsDevice cfgN (4 * (0x801#30).toNat) 4 = false) ∧
      ((ready cfgN).stale = [] ∧ (ready cfgN).phase = .idle) ∧
      (StateInv (running cfgN) ∧ (running cfgN).stale = [] ∧ (running cfgN).phase = .run jobF) ∧
      (1 < jobSlots jobF ∧ 4 * (0x801#30).toNat = slotAddr jobF 1) ∧
      (∀ i, i < jobSlots jobF → 4 * (0x802#30).toNat ≠ slotAddr jobF i) ∧
      memOk cfgF (0xFFFFFFFF#32).toNat = true ∧ isDevice cfgF (0xFFFFFFFF#32).toNat = false :=
  ⟨⟨rfl, by decide, by decide⟩, ⟨rfl, by decide, by decide⟩, ⟨rfl, rfl⟩, ⟨test_running_inv cfgN rfl, rfl, rfl⟩,
    by decide, by decide, by decide, by decide⟩

/-- The engine has written slot 0 while the host, through a port that is not coherent, reads it: the old word or the
job's, whichever `Config.seesOld` says (R61 item 3). -/
theorem test_host_sees_old_or_new :
    hostReadWord
        { running cfgN with mem := [(0x2000, 0xFF#8), (0x2001, 0xFF#8), (0x2002, 0xFF#8), (0x2003, 0xFF#8)] } 0x2000 =
      if Config.seesOld 0 0 then 0#32 else 0xFFFFFFFF#32 := by
  cases h : Config.seesOld 0 0 <;>
    simp [hostReadWord, hostReadByte, hostSees, running, runs, State.resetOf, h, cfgN, cfgF, slotAtAddr, jobF,
      jobSlots, needOut, slotAddr, isDevice, Memory.read, wordByte]

/-- The last pixel of a 4×2 frame, and the last byte of its input. -/
theorem test_witness_Nv21ReadsExactlyTheInput :
    4 % 2 = 0 ∧ 2 % 2 = 0 ∧ 3 < 4 ∧ 1 < 2 ∧ needIn .vision 4 2 - 1 < needIn .vision 4 2 := by decide

/-- The ends of the ranges, and both corner cases of luma. -/
theorem test_witness_YuvToRgbFormulaAndBounds :
    ((255 : Nat) ≤ 255 ∧ (0 : Nat) ≤ 255) ∧ (16 : Nat) ≤ 16 ∧ 235 ≤ (235 : Nat) ∧
      -1048576 ≤ (-1 : Int) ∧ (-1 : Int) < 0 := by decide

theorem test_witness_GreyIsTheWeightedSum : (255 : Nat) ≤ 255 ∧ (0 : Nat) ≤ 255 := by decide

/-- The last position of a 3×2 image: for the stage statements over positions inside an image. -/
theorem test_witness_PositionInside : 2 < 3 ∧ 1 < 2 ∧ 1 * 3 + 2 < 3 * 2 := by decide

/-- The sizes 1 and 2, and an index below, inside and above. -/
theorem test_witness_ReflectBorderIsTheLoopOfTheRule :
    1 ≤ (1 : Nat) ∧ (1 : Nat) = 1 ∧ 2 ≤ (2 : Nat) ∧ (-1 : Int) < 0 ∧ (0 : Int) ≤ 1 ∧ (1 : Int) < (2 : Nat) ∧
      ((2 : Nat) : Int) ≤ 2 := by decide

/-- A u8 image at both ends of its range, a position inside it and one outside. -/
theorem test_witness_ImageStages :
    ImageLe 255 ⟨2, 2, [0, 255, 255, 0]⟩ ∧ inside (⟨2, 2, [0, 255, 255, 0]⟩ : Image Nat) 2 0 = false ∧
      1 < (⟨2, 2, [0, 255, 255, 0]⟩ : Image Nat).w ∧ 1 < (⟨2, 2, [0, 255, 255, 0]⟩ : Image Nat).h := by
  unfold ImageLe
  decide

/-- An image with w*h values, all in 10 .. 40, and a pixel whose whole neighbourhood is. -/
theorem test_witness_BlurStaysInRange :
    let g : Image Nat := ⟨2, 2, [10, 20, 30, 40]⟩
    (g.px.length = g.w * g.h ∧ (∀ v ∈ g.px, 10 ≤ v) ∧ ImageLe 40 g ∧ 1 < g.w ∧ 1 < g.h) ∧
      ∀ dx dy : Int, -2 ≤ dx → dx ≤ 2 → -2 ≤ dy → dy ≤ 2 →
        10 ≤ pixel g (reflect101 (1 + dx) g.w) (reflect101 (1 + dy) g.h) ∧
          pixel g (reflect101 (1 + dx) g.w) (reflect101 (1 + dy) g.h) ≤ 40 := by
  unfold ImageLe
  refine ⟨by decide, fun dx dy h1 h2 h3 h4 => ?_⟩
  have hx : dx = -2 ∨ dx = -1 ∨ dx = 0 ∨ dx = 1 ∨ dx = 2 := by omega
  have hy : dy = -2 ∨ dy = -1 ∨ dy = 0 ∨ dy = 1 ∨ dy = 2 := by omega
  rcases hx with rfl | rfl | rfl | rfl | rfl <;> rcases hy with rfl | rfl | rfl | rfl | rfl <;> decide

/-- Clamping on each side of an image 2 wide, and inside it. -/
theorem test_witness_GradientClamp :
    (clampIdx (-1) 2 = 0 ∧ (-1 : Int) < 0) ∧ (clampIdx 1 2 = 1 ∧ (1 : Int) < (2 : Nat)) ∧ clampIdx 2 2 = 1 ∧
      ((2 : Nat) : Int) ≤ 2 := by decide

/-- The axes, and a diagonal above the threshold; `test_sector_boundaries` has a gradient for each sector. -/
theorem test_witness_SectorOfAGradient :
    ((⟨0, -60⟩ : Gradient).dx = 0 ∧ (⟨0, -60⟩ : Gradient).dy ≠ 0) ∧
      ((⟨60, 0⟩ : Gradient).dy = 0 ∧ (⟨60, 0⟩ : Gradient).dx ≠ 0) ∧
      magnitude ⟨-26, 25⟩ > 50 ∧ sectorOf ⟨-26, 25⟩ = .diagonal (-1) := by decide

/-- R156's boundary by hand: at dx = 1000, 414.21… of dy is level and 2414.21… of it is steep. -/
theorem test_sector_boundaries :
    [sectorOf ⟨1000, 414⟩, sectorOf ⟨1000, 415⟩, sectorOf ⟨1000, 2414⟩, sectorOf ⟨1000, 2415⟩]
      = [.horizontal, .diagonal 1, .diagonal 1, .vertical] := by decide

/-- M = 50, 51, 150 and 151, where the classes of R155 meet. -/
theorem test_witness_ClassOfAPixel :
    [classOf 50 true, classOf 51 true, classOf 150 true, classOf 151 true, classOf 151 false]
      = [.none, .weak, .weak, .strong, .none] := by decide

/-- R157's comparisons at a plateau along the horizontal axis: the first of two equal magnitudes is kept, the second is
not. -/
theorem test_class_plateau :
    (classImage ⟨4, 1, [⟨0, 0⟩, ⟨100, 0⟩, ⟨100, 0⟩, ⟨0, 0⟩]⟩).px = [.none, .weak, .none, .none] := by decide +kernel

/-- A WEAK pixel beside a STRONG one is an edge; a WEAK pixel alone is none (R159). -/
theorem test_witness_HysteresisIsTheSmallestClosedSet :
    (hysteresis ⟨4, 1, [.weak, .strong, .none, .weak]⟩).px = [true, true, false, false] := by decide +kernel

/-- Both cases of R160 occur: a step of 40 between columns 1 and 2 (R161). -/
theorem test_witness_CannyMarksExactlyTheEdges :
    pixel (classImage (gradientImage (tabulate 4 2 fun x _ => if x < 2 then 0 else 40))) 1 0 = .strong ∧
      pixel (classImage (gradientImage (tabulate 4 2 fun x _ => if x < 2 then 0 else 40))) 3 0 = .none := by
  decide +kernel

/-- The same frame at two input addresses, in two different states. -/
theorem test_witness_ResultDependsOnTheFrameOnly :
    let s := framed cfgF 2#16 1#16 0x1000#32 2#32 0x800#30 2#32
    let s' : State := { framed cfgF 2#16 1#16 0x5001#32 9#32 0x900#30 9#32 with result := .errBus }
    s.cfg.variant = s'.cfg.variant ∧ s.width = s'.width ∧ s.height = s'.height ∧
      ∀ k, k < frameIn s → engineReadByte s (s.inBase.toNat + k) = engineReadByte s' (s'.inBase.toNat + k) :=
  ⟨rfl, rfl, rfl, fun _ _ => rfl⟩

end Sys2Proof.Tests
end

section
/-! SUPPORT. What a CMD write and a register write can change, and which operations keep the build (R4). -/

namespace Sys2Proof.Machine

/-! ### Register writes -/

/-- Any word written to CMD answers a next state that differs from the old one where a command's does at most (R100,
R110). -/
theorem commandWrite_frame (v : Word) (s : State) :
    ∃ t, commandWrite v s = .next t ∧
      t = { s with ready := t.ready, done := t.done, overrun := t.overrun, result := t.result, phase := t.phase,
                   fresh := t.fresh } := by
  unfold commandWrite
  cases decode v with
  | ok i => exact exec_frame i s
  | error _ => exact ⟨_, rfl, acceptCommand_frame _ _ rfl⟩

/-- A register write is a command at CMD, and a store at every other register (R112). -/
theorem regWrite_cases {r : RegName} {v : Word} {s t : State} (h : regWrite r v s = .next t) :
    (r = .cmd ∧ commandWrite v s = .next t) ∨ (r ≠ .cmd ∧ t = regStore r v s) := by
  cases r
  case cmd => exact .inl ⟨rfl, h⟩
  all_goals
    cases h
    exact .inr ⟨nofun, rfl⟩

/-- A register store changes the register fields of the state, nothing else (R41, R42). -/
theorem regStore_frame (r : RegName) (v : Word) (s : State) :
    regStore r v s =
      { s with done := (regStore r v s).done, overrun := (regStore r v s).overrun, ie := (regStore r v s).ie,
               width := (regStore r v s).width, height := (regStore r v s).height,
               inBase := (regStore r v s).inBase, inLen := (regStore r v s).inLen,
               outBase := (regStore r v s).outBase, outLen := (regStore r v s).outLen } := by
  cases r <;> rfl

/-! ### The build and the platform parameters -/

theorem commandWrite_cfg {v : Word} {s t : State} (h : commandWrite v s = .next t) : t.cfg = s.cfg := by
  obtain ⟨u, hu, hframe⟩ := commandWrite_frame v s
  rw [hu] at h
  cases h
  rw [hframe]

theorem regWrite_cfg {r : RegName} {v : Word} {s t : State} (h : regWrite r v s = .next t) : t.cfg = s.cfg := by
  rcases regWrite_cases h with ⟨-, hcmd⟩ | ⟨-, rfl⟩
  · exact commandWrite_cfg hcmd
  · rw [regStore_frame]

theorem regAccess_cfg {a : RegAccess} {s t : State} (h : regAccess a s = .next t) : t.cfg = s.cfg := by
  rcases regAccess_cases h with ⟨r, -, -, rfl⟩ | ⟨r, -, -, -, hw⟩
  · rfl
  · exact regWrite_cfg hw

@[simp] theorem writeSlot_cfg (j : Job) (i : Nat) (v : Word) (s : State) : (writeSlot j i v s).cfg = s.cfg := by
  rw [writeSlot_eq]

@[simp] theorem completeJob_cfg (code : ResultCode) (j : Job) (s : State) : (completeJob code j s).cfg = s.cfg := by
  rw [completeJob_eq]

@[simp] theorem engineStep_cfg (t : EngineTurn) (s : State) : (engineStep t s).cfg = s.cfg := by
  cases hp : s.phase with
  | idle => simp [engineStep, hp]
  | run j =>
    rcases engineStep_cases t j s hp with ⟨i, v, -, h, -, -⟩ | ⟨-, -, h⟩ | ⟨-, h⟩
    · rw [h, writeSlot_cfg]
    · rw [h, completeJob_cfg]
    · rw [h, completeJob_cfg]

@[simp] theorem ownEngineStep_cfg (s : State) : (ownEngineStep s).cfg = s.cfg := by
  rcases ownEngineStep_cases s with ⟨-, h⟩ | ⟨j, -, h⟩
  · rw [h]
  · rw [h, engineStep_cfg, useFresh_cfg]

@[simp] theorem hostStoreByte_cfg (a : Nat) (b : Byte) (s : State) : (hostStoreByte a b s).cfg = s.cfg := by
  rw [hostStoreByte_eq]

@[simp] theorem hostStoreWord_cfg (a : Nat) (v : Word) (s : State) : (hostStoreWord a v s).cfg = s.cfg := by
  rw [hostStoreWord_eq]

@[simp] theorem otherBlockStore_cfg (a : Nat) (s : State) : (otherBlockStore a s).cfg = s.cfg := by
  rw [otherBlockStore_eq]

@[simp] theorem abandonJob_cfg (s : State) : (abandonJob s).cfg = s.cfg := by
  rw [abandonJob_eq]

@[simp] theorem resetBlock_cfg (s : State) : (resetBlock s).cfg = s.cfg := abandonJob_cfg s

/-- No agent's turn changes the build (R4). -/
theorem runEvent_cfg {e : Event} {s t : State} (h : runEvent e s = .next t) : t.cfg = s.cfg := by
  cases e with
  | reg a => exact regAccess_cfg h
  | bus write size addr data => exact regAccess_cfg h
  | memWriteByte addr b => cases h; exact hostStoreByte_cfg ..
  | memWriteWord addrHigh v => cases h; exact hostStoreWord_cfg ..
  | memReadByte addr => cases h; rfl
  | memReadWord addrHigh => cases h; rfl
  | cacheClean => cases h; rfl
  | cacheInvalidate => cases h; rfl
  | otherBlock addrHigh => cases h; exact otherBlockStore_cfg ..
  | reset => cases h; exact resetBlock_cfg s
  | engine turn => cases h; exact engineStep_cfg turn s

/-! ### Which turn a step takes -/

theorem ownEngineStep_idle {s : State} (h : s.phase = .idle) : ownEngineStep s = s := by
  simp [ownEngineStep, h]

theorem ownEngineStep_run {s : State} {j : Job} (h : s.phase = .run j) :
    ownEngineStep s = engineStep (Config.freeTurn s.fresh) (useFresh s) := by
  simp [ownEngineStep, h]

/-- With a turn on the agenda, the step is that turn (R44). -/
theorem step_of_agenda_cons {s : State} {e : Event} {rest : List Event} (h : s.agenda = e :: rest) :
    step s = runEvent e { s with agenda := rest } := by
  simp [step, takeTurn, h]

/-- With none left, the step is the engine's own (R246). -/
theorem step_of_agenda_nil {s : State} (h : s.agenda = []) : step s = .next (ownEngineStep s) := by
  simp [step, takeTurn, h]

end Sys2Proof.Machine
end

section
/-! The statements of 00_scope.md: the turn a step takes, and the build that every step keeps. -/

namespace Sys2Proof.Machine

/-- Settles O34: a step is the engine's own turn or the first turn of the agenda, and each of the two keeps the
build. -/
theorem stepKeepsTheBuild : Obligations.StepKeepsTheBuild := by
  unfold Obligations.StepKeepsTheBuild
  intro s t h
  rcases step_cases h with ⟨-, rfl⟩ | ⟨e, rest, -, hrun⟩
  · exact ownEngineStep_cfg s
  · exact runEvent_cfg (s := { s with agenda := rest }) hrun

/-- Settles O5, by the agenda and, where it is empty, by the phase. -/
theorem stepTakesTheNextTurn : Obligations.StepTakesTheNextTurn := by
  unfold Obligations.StepTakesTheNextTurn
  intro s e rest
  refine ⟨step_of_agenda_cons, fun hnil hidle => ?_, fun j hnil hrun => ?_, fun _ => rfl, fun _ => rfl, rfl⟩
  · rw [step_of_agenda_nil hnil, ownEngineStep_idle hidle]
  · rw [step_of_agenda_nil hnil, ownEngineStep_run hrun]

end Sys2Proof.Machine
end

section
/-! SUPPORT. The register port: an access at a register's offset, what a register reads after a store, and STATUS bit by
bit (R24, R33 to R42, R70). -/

namespace Sys2Proof.Machine

/-! ### Accesses by offset -/

/-- A 32-bit write at a register's offset is the write of that register (R70). -/
theorem regAccess_write_at {off : Nat} {r : RegName} (hr : regAt off = some r) (v : Word) (s : State) :
    regAccess ⟨true, 4, off, v⟩ s = regWrite r v s := by
  have halign := (regAt_some hr).1
  simp [regAccess, RegAccess.fullWidth, RegAccess.aligned, halign, hr]

/-- A 32-bit read at a register's offset returns that register (R70, R111). -/
theorem regAccess_read_at {off : Nat} {r : RegName} (hr : regAt off = some r) (d : Word) (s : State) :
    regAccess ⟨false, 4, off, d⟩ s = .next { s with busData := some (regRead r s) } := by
  have halign := (regAt_some hr).1
  simp [regAccess, RegAccess.fullWidth, RegAccess.aligned, halign, hr, regLoad, returnData]

/-- A write of any register but CMD stores in it (R112). -/
theorem regWrite_of_ne_cmd {r : RegName} (hr : r ≠ .cmd) (v : Word) (s : State) :
    regWrite r v s = .next (regStore r v s) := by
  cases r
  case cmd => exact absurd rfl hr
  all_goals rfl

/-! ### A register after a store -/

/-- A store in any register but STATUS leaves what every other register reads (R42). -/
theorem regRead_regStore_other {r q : RegName} (hr : r ≠ .status) (hq : q ≠ r) (v : Word) (s : State) :
    regRead q (regStore r v s) = regRead q s := by
  cases r
  case status => exact absurd rfl hr
  all_goals
    cases q <;> first | rfl | exact absurd rfl hq

theorem regRead_regStore_irqEn (v : Word) (s : State) :
    regRead .irqEn (regStore .irqEn v s) = v &&& 0x00000001#32 := by
  change (BitVec.ofBool (v.getLsbD 0)).setWidth 32 = v &&& 0x00000001#32
  ext i hi
  rcases Nat.eq_zero_or_pos i with rfl | hpos
  · simp
  · have hne : i ≠ 0 := by omega
    simp [BitVec.getElem_one, hne]

/-- Keeping the low half of a word is masking it. -/
theorem setWidth_low_half (v : Word) : (v.extractLsb' 0 16).setWidth 32 = v &&& 0x0000FFFF#32 := by
  apply BitVec.eq_of_toNat_eq
  have hmask : v.toNat &&& 0x0000FFFF = v.toNat % 2 ^ 16 := Nat.and_two_pow_sub_one_eq_mod v.toNat 16
  rw [BitVec.toNat_setWidth, BitVec.extractLsb'_toNat, Nat.shiftRight_zero, BitVec.toNat_and, BitVec.toNat_ofNat]
  change _ = v.toNat &&& 0x0000FFFF
  rw [hmask]
  omega

theorem regRead_regStore_width (v : Word) (s : State) :
    regRead .width (regStore .width v s) = v &&& 0x0000FFFF#32 := setWidth_low_half v

theorem regRead_regStore_height (v : Word) (s : State) :
    regRead .height (regStore .height v s) = v &&& 0x0000FFFF#32 := setWidth_low_half v

/-- The full mask keeps a word whole. -/
theorem word_and_full (v : Word) : v = v &&& 0xFFFFFFFF#32 := (BitVec.and_allOnes (x := v)).symm

theorem regRead_regStore_inBase (v : Word) (s : State) :
    regRead .inBase (regStore .inBase v s) = v &&& 0xFFFFFFFF#32 := word_and_full v

theorem regRead_regStore_inLen (v : Word) (s : State) :
    regRead .inLen (regStore .inLen v s) = v &&& 0xFFFFFFFF#32 := word_and_full v

theorem regRead_regStore_outLen (v : Word) (s : State) :
    regRead .outLen (regStore .outLen v s) = v &&& 0xFFFFFFFF#32 := word_and_full v

theorem regRead_regStore_outBase (v : Word) (s : State) :
    regRead .outBase (regStore .outBase v s) = v &&& 0xFFFFFFFC#32 := by
  change (v.extractLsb' 2 30).setWidth 32 <<< 2 = v &&& 0xFFFFFFFC#32
  have hmask : ∀ i : Fin 32, (0xFFFFFFFC#32)[i.val] = decide (2 ≤ i.val) := by decide
  ext i hi
  rw [BitVec.getElem_and, hmask ⟨i, hi⟩]
  by_cases h2 : i < 2
  · have hge : ¬ 2 ≤ i := by omega
    simp [h2, hge]
  · have hsplit : 2 + (i - 2) = i := by omega
    have hlt : i - 2 < 30 := by omega
    simp [h2, hlt, hsplit, hi, Nat.le_of_not_lt h2]

/-- The parameter registers: each row's register is the one at its offset and reads back what is stored in it, its
RAZ/WI bits 0 (R33 to R39, R42). -/
theorem parameterRow {off : Nat} {r : RegName} {mask : Word}
    (hrow : (off, r, mask) ∈ [(0x0C, RegName.irqEn, 0x00000001#32), (0x10, .width, 0x0000FFFF#32),
      (0x14, .height, 0x0000FFFF#32), (0x18, .inBase, 0xFFFFFFFF#32), (0x1C, .inLen, 0xFFFFFFFF#32),
      (0x20, .outBase, 0xFFFFFFFC#32), (0x24, .outLen, 0xFFFFFFFF#32)]) (v : Word) (s : State) :
    regAt off = some r ∧ r ≠ .cmd ∧ r ≠ .status ∧ regRead r (regStore r v s) = v &&& mask := by
  simp only [List.mem_cons, Prod.mk.injEq, List.not_mem_nil, or_false] at hrow
  rcases hrow with ⟨rfl, rfl, rfl⟩ | ⟨rfl, rfl, rfl⟩ | ⟨rfl, rfl, rfl⟩ | ⟨rfl, rfl, rfl⟩ | ⟨rfl, rfl, rfl⟩ |
    ⟨rfl, rfl, rfl⟩ | ⟨rfl, rfl, rfl⟩
  · exact ⟨rfl, nofun, nofun, regRead_regStore_irqEn v s⟩
  · exact ⟨rfl, nofun, nofun, regRead_regStore_width v s⟩
  · exact ⟨rfl, nofun, nofun, regRead_regStore_height v s⟩
  · exact ⟨rfl, nofun, nofun, regRead_regStore_inBase v s⟩
  · exact ⟨rfl, nofun, nofun, regRead_regStore_inLen v s⟩
  · exact ⟨rfl, nofun, nofun, regRead_regStore_outBase v s⟩
  · exact ⟨rfl, nofun, nofun, regRead_regStore_outLen v s⟩

/-! ### STATUS, IRQ_EN and the interrupt output -/

/-- The bits of STATUS, from the lowest field up, for any values of its fields (R24). -/
theorem getLsbD_statusLayout (variant : BitVec 1) (code : BitVec 4) (overrun done busy ready : Bool) (i : Nat) :
    (0#23 ++ variant ++ code ++ BitVec.ofBool overrun ++ BitVec.ofBool done ++ BitVec.ofBool busy
        ++ BitVec.ofBool ready).getLsbD i =
      if i = 0 then ready else if i = 1 then busy else if i = 2 then done else if i = 3 then overrun
      else if i < 8 then code.getLsbD (i - 4) else i = 8 && variant.getLsbD 0 := by
  simp only [BitVec.getLsbD_append, BitVec.getLsbD_ofBool]
  rcases (by omega : i = 0 ∨ i = 1 ∨ i = 2 ∨ i = 3 ∨ (4 ≤ i ∧ i < 8) ∨ i = 8 ∨ 9 ≤ i) with
    rfl | rfl | rfl | rfl | ⟨h4, h8⟩ | rfl | h9
  · simp
  · simp
  · simp
  · simp
  · grind
  · simp
  · grind

/-- STATUS bit by bit (R24). -/
theorem getLsbD_status (s : State) (i : Nat) :
    (regRead .status s).getLsbD i =
      if i = 0 then s.ready else if i = 1 then busy s else if i = 2 then s.done else if i = 3 then s.overrun
      else if i < 8 then (resultCode s.result).getLsbD (i - 4) else i = 8 && (variantBit s.cfg.variant).getLsbD 0 :=
  getLsbD_statusLayout ..

/-- Bits 7:4 of STATUS are the code of RESULT (R29). -/
theorem status_result (s : State) : (regRead .status s).extractLsb' 4 4 = resultCode s.result := by
  apply BitVec.eq_of_getLsbD_eq
  intro i hi
  have hlt : i + 4 < 8 := by omega
  simp [getLsbD_status, Nat.add_comm 4 i, hi, hlt]

/-- Bits 31:9 of STATUS read 0 (R24). -/
theorem status_reserved (s : State) : (regRead .status s).extractLsb' 9 23 = 0#23 := by
  apply BitVec.eq_of_getLsbD_eq
  intro i _
  simp [getLsbD_status, Nat.add_comm 9 i]

/-- Bit 8 of STATUS tells the variant (R24). -/
theorem variantBit_set_iff (v : Variant) : (variantBit v).getLsbD 0 = true ↔ v = .fallback := by
  cases v <;> decide

theorem resultCode_mem_codes (r : ResultCode) :
    (r, resultCode r) ∈ [(ResultCode.none, 0#4), (.ok, 1#4), (.errNotInit, 2#4), (.errDim, 3#4), (.errBounds, 4#4),
      (.errOverlap, 5#4), (.errBus, 6#4), (.errIllegalCmd, 7#4)] := by
  cases r <;> decide

theorem irqEn_getLsbD_zero (s : State) : (regRead .irqEn s).getLsbD 0 = s.ie := by
  simp [regRead]

theorem irq_iff (s : State) : irq s = true ↔ s.done = true ∧ s.ie = true := by
  simp [irq]

/-- A write of STATUS, its two write-one-to-clear bits said as conditions (R41). -/
theorem statusWrite_eq (v : Word) (s : State) :
    statusWrite v s =
      { s with done := if v.getLsbD 2 then false else s.done
               overrun := if v.getLsbD 3 then false else s.overrun } := by
  unfold statusWrite
  cases v.getLsbD 2 <;> cases v.getLsbD 3 <;> simp

/-- The acknowledging write of STATUS clears DONE and OVERRUN and nothing else (R77, R211). -/
theorem runEvent_ackWrite (s : State) : runEvent ackWrite s = .next { s with done := false, overrun := false } := by
  have hat : runEvent ackWrite s = .next (statusWrite 0x0000000C#32 s) := rfl
  rw [hat, statusWrite_eq]
  rfl

end Sys2Proof.Machine
end

section
/-! SUPPORT. The decoder against the encoder: a command's word is its encoding, and no other (R71, R72). -/

namespace Sys2Proof

/-- A word is its two fields put together (R71). -/
theorem word_of_fields (w : Word) : rsvdField w ++ opcField w = w := by
  have h : w.extractLsb' 4 28 ++ w.extractLsb' 0 4 = w.extractLsb' 0 32 :=
    BitVec.extractLsb'_append_extractLsb'_eq_extractLsb' (by decide)
  unfold rsvdField opcField
  rw [h]
  simp

theorem opcode_of_decodeOpc {o : BitVec 4} {i : Instr} (h : decodeOpc o = .ok i) : o = opcode i := by
  unfold decodeOpc at h
  split_ifs at h with h0 h1 h2 h3 <;> cases h <;> assumption

/-- The decoder reads a command from its encoding only (R72, R73). -/
theorem encode_of_decode {w : Word} {i : Instr} (h : decode w = .ok i) : w = encode i := by
  unfold decode at h
  split_ifs at h with hr
  have hrsvd : rsvdField w = 0#28 := not_not.1 hr
  calc w = rsvdField w ++ opcField w := (word_of_fields w).symm
    _ = 0#28 ++ opcode i := by rw [hrsvd, opcode_of_decodeOpc h]
    _ = encode i := by cases i <;> rfl

end Sys2Proof

namespace Sys2Proof.Machine

theorem commandWrite_of_decode {w : Word} {i : Instr} (h : decode w = .ok i) (s : State) :
    commandWrite w s = exec i s := by
  simp [commandWrite, h]

/-- A 32-bit table word is the word itself (R75). -/
theorem tableWord_toNat (w : Word) : tableWord 32 w.toNat = w := by
  rw [tableWord, Nat.mod_eq_of_lt w.isLt, BitVec.ofNat_toNat, BitVec.setWidth_eq]

end Sys2Proof.Machine
end

section
/-! SUPPORT. RES (R106, R173): one word for each slot, each with alpha 0xFF. -/

namespace Sys2Proof.Machine

/-- The packed word of three bytes has alpha 0xFF (R171). -/
theorem pack_alpha {r g b : Nat} (hr : r ≤ 255) (hg : g ≤ 255) (hb : b ≤ 255) :
    (pack r g b).extractLsb' 24 8 = 0xFF#8 := by
  have hr0 : (r * 2 ^ 16) >>> 24 = 0 := by rw [Nat.shiftRight_eq_div_pow]; omega
  have hg0 : (g * 2 ^ 8) >>> 24 = 0 := by rw [Nat.shiftRight_eq_div_pow]; omega
  have hb0 : b >>> 24 = 0 := by rw [Nat.shiftRight_eq_div_pow]; omega
  have htop : (0xFF000000 ||| (r * 2 ^ 16) ||| (g * 2 ^ 8) ||| b) >>> 24 = 0xFF := by
    rw [Nat.shiftRight_or_distrib, Nat.shiftRight_or_distrib, Nat.shiftRight_or_distrib, hr0, hg0, hb0]
    rfl
  apply BitVec.eq_of_toNat_eq
  rw [pack, BitVec.extractLsb'_toNat, BitVec.toNat_ofNat, Nat.shiftRight_eq_div_pow]
  rw [Nat.shiftRight_eq_div_pow] at htop
  simp only [BitVec.toNat_ofNat]
  omega

/-- The edge detector's image is binary, so its values are bytes (R160). -/
theorem mem_canny_le {b : Image Nat} {v : Nat} (hv : v ∈ (canny b).px) : v ≤ 255 := by
  rcases mem_edgeImage hv with rfl | rfl <;> decide

@[simp] theorem frameResult_length (v : Variant) (w h : Nat) (input : List Byte) :
    (frameResult v w h input).length = w * h := by
  cases v with
  | vision => simp [frameResult, visionResult]
  | fallback => simp [frameResult, fallbackResult]

/-- Every word of RES has alpha 0xFF (R173). -/
theorem frameResult_alpha {v : Variant} {w h : Nat} {input : List Byte} {x : Word} (hx : x ∈ frameResult v w h input) :
    x.extractLsb' 24 8 = 0xFF#8 := by
  cases v with
  | vision =>
    obtain ⟨e, he, rfl⟩ := List.mem_map.1 hx
    have hle : e ≤ 255 := mem_canny_le he
    exact pack_alpha hle hle hle
  | fallback =>
    obtain ⟨i, -, rfl⟩ := List.mem_map.1 hx
    exact pack_alpha (Nat.sub_le ..) (Nat.sub_le ..) (Nat.sub_le ..)

end Sys2Proof.Machine
end

section
/-! SUPPORT. PROCESS at acceptance (R104, R105): the codes of its checks, and what has been checked of a job it
starts. -/

namespace Sys2Proof.Machine

/-- The checks of PROCESS record an error, never NONE (R201 to R204). -/
theorem processCheck_ne_none_code {s : State} {code : ResultCode} (h : processCheck s = some code) : code ≠ .none := by
  rw [processCheck_eq] at h
  split_ifs at h <;> cases h <;> nofun

/-- PROCESS passes every check exactly when the block is Ready, the dimensions and the bounds are legal, and the two
ranges share no byte (R105). -/
theorem processCheck_passed_iff (s : State) :
    processCheck s = none ↔
      s.ready = true ∧ DimsLegal s ∧ BoundsLegal s ∧
        ¬ (s.inBase.toNat < frameOut s + 4 * frameSlots s ∧ frameOut s < s.inBase.toNat + frameIn s) := by
  rw [processCheck_eq]
  constructor
  · intro h
    split_ifs at h with hready hzero hmax heven hlen hfit hmeet
    have hparity : s.cfg.variant = .vision → s.width.toNat % 2 = 0 ∧ s.height.toNat % 2 = 0 := by
      intro hv
      simpa [hv] using heven
    exact ⟨by simpa using hready, ⟨by omega, by omega, by omega, by omega, hparity⟩,
      ⟨by omega, by omega, by omega, by omega⟩, hmeet⟩
  · rintro ⟨hready, ⟨hw, hh, hmw, hmh, heven⟩, ⟨hin, hout, hinFits, houtFits⟩, hmeet⟩
    have hparity : ¬ (s.cfg.variant = .vision ∧ (s.width.toNat % 2 ≠ 0 ∨ s.height.toNat % 2 ≠ 0)) := by
      rintro ⟨hv, hodd⟩
      have := heven hv
      omega
    rw [if_neg (by simp [hready]), if_neg (by omega), if_neg (by omega), if_neg hparity, if_neg (by omega),
      if_neg (by omega), if_neg hmeet]

theorem jobSlots_latchJob (s : State) : jobSlots (latchJob s) = frameSlots s := rfl

theorem jobNeedIn_latchJob (s : State) : jobNeedIn s.cfg.variant (latchJob s) = frameIn s := (frameIn_eq s).symm

theorem latchJob_outb_toNat (s : State) : (latchJob s).outb.toNat = frameOut s := opOutBase_toNat s

/-- A job that PROCESS starts has passed its checks, and no slot of it is written (R105). -/
theorem latchJob_inv {s : State} (h : processCheck s = none) : JobInv s.cfg (latchJob s) := by
  obtain ⟨-, ⟨hw, hh, hmw, hmh, heven⟩, ⟨-, -, hinFits, houtFits⟩, hmeet⟩ := (processCheck_passed_iff s).1 h
  exact
    { dims_pos := ⟨hw, hh⟩
      dims_max := ⟨hmw, hmh⟩
      dims_even := heven
      input_fits := by rw [jobNeedIn_latchJob]; exact hinFits
      output_fits := by rw [jobSlots_latchJob, latchJob_outb_toNat]; exact houtFits
      out_aligned := by rw [latchJob_outb_toNat, frameOut]; omega
      disjoint := by rw [jobSlots_latchJob, jobNeedIn_latchJob, latchJob_outb_toNat]; exact hmeet
      res_length := frameResult_length ..
      res_alpha := fun _ hv => frameResult_alpha hv
      old_length := by simp [latchJob, jobSlots, opWidth, opHeight]
      unwritten_nodup := List.nodup_range
      unwritten_lt := fun _ hi => List.mem_range.1 hi
      loose_lt := by
        intro i hi
        simp only [latchJob] at hi
        split at hi
        · exact List.mem_range.1 hi
        · cases hi }

end Sys2Proof.Machine
end

section
/-! SUPPORT. What a CMD write can do, said once (R100 to R105, R110). -/

namespace Sys2Proof.Machine

/-- While a job runs, a write of any word to CMD is dropped (R209). -/
theorem commandWrite_run {s : State} {j : Job} (hrun : s.phase = .run j) (v : Word) :
    commandWrite v s = .next (dropCommand s) := by
  unfold commandWrite
  cases decode v with
  | error _ => simp [illegalWord, acceptCommand_run _ s j hrun]
  | ok i =>
    cases i <;>
      simp [exec, execNop, execInit, execCleanup, execProcess, acceptCommand_run _ s j hrun]

/-- While IDLE, a write of a word to CMD changes nothing (NOP), completes at once with a code other than NONE, or starts
a job that has passed its checks. Of the completions only INIT and CLEANUP change READY. -/
theorem commandWrite_idle_cases {v : Word} {s t : State} (hidle : s.phase = .idle) (h : commandWrite v s = .next t) :
    t = s ∨
      (∃ code b, code ≠ .none ∧ t = { s with ready := b, result := code, done := true } ∧
        (b = s.ready ∨ (b = true ∧ v = 0x00000001#32) ∨ (b = false ∧ v = 0x00000002#32))) ∨
      (processCheck s = none ∧ t = startJob (clearDone s)) := by
  cases hd : decode v with
  | error e =>
    simp only [commandWrite, hd, illegalWord, acceptCommand_idle _ s hidle] at h
    cases h
    exact .inr (.inl ⟨.errIllegalCmd, s.ready, nofun, rfl, .inl rfl⟩)
  | ok i =>
    have hv := encode_of_decode hd
    rw [commandWrite_of_decode hd] at h
    cases i with
    | nop =>
      simp only [exec, execNop, acceptCommand_idle _ s hidle] at h
      cases h
      exact .inl rfl
    | init =>
      simp only [exec, execInit, acceptCommand_idle _ s hidle] at h
      cases h
      exact .inr (.inl ⟨.ok, true, nofun, rfl, .inr (.inl ⟨rfl, hv⟩)⟩)
    | cleanup =>
      simp only [exec, execCleanup, acceptCommand_idle _ s hidle] at h
      cases h
      exact .inr (.inl ⟨.ok, false, nofun, rfl, .inr (.inr ⟨rfl, hv⟩)⟩)
    | process =>
      simp only [exec, execProcess, acceptCommand_idle _ s hidle] at h
      cases h
      cases hc : processCheck s with
      | some code =>
        exact .inr (.inl ⟨code, s.ready, processCheck_ne_none_code hc, processEffect_failed hc, .inl rfl⟩)
      | none => exact .inr (.inr ⟨rfl, processEffect_passed hc⟩)

end Sys2Proof.Machine
end

section
/-! SUPPORT. READY, DONE, OVERRUN and RESULT: which turns can change them, said once (R25 to R29). -/

namespace Sys2Proof.Machine

/-- The two states show the same READY, DONE, OVERRUN and RESULT. -/
structure FlagsKept (s t : State) : Prop where
  ready : t.ready = s.ready
  done : t.done = s.done
  overrun : t.overrun = s.overrun
  result : t.result = s.result

/-- From `s` to `t` a running job has ended and recorded its code (R108, R109, R205). -/
structure JobEnded (s t : State) : Prop where
  running : ∃ j, s.phase = .run j
  idle : t.phase = .idle
  done : t.done = true
  result : t.result ≠ .none
  ready : t.ready = s.ready
  overrun : t.overrun = s.overrun

/-! ### Turns that keep all four -/

theorem hostStoreByte_flags (a : Nat) (b : Byte) (s : State) : FlagsKept s (hostStoreByte a b s) := by
  rw [hostStoreByte_eq]
  exact ⟨rfl, rfl, rfl, rfl⟩

theorem hostStoreWord_flags (a : Nat) (v : Word) (s : State) : FlagsKept s (hostStoreWord a v s) := by
  rw [hostStoreWord_eq]
  exact ⟨rfl, rfl, rfl, rfl⟩

theorem otherBlockStore_flags (a : Nat) (s : State) : FlagsKept s (otherBlockStore a s) := by
  rw [otherBlockStore_eq]
  exact ⟨rfl, rfl, rfl, rfl⟩

theorem writeSlot_flags (j : Job) (i : Nat) (v : Word) (s : State) : FlagsKept s (writeSlot j i v s) := by
  rw [writeSlot_eq]
  exact ⟨rfl, rfl, rfl, rfl⟩

/-! ### The engine -/

theorem completeJob_ended {code : ResultCode} {j : Job} {s : State} (hrun : s.phase = .run j) (hcode : code ≠ .none) :
    JobEnded s (completeJob code j s) := by
  rw [completeJob_eq]
  exact ⟨⟨j, hrun⟩, rfl, rfl, hcode, rfl, rfl⟩

/-- An engine step keeps the four or ends the running job. -/
theorem engineStep_flags (turn : EngineTurn) (s : State) :
    FlagsKept s (engineStep turn s) ∨ JobEnded s (engineStep turn s) := by
  cases hp : s.phase with
  | idle =>
    simp only [engineStep, hp]
    exact .inl ⟨rfl, rfl, rfl, rfl⟩
  | run j =>
    rcases engineStep_cases turn j s hp with ⟨i, v, -, h, -, -⟩ | ⟨-, -, h⟩ | ⟨-, h⟩
    · rw [h]
      exact .inl (writeSlot_flags ..)
    · rw [h]
      exact .inr (completeJob_ended hp nofun)
    · rw [h]
      exact .inr (completeJob_ended hp nofun)

theorem ownEngineStep_flags (s : State) : FlagsKept s (ownEngineStep s) ∨ JobEnded s (ownEngineStep s) := by
  rcases ownEngineStep_cases s with ⟨-, h⟩ | ⟨j, -, h⟩
  · rw [h]
    exact .inl ⟨rfl, rfl, rfl, rfl⟩
  · rw [h]
    rcases engineStep_flags (Config.freeTurn s.fresh) (useFresh s) with hk | he
    · exact .inl ⟨hk.ready, hk.done, hk.overrun, hk.result⟩
    · exact .inr ⟨he.running, he.idle, he.done, he.result, he.ready, he.overrun⟩

/-! ### Every turn -/

/-- A turn that makes a register access is that access (R55, R70). -/
theorem runEvent_of_access {e : Event} {a : RegAccess} {s : State} (h : eventAccess s.cfg e = some a) :
    runEvent e s = regAccess a s := by
  cases e
  case reg b => cases h; rfl
  case bus => cases h; rfl
  all_goals cases h

/-- A turn is a register access, resets the block, is the engine's, or keeps READY, DONE, OVERRUN and RESULT. -/
theorem runEvent_flag_cases {e : Event} {s t : State} (h : runEvent e s = .next t) :
    (∃ a, eventAccess s.cfg e = some a ∧ regAccess a s = .next t) ∨ (e = .reset ∧ t = resetBlock s) ∨
      (∃ turn, e = .engine turn ∧ t = engineStep turn s) ∨ FlagsKept s t := by
  cases e with
  | reg a => exact .inl ⟨a, rfl, h⟩
  | bus write size addr data => exact .inl ⟨_, rfl, h⟩
  | memWriteByte addr b => cases h; exact .inr (.inr (.inr (hostStoreByte_flags ..)))
  | memWriteWord addrHigh v => cases h; exact .inr (.inr (.inr (hostStoreWord_flags ..)))
  | memReadByte addr => cases h; exact .inr (.inr (.inr ⟨rfl, rfl, rfl, rfl⟩))
  | memReadWord addrHigh => cases h; exact .inr (.inr (.inr ⟨rfl, rfl, rfl, rfl⟩))
  | cacheClean => cases h; exact .inr (.inr (.inr ⟨rfl, rfl, rfl, rfl⟩))
  | cacheInvalidate => cases h; exact .inr (.inr (.inr ⟨rfl, rfl, rfl, rfl⟩))
  | otherBlock addrHigh => cases h; exact .inr (.inr (.inr (otherBlockStore_flags ..)))
  | reset => cases h; exact .inr (.inl ⟨rfl, rfl⟩)
  | engine turn => cases h; exact .inr (.inr (.inl ⟨turn, rfl, rfl⟩))

/-- The agenda is none of the four, nor does the end of a job turn on it. -/
theorem FlagsKept.of_agenda {s t : State} {rest : List Event} (h : FlagsKept { s with agenda := rest } t) :
    FlagsKept s t := ⟨h.ready, h.done, h.overrun, h.result⟩

theorem JobEnded.of_agenda {s t : State} {rest : List Event} (h : JobEnded { s with agenda := rest } t) :
    JobEnded s t := ⟨h.running, h.idle, h.done, h.result, h.ready, h.overrun⟩

/-- A step writes a register, resets the block, ends a job by the engine, or keeps READY, DONE, OVERRUN and RESULT. -/
theorem step_flag_cases {s t : State} (h : step s = .next t) :
    (∃ r v rest, NextWrites s r v ∧ regWrite r v { s with agenda := rest } = .next t) ∨
      (NextResets s ∧ ∃ u, t = resetBlock u) ∨ (NextEngine s ∧ JobEnded s t) ∨ FlagsKept s t := by
  rcases step_cases h with ⟨hnil, rfl⟩ | ⟨e, rest, hcons, hrun⟩
  · rcases ownEngineStep_flags s with hkept | hended
    · exact .inr (.inr (.inr hkept))
    · exact .inr (.inr (.inl ⟨.inl hnil, hended⟩))
  · rcases runEvent_flag_cases hrun with ⟨a, ha, hacc⟩ | ⟨rfl, rfl⟩ | ⟨turn, rfl, rfl⟩ | hkept
    · rcases regAccess_cases hacc with ⟨r, -, -, rfl⟩ | ⟨r, hw, hsize, hat, hwrite⟩
      · exact .inr (.inr (.inr ⟨rfl, rfl, rfl, rfl⟩))
      · exact .inl ⟨r, a.data, rest, ⟨e, rest, a, hcons, ha, hw, hsize, rfl, hat⟩, hwrite⟩
    · exact .inr (.inl ⟨⟨rest, hcons⟩, _, rfl⟩)
    · rcases engineStep_flags turn { s with agenda := rest } with hkept | hended
      · exact .inr (.inr (.inr hkept.of_agenda))
      · exact .inr (.inr (.inl ⟨.inr ⟨turn, rest, hcons⟩, hended.of_agenda⟩))
    · exact .inr (.inr (.inr hkept.of_agenda))

/-- A step whose turn is a supported write of a register is that write (R70). -/
theorem step_of_nextWrites {s : State} {r : RegName} {v : Word} (h : NextWrites s r v) :
    ∃ rest, step s = regWrite r v { s with agenda := rest } := by
  obtain ⟨e, rest, ⟨write, size, off, data⟩, hcons, ha, hw, hsize, hdata, hat⟩ := h
  cases hw
  cases hsize
  cases hdata
  refine ⟨rest, ?_⟩
  rw [step_of_agenda_cons hcons, runEvent_of_access (s := { s with agenda := rest }) ha, regAccess_write_at hat]

/-! ### Register writes -/

theorem regStore_ready (r : RegName) (v : Word) (s : State) : (regStore r v s).ready = s.ready := by
  rw [regStore_frame]

theorem regStore_result (r : RegName) (v : Word) (s : State) : (regStore r v s).result = s.result := by
  rw [regStore_frame]

/-- No store sets DONE: only a completion does (R27). -/
theorem done_of_regStore_done {r : RegName} {v : Word} {s : State} (h : (regStore r v s).done = true) :
    s.done = true := by
  cases r
  case status =>
    simp only [regStore, statusWrite, Bool.and_eq_true] at h
    exact h.1
  all_goals exact h

/-- A store that clears OVERRUN is a write of STATUS with bit 3 set (R28, R41). -/
theorem regStore_clears_overrun {r : RegName} {v : Word} {s : State} (hs : s.overrun = true)
    (ht : (regStore r v s).overrun = false) : r = .status ∧ v.getLsbD 3 = true := by
  cases r
  case status => exact ⟨rfl, by simpa [regStore, statusWrite, hs] using ht⟩
  all_goals exact absurd (hs.symm.trans ht) nofun

/-- A CMD write never clears OVERRUN (R28). -/
theorem commandWrite_keeps_overrun {v : Word} {s t : State} (h : commandWrite v s = .next t) (hs : s.overrun = true) :
    t.overrun = true := by
  cases hp : s.phase with
  | run j =>
    rw [commandWrite_run hp] at h
    cases h
    rfl
  | idle =>
    rcases commandWrite_idle_cases hp h with rfl | ⟨code, b, -, rfl, -⟩ | ⟨-, rfl⟩ <;> exact hs

/-- A CMD write that changes READY writes the word 1 and sets it, or the word 2 and clears it (R25). -/
theorem commandWrite_changes_ready {v : Word} {s t : State} (h : commandWrite v s = .next t) (hne : t.ready ≠ s.ready) :
    (t.ready = true ∧ v = 0x00000001#32) ∨ (t.ready = false ∧ v = 0x00000002#32) := by
  cases hp : s.phase with
  | run j =>
    rw [commandWrite_run hp] at h
    cases h
    exact absurd rfl hne
  | idle =>
    rcases commandWrite_idle_cases hp h with rfl | ⟨code, b, -, rfl, hb⟩ | ⟨-, rfl⟩
    · exact absurd rfl hne
    · exact hb.resolve_left hne
    · exact absurd rfl hne

/-- A CMD write that changes RESULT completes a command while IDLE (R29, R205). -/
theorem commandWrite_changes_result {v : Word} {s t : State} (h : commandWrite v s = .next t)
    (hne : t.result ≠ s.result) : s.phase = .idle ∧ t.done = true ∧ t.result ≠ .none := by
  cases hp : s.phase with
  | run j =>
    rw [commandWrite_run hp] at h
    cases h
    exact absurd rfl hne
  | idle =>
    rcases commandWrite_idle_cases hp h with rfl | ⟨code, b, hcode, rfl, -⟩ | ⟨-, rfl⟩
    · exact absurd rfl hne
    · exact ⟨rfl, rfl, hcode⟩
    · exact absurd rfl hne

end Sys2Proof.Machine
end

section
/-! SUPPORT. The invariant of the machine, kept by each operation. -/

namespace Sys2Proof.Machine

/-! ### Ways to keep it -/

theorem busy_of_phase_eq {s t : State} (h : t.phase = s.phase) : busy t = busy s := by
  simp [busy, h]

/-- A change that completes nothing keeps the invariant: READY and RESULT stay, DONE may fall, and a job that runs after
it ran before and is still good. -/
theorem StateInv.of_no_completion {s t : State} (hinv : StateInv s) (hmem : Memory.wf t.mem = true)
    (hjob : ∀ j, t.phase = .run j → busy s = true ∧ JobInv t.cfg j) (hready : t.ready = s.ready)
    (hdone : t.done = true → s.done = true) (hresult : t.result = s.result) : StateInv t := by
  have hbusy : busy t = true → busy s = true := by
    intro h
    obtain ⟨j, hj⟩ := (busy_iff t).1 h
    exact (hjob j hj).1
  refine ⟨hmem, fun j hj => (hjob j hj).2, fun h => ?_, fun h => ?_, fun h => ?_⟩
  · rw [hready]
    exact hinv.ready_in_job (hbusy h)
  · have := hinv.done_in_job (hbusy h)
    exact Bool.eq_false_iff.2 fun hd => by simp [hdone hd] at this
  · obtain ⟨hr, hd, hb⟩ := hinv.nothing_completed (hresult ▸ h)
    refine ⟨hready.trans hr, Bool.eq_false_iff.2 fun h' => ?_, Bool.eq_false_iff.2 fun h' => ?_⟩
    · simp [hdone h'] at hd
    · simp [hbusy h'] at hb

/-- A completion leaves the block idle with a code other than NONE, which is all the invariant asks. -/
theorem StateInv.of_completion {t : State} (hmem : Memory.wf t.mem = true) (hidle : t.phase = .idle)
    (hresult : t.result ≠ .none) : StateInv t := by
  have hbusy := busy_of_idle t hidle
  refine ⟨hmem, fun j hj => ?_, fun h => ?_, fun h => ?_, fun h => absurd h hresult⟩
  · rw [hidle] at hj
    cases hj
  · simp [hbusy] at h
  · simp [hbusy] at h

/-- A block as reset leaves it has the invariant, whatever well-formed memory surrounds it. -/
theorem StateInv.of_reset {t : State} (hmem : Memory.wf t.mem = true) (hidle : t.phase = .idle)
    (hready : t.ready = false) (hdone : t.done = false) : StateInv t := by
  have hbusy := busy_of_idle t hidle
  refine ⟨hmem, fun j hj => ?_, fun h => ?_, fun _ => hdone, fun _ => ⟨hready, hdone, hbusy⟩⟩
  · rw [hidle] at hj
    cases hj
  · simp [hbusy] at h

/-- What changes neither the phase nor a flag keeps the invariant when it keeps memory's canonical form. -/
theorem StateInv.of_flagsKept {s t : State} (hinv : StateInv s) (hflags : FlagsKept s t) (hcfg : t.cfg = s.cfg)
    (hphase : t.phase = s.phase) (hmem : Memory.wf t.mem = true) : StateInv t := by
  refine hinv.of_no_completion hmem (fun j hj => ?_) hflags.ready (fun h => hflags.done ▸ h) hflags.result
  rw [hphase] at hj
  exact ⟨busy_of_run s j hj, hcfg ▸ hinv.job j hj⟩

/-- A running job may be replaced by another good one. -/
theorem StateInv.with_job {s : State} {j k : Job} (hinv : StateInv s) (hrun : s.phase = .run j)
    (hk : JobInv s.cfg k) : StateInv { s with phase := .run k } := by
  refine hinv.of_no_completion hinv.mem_wf (fun l hl => ?_) rfl id rfl
  obtain rfl : k = l := Phase.run.inj hl
  exact ⟨busy_of_run s j hrun, hk⟩

theorem StateInv.with_agenda {s : State} (hinv : StateInv s) (rest : List Event) :
    StateInv { s with agenda := rest } :=
  hinv.of_flagsKept ⟨rfl, rfl, rfl, rfl⟩ rfl rfl hinv.mem_wf

theorem JobInv.with_loose {c : Config} {j : Job} (hj : JobInv c j) {l : List Nat} (hl : ∀ i ∈ l, i < jobSlots j) :
    JobInv c { j with loose := l } := { hj with loose_lt := hl }

/-- A slot taken off the unwritten ones leaves a good job (R59, R107). -/
theorem JobInv.erase_unwritten {c : Config} {j : Job} (hj : JobInv c j) (i : Nat) :
    JobInv c { j with unwritten := j.unwritten.erase i } :=
  { hj with
    unwritten_nodup := hj.unwritten_nodup.erase i
    unwritten_lt := fun k hk => hj.unwritten_lt k (List.mem_of_mem_erase hk) }

/-! ### Memory and the cache marks -/

theorem storeByte_inv {s : State} (hinv : StateInv s) {a : Nat} (ha : a < 2 ^ 32) (b : Byte) :
    StateInv (storeByte a b s) := by
  have hmem := storeByte_wf a b s hinv.mem_wf ha
  rw [storeByte_eq] at hmem ⊢
  exact hinv.of_flagsKept ⟨rfl, rfl, rfl, rfl⟩ rfl rfl hmem

theorem storeWord_inv {s : State} (hinv : StateInv s) {a : Nat} (ha : a + 4 ≤ 2 ^ 32) (v : Word) :
    StateInv (storeWord a v s) := by
  have hmem := storeWord_wf a v s hinv.mem_wf ha
  rw [storeWord_eq]
  exact hinv.of_flagsKept ⟨rfl, rfl, rfl, rfl⟩ rfl rfl hmem

theorem markDirty_inv {s : State} (hinv : StateInv s) (a n : Nat) : StateInv (markDirty a n s) := by
  rw [markDirty_eq]
  exact hinv.of_flagsKept ⟨rfl, rfl, rfl, rfl⟩ rfl rfl hinv.mem_wf

theorem overwriteDirty_inv {s : State} (hinv : StateInv s) (a n : Nat) : StateInv (overwriteDirty a n s) := by
  rw [overwriteDirty_eq]
  exact hinv.of_flagsKept ⟨rfl, rfl, rfl, rfl⟩ rfl rfl hinv.mem_wf

theorem addStale_inv {s : State} (hinv : StateInv s) (a n : Nat) : StateInv (addStale a n s) := by
  rw [addStale_eq]
  exact hinv.of_flagsKept ⟨rfl, rfl, rfl, rfl⟩ rfl rfl hinv.mem_wf

theorem useFresh_inv {s : State} (hinv : StateInv s) : StateInv (useFresh s) :=
  hinv.of_flagsKept ⟨rfl, rfl, rfl, rfl⟩ rfl rfl hinv.mem_wf

theorem returnData_inv {s : State} (hinv : StateInv s) (d : Option Word) : StateInv (returnData d s) :=
  hinv.of_flagsKept ⟨rfl, rfl, rfl, rfl⟩ rfl rfl hinv.mem_wf

theorem cacheClean_inv {s : State} (hinv : StateInv s) : StateInv (cacheClean s) :=
  hinv.of_flagsKept ⟨rfl, rfl, rfl, rfl⟩ rfl rfl hinv.mem_wf

theorem cacheInvalidate_inv {s : State} (hinv : StateInv s) : StateInv (cacheInvalidate s) :=
  hinv.of_flagsKept ⟨rfl, rfl, rfl, rfl⟩ rfl rfl hinv.mem_wf

/-! ### The host and other blocks -/

/-- A byte address of a slot belongs to a slot of the job. -/
theorem slotAtAddr_lt {j : Job} {a i : Nat} (h : slotAtAddr j a = some i) : i < jobSlots j := by
  unfold slotAtAddr at h
  split_ifs at h
  cases h
  omega

theorem noteInputWrite_inv {s : State} (hinv : StateInv s) (a n : Nat) : StateInv (noteInputWrite a n s) := by
  rcases noteInputWrite_cases a n s with h | ⟨j, hrun, -, h⟩
  · rwa [h]
  · rw [h]
    exact hinv.with_job hrun ((hinv.job j hrun).with_loose fun _ hi => List.mem_range.1 hi)

theorem noteOverlap_inv {s : State} (hinv : StateInv s) (a : Nat) : StateInv (noteOverlap a s) := by
  rcases noteOverlap_cases a s with h | ⟨j, i, hrun, hi, h⟩
  · rwa [h]
  · rw [h]
    refine hinv.with_job hrun ((hinv.job j hrun).with_loose fun k hk => ?_)
    rcases List.mem_cons.1 hk with rfl | hk
    · exact slotAtAddr_lt hi
    · exact (hinv.job j hrun).loose_lt k hk

/-- An aligned word lies inside the address space (R50). -/
theorem wordAddr_fits (addrHigh : BitVec 30) : wordAddr addrHigh + 4 ≤ 2 ^ 32 := by
  have := addrHigh.isLt
  unfold wordAddr
  omega

theorem hostStoreByte_inv {s : State} (hinv : StateInv s) {a : Nat} (ha : a < 2 ^ 32) (b : Byte) :
    StateInv (hostStoreByte a b s) :=
  noteInputWrite_inv (markDirty_inv (storeByte_inv hinv ha b) a 1) a 1

theorem hostStoreWord_inv {s : State} (hinv : StateInv s) {a : Nat} (ha : a + 4 ≤ 2 ^ 32) (v : Word) :
    StateInv (hostStoreWord a v s) :=
  noteInputWrite_inv (markDirty_inv (storeWord_inv hinv ha v) a 4) a 4

theorem otherBlockStore_inv {s : State} (hinv : StateInv s) {a : Nat} (ha : a + 4 ≤ 2 ^ 32) :
    StateInv (otherBlockStore a s) := by
  have hstored := storeWord_inv hinv ha (Config.looseWord s.fresh a)
  have hmarked := useFresh_inv (addStale_inv (overwriteDirty_inv hstored a 4) a 4)
  exact noteOverlap_inv (noteInputWrite_inv hmarked a 4) a

theorem hostLoadByte_inv {s : State} (hinv : StateInv s) (a : Nat) : StateInv (hostLoadByte a s) :=
  useFresh_inv (returnData_inv hinv _)

theorem hostLoadWord_inv {s : State} (hinv : StateInv s) (a : Nat) : StateInv (hostLoadWord a s) :=
  useFresh_inv (returnData_inv hinv _)

/-! ### The engine -/

theorem engineStore_inv {s : State} (hinv : StateInv s) {j : Job} {i : Nat} (hi : slotAddr j i + 4 ≤ 2 ^ 32)
    (v : Word) : StateInv (engineStore j i v s) :=
  overwriteDirty_inv (storeWord_inv hinv hi v) _ 4

theorem writeSlot_inv {s : State} {j : Job} {i : Nat} (hinv : StateInv s) (hrun : s.phase = .run j)
    (hi : i ∈ j.unwritten) (v : Word) : StateInv (writeSlot j i v s) := by
  have hj := hinv.job j hrun
  have hmarked := useFresh_inv (hinv.with_job hrun (hj.erase_unwritten i))
  exact engineStore_inv hmarked (hj.slot_fits (hj.unwritten_lt i hi)) v

/-- Loosening slots of a good job keeps memory's canonical form. -/
theorem loosenSlots_wf {c : Config} {j : Job} {l : List Nat} {s : State} (hmem : Memory.wf s.mem = true)
    (hj : JobInv c j) (hl : ∀ i ∈ l, i < jobSlots j) : Memory.wf (loosenSlots j l s).mem = true :=
  (loosenSlots_mem j l s hmem fun i hi => hj.slot_fits (hl i hi)).1

theorem completeJob_inv {s : State} {j : Job} {code : ResultCode} (hinv : StateInv s) (hrun : s.phase = .run j)
    (hcode : code ≠ .none) : StateInv (completeJob code j s) := by
  have hj := hinv.job j hrun
  rw [completeJob_eq]
  exact StateInv.of_completion (loosenSlots_wf hinv.mem_wf hj hj.loose_lt) rfl hcode

theorem engineStep_inv {s : State} (hinv : StateInv s) (turn : EngineTurn) : StateInv (engineStep turn s) := by
  cases hp : s.phase with
  | idle => simpa only [engineStep, hp] using hinv
  | run j =>
    rcases engineStep_cases turn j s hp with ⟨i, v, hi, h, -, -⟩ | ⟨-, -, h⟩ | ⟨-, h⟩
    · rw [h]
      exact writeSlot_inv hinv hp hi v
    · rw [h]
      exact completeJob_inv hinv hp nofun
    · rw [h]
      exact completeJob_inv hinv hp nofun

theorem ownEngineStep_inv {s : State} (hinv : StateInv s) : StateInv (ownEngineStep s) := by
  rcases ownEngineStep_cases s with ⟨-, h⟩ | ⟨j, -, h⟩
  · rwa [h]
  · rw [h]
    exact engineStep_inv (useFresh_inv hinv) _

/-! ### Reset -/

theorem abandonJob_wf {s : State} (hinv : StateInv s) : Memory.wf (abandonJob s).mem = true := by
  unfold abandonJob
  split
  · exact hinv.mem_wf
  · rename_i j hrun
    rw [staleOutput_eq]
    exact loosenSlots_wf hinv.mem_wf (hinv.job j hrun) fun _ hi => List.mem_range.1 hi

theorem resetBlock_inv {s : State} (hinv : StateInv s) : StateInv (resetBlock s) :=
  StateInv.of_reset (t := resetBlock s) (abandonJob_wf hinv) rfl rfl rfl

/-! ### The register port -/

theorem startJob_inv {s : State} (hinv : StateInv s) (hcheck : processCheck s = none) :
    StateInv (startJob (clearDone s)) := by
  have hready : s.ready = true := ((processCheck_passed_iff s).1 hcheck).1
  refine ⟨hinv.mem_wf, fun j hj => ?_, fun _ => hready, fun _ => rfl, fun hnone => ?_⟩
  · obtain rfl : latchJob (clearDone s) = j := Phase.run.inj hj
    exact latchJob_inv (s := clearDone s) hcheck
  · have hnot := (hinv.nothing_completed hnone).1
    rw [hready] at hnot
    cases hnot

theorem commandWrite_inv {v : Word} {s t : State} (hinv : StateInv s) (h : commandWrite v s = .next t) :
    StateInv t := by
  cases hp : s.phase with
  | run j =>
    rw [commandWrite_run hp] at h
    cases h
    exact hinv.of_no_completion hinv.mem_wf (fun k hk => ⟨busy_of_run s k hk, hinv.job k hk⟩) rfl id rfl
  | idle =>
    rcases commandWrite_idle_cases hp h with rfl | ⟨code, b, hcode, rfl, -⟩ | ⟨hcheck, rfl⟩
    · exact hinv
    · exact StateInv.of_completion hinv.mem_wf hp hcode
    · exact startJob_inv hinv hcheck

theorem regStore_inv {s : State} (hinv : StateInv s) (r : RegName) (v : Word) : StateInv (regStore r v s) := by
  have hmem : (regStore r v s).mem = s.mem := by rw [regStore_frame]
  have hphase : (regStore r v s).phase = s.phase := by rw [regStore_frame]
  have hcfg : (regStore r v s).cfg = s.cfg := by rw [regStore_frame]
  refine hinv.of_no_completion (hmem ▸ hinv.mem_wf) (fun j hj => ?_) (regStore_ready r v s) done_of_regStore_done
    (regStore_result r v s)
  rw [hphase] at hj
  exact ⟨busy_of_run s j hj, hcfg ▸ hinv.job j hj⟩

theorem regAccess_inv {a : RegAccess} {s t : State} (hinv : StateInv s) (h : regAccess a s = .next t) :
    StateInv t := by
  rcases regAccess_cases h with ⟨r, -, -, rfl⟩ | ⟨r, -, -, -, hwrite⟩
  · exact returnData_inv hinv _
  · rcases regWrite_cases hwrite with ⟨-, hcmd⟩ | ⟨-, rfl⟩
    · exact commandWrite_inv hinv hcmd
    · exact regStore_inv hinv r a.data

/-! ### Every turn -/

/-- Every agent's turn keeps the invariant. -/
theorem runEvent_inv {e : Event} {s t : State} (hinv : StateInv s) (h : runEvent e s = .next t) : StateInv t := by
  cases e with
  | reg a => exact regAccess_inv hinv h
  | bus write size addr data => exact regAccess_inv hinv h
  | memWriteByte addr b => cases h; exact hostStoreByte_inv hinv addr.isLt b
  | memWriteWord addrHigh v => cases h; exact hostStoreWord_inv hinv (wordAddr_fits addrHigh) v
  | memReadByte addr => cases h; exact hostLoadByte_inv hinv _
  | memReadWord addrHigh => cases h; exact hostLoadWord_inv hinv _
  | cacheClean => cases h; exact cacheClean_inv hinv
  | cacheInvalidate => cases h; exact cacheInvalidate_inv hinv
  | otherBlock addrHigh => cases h; exact otherBlockStore_inv hinv (wordAddr_fits addrHigh)
  | reset => cases h; exact resetBlock_inv hinv
  | engine turn => cases h; exact engineStep_inv hinv turn

end Sys2Proof.Machine
end

section
/-! The statements of 10_state.md: the registers and their values after reset, and what every step keeps. -/

namespace Sys2Proof.Machine

/-- Settles O32: a step is the engine's own turn or the first turn of the agenda, and each of the two keeps the
invariant. -/
theorem stepKeepsTheStateInvariant : Obligations.StepKeepsTheStateInvariant := by
  unfold Obligations.StepKeepsTheStateInvariant
  intro s t hinv h
  rcases step_cases h with ⟨-, rfl⟩ | ⟨e, rest, -, hrun⟩
  · exact ownEngineStep_inv hinv
  · exact runEvent_inv (hinv.with_agenda rest) hrun

/-- Settles O15: the access is the store of the row's register, which reads back masked; the frame is the store's. -/
theorem parameterRegistersReadBack : Obligations.ParameterRegistersReadBack := by
  unfold Obligations.ParameterRegistersReadBack
  intro s v off r mask hrow
  obtain ⟨hat, hcmd, hstatus, hsame⟩ := parameterRow hrow v s
  refine ⟨regStore r v s, ?_, regWrite_of_ne_cmd hcmd v s, fun d => ?_, hsame,
    fun q hq => regRead_regStore_other hstatus hq v s, ?_, ?_⟩
  · rw [regAccess_write_at hat, regWrite_of_ne_cmd hcmd]
  · rw [regAccess_read_at hat, hsame]
  · rintro rfl
    rfl
  · rw [regStore_frame]
    exact ⟨rfl, rfl, rfl, rfl, rfl, rfl, rfl, rfl⟩

/-- Settles O35: of the turns, only a CMD write and a reset can change READY. -/
theorem readyChangesOnlyByTheLifecycle : Obligations.ReadyChangesOnlyByTheLifecycle := by
  unfold Obligations.ReadyChangesOnlyByTheLifecycle
  intro s t h hne
  rcases step_flag_cases h with ⟨r, v, rest, hnext, hwrite⟩ | ⟨hreset, u, rfl⟩ | ⟨-, hended⟩ | hkept
  · rcases regWrite_cases hwrite with ⟨rfl, hcmd⟩ | ⟨-, rfl⟩
    · rcases commandWrite_changes_ready hcmd hne with ⟨ht, rfl⟩ | ⟨ht, rfl⟩
      · exact .inl ⟨ht, hnext⟩
      · exact .inr ⟨ht, .inl hnext⟩
    · exact absurd (regStore_ready ..) hne
  · exact .inr ⟨rfl, .inr hreset⟩
  · exact absurd hended.ready hne
  · exact absurd hkept.ready hne

/-- Settles O36: a CMD write while a job runs is dropped, and only a write of STATUS and a reset can clear OVERRUN. -/
theorem overrunIsSticky : Obligations.OverrunIsSticky := by
  unfold Obligations.OverrunIsSticky
  intro s t h
  refine ⟨fun v hbusy hnext => ?_, fun hs ht => ?_⟩
  · obtain ⟨j, hrun⟩ := (busy_iff s).1 hbusy
    obtain ⟨rest, hstep⟩ := step_of_nextWrites hnext
    have hdrop : step s = .next (dropCommand { s with agenda := rest }) := by
      rw [hstep]
      exact commandWrite_run (s := { s with agenda := rest }) hrun v
    rw [hdrop] at h
    cases h
    rfl
  · rcases step_flag_cases h with ⟨r, v, rest, hnext, hwrite⟩ | ⟨hreset, -⟩ | ⟨-, hended⟩ | hkept
    · rcases regWrite_cases hwrite with ⟨-, hcmd⟩ | ⟨-, rfl⟩
      · exact absurd ((commandWrite_keeps_overrun hcmd hs).symm.trans ht) nofun
      · obtain ⟨rfl, hbit⟩ := regStore_clears_overrun (s := { s with agenda := rest }) hs ht
        exact .inr ⟨v, hnext, hbit⟩
    · exact .inl hreset
    · exact absurd (hs.symm.trans (hended.overrun.symm.trans ht)) nofun
    · exact absurd (hs.symm.trans (hkept.overrun.symm.trans ht)) nofun

/-- Settles O37: of the turns, only a CMD write while IDLE, the end of a job and a reset can change RESULT. -/
theorem resultChangesOnlyAtCompletion : Obligations.ResultChangesOnlyAtCompletion := by
  unfold Obligations.ResultChangesOnlyAtCompletion
  intro s t h hne
  rcases step_flag_cases h with ⟨r, v, rest, hnext, hwrite⟩ | ⟨hreset, -⟩ | ⟨hengine, hended⟩ | hkept
  · rcases regWrite_cases hwrite with ⟨rfl, hcmd⟩ | ⟨-, rfl⟩
    · obtain ⟨hidle, hdone, hcode⟩ := commandWrite_changes_result hcmd hne
      exact .inr ⟨hdone, hcode, .inl ⟨hidle, v, hnext⟩⟩
    · exact absurd (regStore_result ..) hne
  · exact .inl hreset
  · exact .inr ⟨hended.done, hended.result, .inr ⟨hended.running, hended.idle, hengine⟩⟩
  · exact absurd hkept.result hne

/-- Settles O4: the port write at 0x04 is the write of CMD, which is the decoded command, whether the agenda or
`withFetchWord` brings it. -/
theorem stepRunsTheDecodedCommand : Obligations.StepRunsTheDecodedCommand := by
  unfold Obligations.StepRunsTheDecodedCommand
  intro s w i rest hdecode _
  have hport : ∀ u : State, regAccess ⟨true, 4, 0x04, w⟩ u = exec i u := fun u =>
    (regAccess_write_at (r := .cmd) rfl w u).trans (commandWrite_of_decode hdecode u)
  refine ⟨hport s, fun hcons => ?_, ?_⟩
  · rw [step_of_agenda_cons hcons]
    exact hport _
  · rw [step_of_agenda_cons (withFetchWord_agenda s 32 w.toNat), tableWord_toNat]
    exact hport s

/-- Settles O13, field by field from the bits of STATUS. -/
theorem statusReadsItsFields : Obligations.StatusReadsItsFields := by
  unfold Obligations.StatusReadsItsFields
  intro s
  refine ⟨getLsbD_status s 0, ?_, getLsbD_status s 2, getLsbD_status s 3, status_result s, ?_, ?_, status_reserved s⟩
  · rw [← busy_iff]
    exact iff_of_eq (congrArg (· = true) (getLsbD_status s 1))
  · rw [status_result]
    exact resultCode_mem_codes s.result
  · rw [← variantBit_set_iff, getLsbD_status]
    simp

/-- Settles O14: the access at 0x08 is the write of STATUS (R41). -/
theorem statusWriteClearsDoneAndOverrun : Obligations.StatusWriteClearsDoneAndOverrun := by
  unfold Obligations.StatusWriteClearsDoneAndOverrun
  intro s v
  rw [← statusWrite_eq, regAccess_write_at rfl]
  rfl

/-- Settles O16: each offset is its register's, and no write stores in ID or a reserved offset. -/
theorem idAndReservedOffsetsAreFixed : Obligations.IdAndReservedOffsetsAreFixed := by
  unfold Obligations.IdAndReservedOffsetsAreFixed
  intro s v
  refine ⟨regAccess_read_at (r := .id) rfl v s, regAccess_write_at (r := .id) rfl v s,
    regAccess_read_at (r := .cmd) rfl v s, fun off hoff => ?_⟩
  have hat : regAt off = some .reserved := by
    simp only [List.mem_cons, List.not_mem_nil, or_false] at hoff
    rcases hoff with rfl | rfl | rfl | rfl | rfl | rfl <;> rfl
  exact ⟨regAccess_write_at hat v s, regAccess_read_at hat v s⟩

/-- Settles O21: the level of the output is DONE and IE, a completion sets DONE, and the acknowledging write clears
it. -/
theorem interruptRisesAtCompletionAndFallsAtAck : Obligations.InterruptRisesAtCompletionAndFallsAtAck := by
  unfold Obligations.InterruptRisesAtCompletionAndFallsAtAck
  intro s code
  refine ⟨?_, fun hie => (irq_iff _).2 ⟨rfl, hie⟩, _, runEvent_ackWrite (completeWith code s), rfl, rfl⟩
  rw [irq_iff, irqEn_getLsbD_zero, getLsbD_status]
  rfl

/-- Settles O24: reset leaves every field at 0, so STATUS shows the variant alone. -/
theorem resetStateReadsAsTheSpecSays : Obligations.ResetStateReadsAsTheSpecSays := by
  unfold Obligations.ResetStateReadsAsTheSpecSays
  intro c
  refine ⟨?_, rfl, rfl, StateInv.of_reset rfl rfl rfl rfl, fun r hid hstatus => ?_⟩
  · change 0#23 ++ variantBit c.variant ++ resultCode .none ++ BitVec.ofBool false ++ BitVec.ofBool false
      ++ BitVec.ofBool false ++ BitVec.ofBool false = _
    cases c.variant <;> rfl
  · cases r
    case id => exact absurd rfl hid
    case status => exact absurd rfl hstatus
    all_goals rfl

end Sys2Proof.Machine
end

section
/-! SUPPORT. Where the engine writes: one slot at a time, and at the end of a job in slots of the job only (R53, R107 to
R109). -/

namespace Sys2Proof.Machine

/-! ### Slots and the output range -/

/-- A byte outside the job's output range is in none of its slots (R53). -/
theorem not_mem_slot_of_outside {j : Job} {a i : Nat} (ha : ¬ (slotAddr j 0 ≤ a ∧ a < slotAddr j (jobSlots j)))
    (hi : i < jobSlots j) : ¬ (slotAddr j i ≤ a ∧ a < slotAddr j i + 4) := by
  unfold slotAddr at *
  omega

/-- A byte of one slot is in no other (R53). -/
theorem not_mem_slot_of_ne {j : Job} {i l k : Nat} (hne : l ≠ i) (hk : k < 4) :
    ¬ (slotAddr j l ≤ slotAddr j i + k ∧ slotAddr j i + k < slotAddr j l + 4) := by
  unfold slotAddr
  omega

/-- A word reads the same where its four bytes do. -/
theorem Memory.readWord_congr {m n : Memory} {a : Nat}
    (h : ∀ k, k < 4 → Memory.read m (a + k) = Memory.read n (a + k)) :
    Memory.readWord m a = Memory.readWord n a := by
  have h0 : Memory.read m a = Memory.read n a := h 0 (by omega)
  unfold Memory.readWord
  rw [h 3 (by omega), h 2 (by omega), h 1 (by omega), h0]

/-! ### A slot write -/

theorem writeSlot_read_other {j : Job} {i x : Nat} {s : State} (hmem : Memory.wf s.mem = true)
    (hi : slotAddr j i + 4 ≤ 2 ^ 32) (v : Word) (hx : ¬ (slotAddr j i ≤ x ∧ x < slotAddr j i + 4)) :
    Memory.read (writeSlot j i v s).mem x = Memory.read s.mem x :=
  engineStore_read_other j i x v (useFresh { s with phase := .run { j with unwritten := j.unwritten.erase i } })
    hmem hi hx

theorem writeSlot_read_byte {j : Job} {i k : Nat} {s : State} (hmem : Memory.wf s.mem = true)
    (hi : slotAddr j i + 4 ≤ 2 ^ 32) (hok : slotOk s.cfg j i = true) (v : Word) (hk : k < 4) :
    Memory.read (writeSlot j i v s).mem (slotAddr j i + k) = wordByte v k := by
  unfold writeSlot
  rw [engineStore_mem]
  exact storeWord_read_byte _ _ _ _ hmem hi hk hok

theorem writeSlot_readWord {j : Job} {i : Nat} {s : State} (hmem : Memory.wf s.mem = true)
    (hi : slotAddr j i + 4 ≤ 2 ^ 32) (hok : slotOk s.cfg j i = true) (v : Word) :
    Memory.readWord (writeSlot j i v s).mem (slotAddr j i) = v :=
  engineStore_readWord j i v (useFresh { s with phase := .run { j with unwritten := j.unwritten.erase i } })
    hmem hi hok

@[simp] theorem writeSlot_phase (j : Job) (i : Nat) (v : Word) (s : State) :
    (writeSlot j i v s).phase = .run { j with unwritten := j.unwritten.erase i } := by
  rw [writeSlot_eq]

/-- A slot towards which no duty is broken receives its word of RES (R107). -/
theorem slotValue_of_not_loose {j : Job} {i : Nat} (h : i ∉ j.loose) (n : Nat) :
    slotValue j i n = j.res.getD i 0#32 := by
  simp [slotValue, h]

/-! ### The end of a job -/

@[simp] theorem completeJob_phase (code : ResultCode) (j : Job) (s : State) :
    (completeJob code j s).phase = .idle := by
  rw [completeJob_eq]

/-- The end of a job changes no byte outside its output range (R109, R241). -/
theorem completeJob_read_outside {j : Job} {s : State} {a : Nat} (hinv : StateInv s) (hrun : s.phase = .run j)
    (code : ResultCode) (ha : ¬ (slotAddr j 0 ≤ a ∧ a < slotAddr j (jobSlots j))) :
    Memory.read (completeJob code j s).mem a = Memory.read s.mem a := by
  have hj := hinv.job j hrun
  obtain ⟨-, hother⟩ := loosenSlots_mem j j.loose s hinv.mem_wf fun i hi => hj.slot_fits (hj.loose_lt i hi)
  rw [completeJob_eq]
  exact hother a fun i hi => not_mem_slot_of_outside ha (hj.loose_lt i hi)

/-- With no duty broken the end of a job leaves memory as it was (R108). -/
theorem completeJob_mem_of_unbroken {j : Job} (hloose : j.loose = []) (code : ResultCode) (s : State) :
    (completeJob code j s).mem = s.mem := by
  rw [completeJob_eq, hloose, loosenSlots_nil, useFresh_mem]

end Sys2Proof.Machine
end

section
/-! SUPPORT. The engine's steps alone, from a running job to its end (R59, R107 to R109). -/

namespace Sys2Proof.Machine

/-- The code a job ends with: ERR_BUS when some byte of its ranges answers with a bus error (R108, R109). -/
def jobCode (c : Config) (j : Job) : ResultCode := if jobClear c j then .ok else .errBus

theorem jobCode_of_clear {c : Config} {j : Job} (h : jobClear c j = true) : jobCode c j = .ok := by
  simp [jobCode, h]

theorem jobCode_of_faulty {c : Config} {j : Job} (h : jobClear c j = false) : jobCode c j = .errBus := by
  simp [jobCode, h]

theorem engineRun_cons (turn : EngineTurn) (turns : List EngineTurn) (s : State) :
    engineRun (turn :: turns) s = engineRun turns (engineStep turn s) := rfl

/-- While the phase is IDLE the engine has no step (R232). -/
theorem engineRun_idle {s : State} (hidle : s.phase = .idle) (turns : List EngineTurn) : engineRun turns s = s := by
  induction turns with
  | nil => rfl
  | cons turn turns ih =>
    have hstay : engineStep turn s = s := by simp [engineStep, hidle]
    rw [engineRun_cons, hstay, ih]

/-- A run of the engine with more turns than slots are left is a number of slot writes and then the end of the job:
what the end of a job establishes and each slot write before it keeps holds of the whole run. -/
theorem engineRun_induction {P : State → Job → State → Prop}
    (hwrite : ∀ s j i v u, StateInv s → s.phase = .run j → i ∈ j.unwritten →
      (jobClear s.cfg j = true → v = slotValue j i s.fresh) →
      P (writeSlot j i v s) { j with unwritten := j.unwritten.erase i } u → P s j u)
    (hend : ∀ s j, StateInv s → s.phase = .run j → (jobClear s.cfg j = true → j.unwritten = []) →
      P s j (completeJob (jobCode s.cfg j) j s))
    (turns : List EngineTurn) :
    ∀ s j, StateInv s → s.phase = .run j → j.unwritten.length < turns.length → P s j (engineRun turns s) := by
  induction turns with
  | nil =>
    intro s j _ _ hlen
    exact absurd hlen (Nat.not_lt_zero _)
  | cons turn turns ih =>
    intro s j hinv hrun hlen
    rw [List.length_cons] at hlen
    rw [engineRun_cons]
    rcases engineStep_cases turn j s hrun with ⟨i, v, hi, h, hv, -⟩ | ⟨hclear, hnone, h⟩ | ⟨hfaulty, h⟩
    · have hfewer : (j.unwritten.erase i).length < turns.length := by
        have hpos := List.length_pos_of_mem hi
        rw [List.length_erase_of_mem hi]
        omega
      rw [h]
      exact hwrite s j i v _ hinv hrun hi hv
        (ih _ _ (writeSlot_inv hinv hrun hi v) (writeSlot_phase j i v s) hfewer)
    · have hdone := hend s j hinv hrun fun _ => hnone
      rw [jobCode_of_clear hclear] at hdone
      rw [h, engineRun_idle (completeJob_phase ..)]
      exact hdone
    · have hdone := hend s j hinv hrun fun hc => absurd (hc.symm.trans hfaulty) nofun
      rw [jobCode_of_faulty hfaulty] at hdone
      rw [h, engineRun_idle (completeJob_phase ..)]
      exact hdone

/-! ### What every run leaves alone -/

/-- From `s` to `u` the job has ended with its code, and only bytes of its output range may have changed. -/
structure EndedInside (s : State) (j : Job) (u : State) : Prop where
  outside : ∀ a, ¬ (slotAddr j 0 ≤ a ∧ a < slotAddr j (jobSlots j)) → Memory.read u.mem a = Memory.read s.mem a
  frame : u = { s with phase := .idle, result := jobCode s.cfg j, done := true, mem := u.mem, dirty := u.dirty,
                       stale := u.stale, fresh := u.fresh }

theorem engineRun_endsInside {s : State} {j : Job} {turns : List EngineTurn} (hinv : StateInv s)
    (hrun : s.phase = .run j) (hlen : j.unwritten.length < turns.length) : EndedInside s j (engineRun turns s) := by
  refine engineRun_induction (P := EndedInside) ?_ ?_ turns s j hinv hrun hlen
  · intro s j i v u hinv hrun hi _ hrest
    have hj := hinv.job j hrun
    have hslot := hj.unwritten_lt i hi
    have hframe := hrest.frame
    rw [writeSlot_eq] at hframe
    refine ⟨fun a ha => ?_, hframe⟩
    calc Memory.read u.mem a = Memory.read (writeSlot j i v s).mem a := hrest.outside a ha
      _ = Memory.read s.mem a :=
        writeSlot_read_other hinv.mem_wf (hj.slot_fits hslot) v (not_mem_slot_of_outside ha hslot)
  · intro s j hinv hrun _
    refine ⟨fun a ha => completeJob_read_outside hinv hrun _ ha, ?_⟩
    rw [completeJob_eq]

/-! ### What a run of a job without a bus error writes -/

/-- From `s` to `u` each slot not yet written has received its word of RES, and no other byte has changed. -/
structure SlotsFilled (s : State) (j : Job) (u : State) : Prop where
  filled : ∀ i, i ∈ j.unwritten → Memory.readWord u.mem (slotAddr j i) = j.res.getD i 0#32
  untouched : ∀ a, (∀ i, i ∈ j.unwritten → ¬ (slotAddr j i ≤ a ∧ a < slotAddr j i + 4)) →
    Memory.read u.mem a = Memory.read s.mem a

/-- Writing one slot and then filling the others fills them all: each slot is written once (R59), so what the first
write put in its slot stands. -/
theorem SlotsFilled.of_writeSlot {s u : State} {j : Job} {i : Nat} (hinv : StateInv s) (hrun : s.phase = .run j)
    (hclear : jobClear s.cfg j = true) (hi : i ∈ j.unwritten)
    (hrest : SlotsFilled (writeSlot j i (j.res.getD i 0#32) s) { j with unwritten := j.unwritten.erase i } u) :
    SlotsFilled s j u := by
  have hj := hinv.job j hrun
  have hfits := hj.slot_fits (hj.unwritten_lt i hi)
  have hok := slotOk_of_clear hclear (hj.unwritten_lt i hi)
  refine ⟨fun l hl => ?_, fun a ha => ?_⟩
  · by_cases hli : l = i
    · subst hli
      have hkept : Memory.readWord u.mem (slotAddr j l) =
          Memory.readWord (writeSlot j l (j.res.getD l 0#32) s).mem (slotAddr j l) := by
        refine Memory.readWord_congr fun k hk => hrest.untouched _ fun m hm => ?_
        exact not_mem_slot_of_ne (hj.unwritten_nodup.mem_erase_iff.1 hm).1 hk
      rw [hkept, writeSlot_readWord hinv.mem_wf hfits hok]
    · exact hrest.filled l ((List.mem_erase_of_ne hli).2 hl)
  · calc Memory.read u.mem a = Memory.read (writeSlot j i (j.res.getD i 0#32) s).mem a :=
          hrest.untouched a fun l hl => ha l (List.mem_of_mem_erase hl)
      _ = Memory.read s.mem a := writeSlot_read_other hinv.mem_wf hfits _ (ha i hi)

theorem engineRun_fillsSlots {s : State} {j : Job} {turns : List EngineTurn} (hinv : StateInv s)
    (hrun : s.phase = .run j) (hlen : j.unwritten.length < turns.length) :
    jobClear s.cfg j = true → j.loose = [] → SlotsFilled s j (engineRun turns s) := by
  refine engineRun_induction
    (P := fun s j u => jobClear s.cfg j = true → j.loose = [] → SlotsFilled s j u) ?_ ?_ turns s j hinv hrun hlen
  · intro s j i v u hinv hrun hi hv hrest hclear hloose
    have hword : v = j.res.getD i 0#32 := by
      rw [hv hclear, slotValue_of_not_loose (by simp [hloose])]
    subst hword
    refine SlotsFilled.of_writeSlot hinv hrun hclear hi (hrest ?_ hloose)
    rw [writeSlot_cfg]
    exact hclear
  · intro s j _ _ hnone hclear hloose
    refine ⟨fun i hi => ?_, fun a _ => by rw [completeJob_mem_of_unbroken hloose]⟩
    rw [hnone hclear] at hi
    cases hi

end Sys2Proof.Machine
end

section
/-! SUPPORT. The job that PROCESS latches: its input bytes and its `loose` slots (R58, R106). -/

namespace Sys2Proof.Machine

/-- The ranges of R204 share a byte exactly when each begins before the other ends, for frames that are not empty. -/
theorem rangesOverlap_iff {s : State} (hin : 0 < frameIn s) (hout : 0 < frameSlots s) :
    RangesOverlap s ↔ s.inBase.toNat < frameOut s + 4 * frameSlots s ∧ frameOut s < s.inBase.toNat + frameIn s := by
  constructor
  · rintro ⟨a, h1, h2, h3, h4⟩
    omega
  · rintro ⟨h1, h2⟩
    exact ⟨max s.inBase.toNat (frameOut s), by omega, by omega, by omega, by omega⟩

theorem frameIn_pos {s : State} (h : DimsLegal s) : 0 < frameIn s := by
  obtain ⟨hw, hh, -⟩ := h
  rw [frameIn_eq]
  exact needIn_pos _ hw hh

theorem frameSlots_pos {s : State} (h : DimsLegal s) : 0 < frameSlots s := by
  obtain ⟨hw, hh, -⟩ := h
  exact Nat.mul_pos hw hh

/-- A PROCESS that would be accepted passes every check (R105). -/
theorem processCheck_of_ready {s : State} (h : ProcessReady s) : processCheck s = none := by
  obtain ⟨-, hready, hdims, hbounds, hapart⟩ := h
  rw [rangesOverlap_iff (frameIn_pos hdims) (frameSlots_pos hdims)] at hapart
  exact (processCheck_passed_iff s).2 ⟨hready, hdims, hbounds, hapart⟩

/-- Through a coherent port idempotent input is latched as it stands in memory (R106). -/
theorem inputAtAcceptance_coherent {s : State} (hcoherent : s.cfg.coherent = true)
    (hdevice : hitsDevice s.cfg s.inBase.toNat (frameIn s) = false) :
    inputAtAcceptance s = (List.range (frameIn s)).map fun k => Memory.read s.mem (s.inBase.toNat + k) := by
  rw [hitsDevice_false_iff] at hdevice
  unfold inputAtAcceptance opWidth opHeight
  rw [← frameIn_eq]
  refine List.map_congr_left fun k hk => ?_
  exact (readByte_coherent s _ hcoherent (hdevice k (List.mem_range.1 hk))).1

/-- A job begins with no duty broken exactly when its input is idempotent memory (R58). -/
theorem latchJob_loose_eq_nil_iff {s : State} (hslots : 0 < frameSlots s) :
    (latchJob s).loose = [] ↔ hitsDevice s.cfg s.inBase.toNat (frameIn s) = false := by
  have hloose : (latchJob s).loose =
      if hitsDevice s.cfg s.inBase.toNat (frameIn s) then List.range (frameSlots s) else [] := by
    rw [frameIn_eq]
    rfl
  rw [hloose]
  cases hitsDevice s.cfg s.inBase.toNat (frameIn s) with
  | true => simpa using hslots.ne'
  | false => simp

/-- RES of a job over idempotent input behind a coherent port is the result of the bytes in memory (R106). -/
theorem latchJob_res_coherent {s : State} (hcoherent : s.cfg.coherent = true)
    (hdevice : hitsDevice s.cfg s.inBase.toNat (frameIn s) = false) :
    (latchJob s).res = frameResult s.cfg.variant s.width.toNat s.height.toNat
      ((List.range (frameIn s)).map fun k => Memory.read s.mem (s.inBase.toNat + k)) := by
  rw [← inputAtAcceptance_coherent hcoherent hdevice]
  rfl

/-- Whether the job ends OK, said of the parameters in the registers (R108, R109). -/
theorem jobClear_latchJob (s : State) :
    jobClear s.cfg (latchJob s) =
      (rangeOk s.cfg s.inBase.toNat (frameIn s) && rangeOk s.cfg (frameOut s) (4 * frameSlots s)) := by
  rw [jobClear, jobNeedIn_latchJob, latchJob_outb_toNat, jobSlots_latchJob]
  rfl

/-- No slot of the job is written when it starts (R105). -/
theorem latchJob_unwritten (s : State) : (latchJob s).unwritten = List.range (frameSlots s) := rfl

/-- PROCESS, written while it would be accepted, starts its job (R105). -/
theorem exec_process_of_ready {s : State} (h : ProcessReady s) :
    exec .process s = .next (startJob (clearDone s)) := by
  have hidle : s.phase = .idle := h.1
  rw [← processEffect_passed (processCheck_of_ready h), ← acceptCommand_idle processEffect s hidle]
  rfl

end Sys2Proof.Machine
end

section
/-! SUPPORT. What a store leaves of the state around it, and how the running job notices it (R61, R221, R241). -/

namespace Sys2Proof.Machine

/-! ### Stores and cache marks, field by field -/

@[simp] theorem storeByte_phase (a : Nat) (b : Byte) (s : State) : (storeByte a b s).phase = s.phase := by
  simp [storeByte_eq]

@[simp] theorem storeWord_phase (a : Nat) (v : Word) (s : State) : (storeWord a v s).phase = s.phase := by
  rw [storeWord_eq]

@[simp] theorem storeWord_cfg (a : Nat) (v : Word) (s : State) : (storeWord a v s).cfg = s.cfg := by
  rw [storeWord_eq]

@[simp] theorem markDirty_phase (a n : Nat) (s : State) : (markDirty a n s).phase = s.phase := by
  rw [markDirty_eq]

@[simp] theorem markDirty_cfg (a n : Nat) (s : State) : (markDirty a n s).cfg = s.cfg := by
  rw [markDirty_eq]

@[simp] theorem markDirty_mem (a n : Nat) (s : State) : (markDirty a n s).mem = s.mem := by
  rw [markDirty_eq]

@[simp] theorem overwriteDirty_phase (a n : Nat) (s : State) : (overwriteDirty a n s).phase = s.phase := by
  rw [overwriteDirty_eq]

@[simp] theorem overwriteDirty_cfg (a n : Nat) (s : State) : (overwriteDirty a n s).cfg = s.cfg := by
  rw [overwriteDirty_eq]

@[simp] theorem overwriteDirty_mem (a n : Nat) (s : State) : (overwriteDirty a n s).mem = s.mem := by
  rw [overwriteDirty_eq]

@[simp] theorem addStale_phase (a n : Nat) (s : State) : (addStale a n s).phase = s.phase := by
  rw [addStale_eq]

@[simp] theorem addStale_cfg (a n : Nat) (s : State) : (addStale a n s).cfg = s.cfg := by
  rw [addStale_eq]

@[simp] theorem addStale_mem (a n : Nat) (s : State) : (addStale a n s).mem = s.mem := by
  rw [addStale_eq]

/-! ### Ranges of a running job -/

/-- A write meets the job's input exactly when each of the two ranges begins before the other ends (R241). -/
theorem meetsInput_iff (v : Variant) (j : Job) (a n : Nat) :
    meetsInput v j a n = true ↔ a < j.inb.toNat + jobNeedIn v j ∧ j.inb.toNat < a + n := by
  simp [meetsInput, rangesMeet]

theorem JobInv.slots_pos {c : Config} {j : Job} (hj : JobInv c j) : 0 < jobSlots j := by
  obtain ⟨hw, hh⟩ := hj.dims_pos
  exact Nat.mul_pos hw hh

theorem JobInv.input_pos {c : Config} {j : Job} (hj : JobInv c j) : 0 < jobNeedIn c.variant j := by
  obtain ⟨hw, hh⟩ := hj.dims_pos
  exact needIn_pos _ hw hh

/-- No byte of the job's input is in one of its slots (R105). -/
theorem JobInv.input_not_mem_slot {c : Config} {j : Job} (hj : JobInv c j) {a i : Nat} (hi : i < jobSlots j)
    (hlo : j.inb.toNat ≤ a) (hhi : a < j.inb.toNat + jobNeedIn c.variant j) :
    ¬ (slotAddr j i ≤ a ∧ a < slotAddr j i + 4) := by
  have hdisjoint := hj.disjoint
  unfold slotAddr
  omega

/-! ### How the running job notices a write -/

theorem noteInputWrite_idle {s : State} (hidle : s.phase = .idle) (a n : Nat) : noteInputWrite a n s = s := by
  simp [noteInputWrite, hidle]

/-- A write that meets the input makes every slot hold any value (R241). -/
theorem noteInputWrite_meets {s : State} {j : Job} {a n : Nat} (hrun : s.phase = .run j)
    (hmeets : meetsInput s.cfg.variant j a n = true) :
    noteInputWrite a n s = { s with phase := .run { j with loose := List.range (jobSlots j) } } := by
  simp [noteInputWrite, hrun, hmeets]

theorem noteInputWrite_apart {s : State} {j : Job} {a n : Nat} (hrun : s.phase = .run j)
    (hapart : meetsInput s.cfg.variant j a n = false) : noteInputWrite a n s = s := by
  simp [noteInputWrite, hrun, hapart]

/-- What the running job notices of a write depends on the phase and the build only. -/
theorem noteInputWrite_phase_congr {s u : State} (hphase : u.phase = s.phase) (hcfg : u.cfg = s.cfg) (a n : Nat) :
    (noteInputWrite a n u).phase = (noteInputWrite a n s).phase := by
  cases hp : s.phase with
  | idle => rw [noteInputWrite_idle hp, noteInputWrite_idle (hphase.trans hp), hphase]
  | run j =>
    have hu := hphase.trans hp
    cases hm : meetsInput s.cfg.variant j a n with
    | true => rw [noteInputWrite_meets hp hm, noteInputWrite_meets hu (by rwa [hcfg])]
    | false => rw [noteInputWrite_apart hp hm, noteInputWrite_apart hu (by rwa [hcfg]), hphase]

theorem noteOverlap_idle {s : State} (hidle : s.phase = .idle) (a : Nat) : noteOverlap a s = s := by
  simp [noteOverlap, hidle]

/-- Another block's write of a slot makes that slot hold any value (R221). -/
theorem noteOverlap_slot {s : State} {j : Job} {a i : Nat} (hrun : s.phase = .run j) (hslot : slotAtAddr j a = some i) :
    noteOverlap a s = { s with phase := .run { j with loose := i :: j.loose } } := by
  simp [noteOverlap, hrun, hslot]

theorem noteOverlap_apart {s : State} {j : Job} {a : Nat} (hrun : s.phase = .run j) (hnone : slotAtAddr j a = none) :
    noteOverlap a s = s := by
  simp [noteOverlap, hrun, hnone]

end Sys2Proof.Machine
end

section
/-! SUPPORT. RES of the running job as the result of the input bytes in memory, kept by each operation (R106, R241). -/

namespace Sys2Proof.Machine

/-! ### Ways to keep it -/

theorem inputNow_congr {s t : State} {j : Job} (hcfg : t.cfg = s.cfg)
    (hmem : ∀ a, j.inb.toNat ≤ a → a < j.inb.toNat + jobNeedIn s.cfg.variant j →
      Memory.read t.mem a = Memory.read s.mem a) : inputNow t j = inputNow s j := by
  unfold inputNow
  rw [hcfg]
  refine List.map_congr_left fun k hk => hmem _ (Nat.le_add_right ..) ?_
  exact Nat.add_lt_add_left (List.mem_range.1 hk) _

/-- A change is harmless when the job that runs after it with no duty broken ran before it, up to the slots already
written, and its input bytes stay. -/
theorem ResFaithful.of_input_kept {s t : State} (hf : ResFaithful s) (hcfg : t.cfg = s.cfg)
    (hkept : ∀ j, t.phase = .run j → j.loose = [] → ∃ l, s.phase = .run { j with unwritten := l } ∧
      ∀ a, j.inb.toNat ≤ a → a < j.inb.toNat + jobNeedIn s.cfg.variant j →
        Memory.read t.mem a = Memory.read s.mem a) : ResFaithful t := by
  intro j hrun hcoherent hloose
  obtain ⟨l, hbefore, hmem⟩ := hkept j hrun hloose
  rw [hcfg] at hcoherent
  rw [inputNow_congr hcfg hmem, hcfg]
  exact hf { j with unwritten := l } hbefore hcoherent hloose

theorem ResFaithful.of_kept {s t : State} (hf : ResFaithful s) (hcfg : t.cfg = s.cfg) (hphase : t.phase = s.phase)
    (hmem : t.mem = s.mem) : ResFaithful t :=
  hf.of_input_kept hcfg fun j hrun _ => ⟨j.unwritten, hphase ▸ hrun, fun _ _ _ => by rw [hmem]⟩

theorem ResFaithful.of_idle {t : State} (hidle : t.phase = .idle) : ResFaithful t := by
  intro j hrun
  rw [hidle] at hrun
  cases hrun

/-- Once a duty is broken nothing is promised (R241). -/
theorem ResFaithful.of_loose {t : State} {j : Job} (hrun : t.phase = .run j) (hloose : j.loose ≠ []) :
    ResFaithful t := by
  intro k hk _ hnil
  rw [hrun] at hk
  cases hk
  exact absurd hnil hloose

/-! ### The host and other blocks -/

/-- A write of `n` bytes from `a` on by anyone but the engine, noticed by the running job: either it meets the input and
every slot becomes loose, or the input bytes stay. -/
theorem noteInputWrite_faithful {s u : State} (hinv : StateInv s) (hf : ResFaithful s) {a n : Nat}
    (hphase : u.phase = s.phase) (hcfg : u.cfg = s.cfg)
    (hmem : ∀ x, ¬ (a ≤ x ∧ x < a + n) → Memory.read u.mem x = Memory.read s.mem x) :
    ResFaithful (noteInputWrite a n u) := by
  cases hp : s.phase with
  | idle =>
    rw [noteInputWrite_idle (hphase.trans hp)]
    exact .of_idle (hphase.trans hp)
  | run j =>
    have hu := hphase.trans hp
    cases hm : meetsInput u.cfg.variant j a n with
    | true =>
      rw [noteInputWrite_meets hu hm]
      refine .of_loose (j := { j with loose := List.range (jobSlots j) }) rfl ?_
      simpa using (hinv.job j hp).slots_pos.ne'
    | false =>
      rw [noteInputWrite_apart hu hm]
      have hapart := mt (meetsInput_iff ..).2 (Bool.eq_false_iff.1 hm)
      rw [hcfg] at hapart
      refine hf.of_input_kept hcfg fun k hk _ => ⟨k.unwritten, hphase ▸ hk, fun x hlo hhi => hmem x ?_⟩
      obtain rfl : j = k := Phase.run.inj (hu.symm.trans hk)
      omega

theorem noteOverlap_faithful {s : State} (hf : ResFaithful s) (a : Nat) : ResFaithful (noteOverlap a s) := by
  rcases noteOverlap_cases a s with h | ⟨j, i, -, -, h⟩
  · rwa [h]
  · rw [h]
    exact .of_loose rfl (List.cons_ne_nil i j.loose)

theorem hostStoreByte_faithful {s : State} (hinv : StateInv s) (hf : ResFaithful s) (a : Nat) (b : Byte) :
    ResFaithful (hostStoreByte a b s) := by
  refine noteInputWrite_faithful hinv hf (by simp) (by simp [storeByte_cfg]) fun x hx => ?_
  rw [markDirty_mem]
  exact storeByte_read_other a x b s hinv.mem_wf (by omega)

theorem hostStoreWord_faithful {s : State} (hinv : StateInv s) (hf : ResFaithful s) {a : Nat} (ha : a + 4 ≤ 2 ^ 32)
    (v : Word) : ResFaithful (hostStoreWord a v s) := by
  refine noteInputWrite_faithful hinv hf (by simp) (by simp) fun x hx => ?_
  rw [markDirty_mem]
  exact storeWord_read_other a x v s hinv.mem_wf ha hx

theorem otherBlockStore_faithful {s : State} (hinv : StateInv s) (hf : ResFaithful s) {a : Nat} (ha : a + 4 ≤ 2 ^ 32) :
    ResFaithful (otherBlockStore a s) := by
  refine noteOverlap_faithful (noteInputWrite_faithful hinv hf (by simp) (by simp) fun x hx => ?_) a
  rw [useFresh_mem, addStale_mem, overwriteDirty_mem]
  exact storeWord_read_other a x _ s hinv.mem_wf ha hx

/-! ### The engine -/

/-- An engine step writes a slot, which is none of the input (R105), or ends the job. -/
theorem engineStep_faithful {s : State} (hinv : StateInv s) (hf : ResFaithful s) (turn : EngineTurn) :
    ResFaithful (engineStep turn s) := by
  cases hp : s.phase with
  | idle => simpa only [engineStep, hp] using hf
  | run j =>
    rcases engineStep_cases turn j s hp with ⟨i, v, hi, h, -, -⟩ | ⟨-, -, h⟩ | ⟨-, h⟩
    · have hj := hinv.job j hp
      have hslot := hj.unwritten_lt i hi
      rw [h]
      refine hf.of_input_kept (writeSlot_cfg ..) fun k hk _ => ⟨j.unwritten, ?_, fun a hlo hhi => ?_⟩
      · rw [writeSlot_phase] at hk
        cases hk
        exact hp
      · rw [writeSlot_phase] at hk
        cases hk
        exact writeSlot_read_other hinv.mem_wf (hj.slot_fits hslot) v (hj.input_not_mem_slot hslot hlo hhi)
    · rw [h]
      exact .of_idle (completeJob_phase ..)
    · rw [h]
      exact .of_idle (completeJob_phase ..)

theorem ownEngineStep_faithful {s : State} (hinv : StateInv s) (hf : ResFaithful s) :
    ResFaithful (ownEngineStep s) := by
  rcases ownEngineStep_cases s with ⟨-, h⟩ | ⟨j, -, h⟩
  · rwa [h]
  · rw [h]
    exact engineStep_faithful (useFresh_inv hinv) (hf.of_kept (t := useFresh s) rfl rfl rfl) _

/-! ### The register port -/

/-- The job that PROCESS starts takes RES from the bytes in memory, unless its input is not idempotent memory, which
makes its slots loose (R58, R106). -/
theorem startJob_faithful {s : State} (hcheck : processCheck s = none) : ResFaithful (startJob (clearDone s)) := by
  obtain ⟨-, hdims, -, -⟩ := (processCheck_passed_iff s).1 hcheck
  intro j hrun hcoherent hloose
  obtain rfl : latchJob (clearDone s) = j := Phase.run.inj hrun
  have hdevice := (latchJob_loose_eq_nil_iff (s := clearDone s) (frameSlots_pos hdims)).1 hloose
  rw [latchJob_res_coherent (s := clearDone s) hcoherent hdevice, ← jobNeedIn_latchJob]
  rfl

theorem commandWrite_faithful {v : Word} {s t : State} (hf : ResFaithful s) (h : commandWrite v s = .next t) :
    ResFaithful t := by
  cases hp : s.phase with
  | run j =>
    rw [commandWrite_run hp] at h
    cases h
    exact hf.of_kept (dropCommand_cfg s) (dropCommand_phase s) (dropCommand_mem s)
  | idle =>
    rcases commandWrite_idle_cases hp h with rfl | ⟨code, b, -, rfl, -⟩ | ⟨hcheck, rfl⟩
    · exact hf
    · exact .of_idle hp
    · exact startJob_faithful hcheck

theorem regAccess_faithful {a : RegAccess} {s t : State} (hf : ResFaithful s) (h : regAccess a s = .next t) :
    ResFaithful t := by
  rcases regAccess_cases h with ⟨r, -, -, rfl⟩ | ⟨r, -, -, -, hwrite⟩
  · exact hf.of_kept rfl rfl rfl
  · rcases regWrite_cases hwrite with ⟨-, hcmd⟩ | ⟨-, rfl⟩
    · exact commandWrite_faithful hf hcmd
    · rw [regStore_frame]
      exact hf.of_kept rfl rfl rfl

/-! ### Every turn -/

theorem runEvent_faithful {e : Event} {s t : State} (hinv : StateInv s) (hf : ResFaithful s)
    (h : runEvent e s = .next t) : ResFaithful t := by
  cases e with
  | reg a => exact regAccess_faithful hf h
  | bus write size addr data => exact regAccess_faithful hf h
  | memWriteByte addr b => cases h; exact hostStoreByte_faithful hinv hf _ b
  | memWriteWord addrHigh v => cases h; exact hostStoreWord_faithful hinv hf (wordAddr_fits addrHigh) v
  | memReadByte addr => cases h; exact hf.of_kept rfl rfl rfl
  | memReadWord addrHigh => cases h; exact hf.of_kept rfl rfl rfl
  | cacheClean => cases h; exact hf.of_kept rfl rfl rfl
  | cacheInvalidate => cases h; exact hf.of_kept rfl rfl rfl
  | otherBlock addrHigh => cases h; exact otherBlockStore_faithful hinv hf (wordAddr_fits addrHigh)
  | reset => cases h; exact .of_idle rfl
  | engine turn => cases h; exact engineStep_faithful hinv hf turn

end Sys2Proof.Machine
end

section
/-! SUPPORT. One engine step of a job without a bus error, by what the turn picks (R107, R108). -/

namespace Sys2Proof.Machine

/-- A turn can pick any of the slots, and no other (R59, R107). -/
theorem mem_iff_pickSlot {slots : List Nat} {i : Nat} : i ∈ slots ↔ ∃ pick, pickSlot pick slots = some i := by
  constructor
  · intro hi
    obtain ⟨pick, hlt, hat⟩ := List.mem_iff_getElem.1 hi
    refine ⟨pick, ?_⟩
    rw [pickSlot, Nat.mod_eq_of_lt hlt, List.getElem?_eq_getElem hlt, hat]
  · rintro ⟨pick, hpick⟩
    exact pickSlot_mem hpick

theorem engineStep_of_pick {s : State} {j : Job} {turn : EngineTurn} {i : Nat} (hrun : s.phase = .run j)
    (hclear : jobClear s.cfg j = true) (hpick : pickSlot turn.pick j.unwritten = some i) :
    engineStep turn s = writeSlot j i (slotValue j i s.fresh) s := by
  simp [engineStep, hrun, hclear, clearJobStep, hpick]

theorem engineStep_of_all_written {s : State} {j : Job} (hrun : s.phase = .run j) (hclear : jobClear s.cfg j = true)
    (hnone : j.unwritten = []) (turn : EngineTurn) : engineStep turn s = completeJob .ok j s := by
  simp [engineStep, hrun, hclear, clearJobStep, hnone, pickSlot]

end Sys2Proof.Machine
end

section
/-! SUPPORT. Register accesses and memory (R50, R70), and accesses that end in a bus error (R57). -/

namespace Sys2Proof.Machine

/-- The platform address REG_BASE + off lies at offset `off` of the window (R55, R70). -/
theorem windowOffset_regBase_add (c : Config) {off : Nat} (h : off < 0x40) :
    windowOffset c (regBase c + BitVec.ofNat 32 off) = off := by
  rw [windowOffset, BitVec.add_comm, BitVec.add_sub_cancel, BitVec.toNat_ofNat]
  omega

/-- What system memory and the agents around it look like is the same in the two states. -/
structure SurroundingsKept (s t : State) : Prop where
  mem : t.mem = s.mem
  dirty : t.dirty = s.dirty
  stale : t.stale = s.stale
  agenda : t.agenda = s.agenda

theorem commandWrite_surroundings {v : Word} {s t : State} (h : commandWrite v s = .next t) : SurroundingsKept s t := by
  obtain ⟨u, hu, hframe⟩ := commandWrite_frame v s
  rw [hu] at h
  cases h
  rw [hframe]
  exact ⟨rfl, rfl, rfl, rfl⟩

theorem regAccess_surroundings {a : RegAccess} {s t : State} (h : regAccess a s = .next t) : SurroundingsKept s t := by
  rcases regAccess_cases h with ⟨r, -, -, rfl⟩ | ⟨r, -, -, -, hwrite⟩
  · exact ⟨rfl, rfl, rfl, rfl⟩
  · rcases regWrite_cases hwrite with ⟨-, hcmd⟩ | ⟨-, rfl⟩
    · exact commandWrite_surroundings hcmd
    · rw [regStore_frame]
      exact ⟨rfl, rfl, rfl, rfl⟩

/-- A byte store where the platform answers with a bus error changes nothing (R57). -/
theorem storeByte_of_busError {s : State} {a : Nat} (h : memOk s.cfg a = false) (b : Byte) : storeByte a b s = s := by
  simp [storeByte, h]

/-- No byte store, there or elsewhere, changes a byte where the platform answers with a bus error (R57). -/
theorem storeByte_read_of_busError {s : State} {x : Nat} (hmem : Memory.wf s.mem = true) (h : memOk s.cfg x = false)
    (a : Nat) (b : Byte) : Memory.read (storeByte a b s).mem x = Memory.read s.mem x := by
  by_cases hx : x = a
  · rw [storeByte_of_busError (hx ▸ h)]
  · exact storeByte_read_other a x b s hmem hx

/-- Nor does a word store (R57). -/
theorem storeWord_read_of_busError {s : State} {a x : Nat} (hmem : Memory.wf s.mem = true) (ha : a + 4 ≤ 2 ^ 32)
    (h : memOk s.cfg x = false) (v : Word) : Memory.read (storeWord a v s).mem x = Memory.read s.mem x := by
  have h0 := storeByte_wf a (wordByte v 0) s hmem (by omega)
  have h1 := storeByte_wf (a + 1) (wordByte v 1) _ h0 (by omega)
  have h2 := storeByte_wf (a + 2) (wordByte v 2) _ h1 (by omega)
  unfold storeWord
  rw [storeByte_read_of_busError h2 (by simpa [storeByte_cfg] using h),
    storeByte_read_of_busError h1 (by simpa [storeByte_cfg] using h),
    storeByte_read_of_busError h0 (by simpa [storeByte_cfg] using h), storeByte_read_of_busError hmem h]

end Sys2Proof.Machine
end

section
/-! SUPPORT. Stores by the host and by other blocks, as the memory port and the running job see them (R60, R61,
R221). -/

namespace Sys2Proof.Machine

@[simp] theorem hostStoreByte_mem (a : Nat) (b : Byte) (s : State) :
    (hostStoreByte a b s).mem = (storeByte a b s).mem := by
  rw [hostStoreByte_eq]

@[simp] theorem hostStoreWord_mem (a : Nat) (v : Word) (s : State) :
    (hostStoreWord a v s).mem = (storeWord a v s).mem := by
  rw [hostStoreWord_eq]

@[simp] theorem otherBlockStore_mem (a : Nat) (s : State) :
    (otherBlockStore a s).mem = (storeWord a (Config.looseWord s.fresh a) s).mem := by
  rw [otherBlockStore_eq]

/-! ### What the engine reads -/

/-- Idempotent memory that hides no host write reads as it stands (R52, R60). -/
theorem engineReadByte_of_visible {s : State} {a : Nat} (hvisible : s.cfg.coherent = true ∨ a ∉ s.dirty)
    (hdevice : isDevice s.cfg a = false) : engineReadByte s a = Memory.read s.mem a := by
  rcases hvisible with h | h <;> simp [engineReadByte, h, hdevice]

/-! ### What a store does to the running job -/

theorem hostStoreByte_phase (a : Nat) (b : Byte) (s : State) :
    (hostStoreByte a b s).phase = (noteInputWrite a 1 s).phase :=
  noteInputWrite_phase_congr (by simp) (by simp [storeByte_cfg]) a 1

theorem hostStoreWord_phase (a : Nat) (v : Word) (s : State) :
    (hostStoreWord a v s).phase = (noteInputWrite a 4 s).phase :=
  noteInputWrite_phase_congr (by simp) (by simp) a 4

/-- What the running job notices of another block's write depends on the phase only. -/
theorem noteOverlap_phase_congr {s u : State} (hphase : u.phase = s.phase) (a : Nat) :
    (noteOverlap a u).phase = (noteOverlap a s).phase := by
  cases hp : s.phase with
  | idle => rw [noteOverlap_idle hp, noteOverlap_idle (hphase.trans hp), hphase]
  | run j =>
    have hu := hphase.trans hp
    cases hslot : slotAtAddr j a with
    | none => rw [noteOverlap_apart hp hslot, noteOverlap_apart hu hslot, hphase]
    | some i => rw [noteOverlap_slot hp hslot, noteOverlap_slot hu hslot]

theorem otherBlockStore_phase (a : Nat) (s : State) :
    (otherBlockStore a s).phase = (noteOverlap a (noteInputWrite a 4 s)).phase :=
  noteOverlap_phase_congr (noteInputWrite_phase_congr (by simp) (by simp) a 4) a

/-! ### Aligned words and slots -/

/-- A range of addresses meets the job's input when they share a byte (R241). -/
theorem JobInv.meetsInput_iff_exists {c : Config} {j : Job} (hj : JobInv c j) {a n : Nat} (hn : 0 < n) :
    meetsInput c.variant j a n = true ↔
      ∃ x, a ≤ x ∧ x < a + n ∧ j.inb.toNat ≤ x ∧ x < j.inb.toNat + jobNeedIn c.variant j := by
  have hpos := hj.input_pos
  rw [meetsInput_iff]
  constructor
  · rintro ⟨h1, h2⟩
    exact ⟨max a j.inb.toNat, by omega, by omega, by omega, by omega⟩
  · rintro ⟨x, h1, h2, h3, h4⟩
    omega

theorem meetsInput_byte_iff (v : Variant) (j : Job) (a : Nat) :
    meetsInput v j a 1 = true ↔ j.inb.toNat ≤ a ∧ a < j.inb.toNat + jobNeedIn v j := by
  rw [meetsInput_iff]
  omega

theorem slotAtAddr_slotAddr {j : Job} {i : Nat} (hi : i < jobSlots j) : slotAtAddr j (slotAddr j i) = some i :=
  slotAtAddr_slot j hi (Nat.zero_lt_succ 3)

/-- A byte of an aligned word that is no slot of the job belongs to no slot of it (R56). -/
theorem JobInv.slotAtAddr_eq_none {c : Config} {j : Job} (hj : JobInv c j) {a k : Nat} (ha : a % 4 = 0) (hk : k < 4)
    (hno : ∀ i, i < jobSlots j → a ≠ slotAddr j i) : slotAtAddr j (a + k) = none := by
  have haligned := hj.out_aligned
  unfold slotAtAddr
  rw [if_neg]
  rintro ⟨hlo, hhi⟩
  refine hno ((a - j.outb.toNat) / 4) (by omega) ?_
  unfold slotAddr
  omega

/-- A slot of the job is no part of its input (R105). -/
theorem JobInv.slot_apart {c : Config} {j : Job} (hj : JobInv c j) {i : Nat} (hi : i < jobSlots j) :
    meetsInput c.variant j (slotAddr j i) 4 = false := by
  have hdisjoint := hj.disjoint
  rw [Bool.eq_false_iff, Ne, meetsInput_iff, slotAddr]
  omega

/-! ### The phase after a write to memory -/

/-- What a write of `n` bytes from `a` on does to the running job (R241). -/
theorem noteInputWrite_phase_of_run {s : State} {j : Job} (hrun : s.phase = .run j) (a n : Nat) :
    (meetsInput s.cfg.variant j a n = true →
        (noteInputWrite a n s).phase = .run { j with loose := List.range (jobSlots j) }) ∧
      (meetsInput s.cfg.variant j a n = false → (noteInputWrite a n s).phase = s.phase) :=
  ⟨fun h => by rw [noteInputWrite_meets hrun h], fun h => by rw [noteInputWrite_apart hrun h]⟩

/-- Another block's word that meets the input is no slot, so it makes every slot hold any value (R221, R241). -/
theorem otherBlockStore_phase_of_meets {s : State} {j : Job} {a : Nat} (hj : JobInv s.cfg j) (hrun : s.phase = .run j)
    (ha : a % 4 = 0) (hmeets : meetsInput s.cfg.variant j a 4 = true) :
    (otherBlockStore a s).phase = .run { j with loose := List.range (jobSlots j) } := by
  have hno : ∀ i, i < jobSlots j → a ≠ slotAddr j i := by
    rintro i hi rfl
    exact absurd (hmeets.symm.trans (hj.slot_apart hi)) nofun
  have hnone : slotAtAddr j a = none := hj.slotAtAddr_eq_none (k := 0) ha (by omega) hno
  rw [otherBlockStore_phase, noteInputWrite_meets hrun hmeets,
    noteOverlap_apart (j := { j with loose := List.range (jobSlots j) }) rfl hnone]

/-- Another block's word over a slot makes that slot hold any value (R221). -/
theorem otherBlockStore_phase_of_slot {s : State} {j : Job} {i : Nat} (hj : JobInv s.cfg j) (hrun : s.phase = .run j)
    (hi : i < jobSlots j) :
    (otherBlockStore (slotAddr j i) s).phase = .run { j with loose := i :: j.loose } := by
  rw [otherBlockStore_phase, noteInputWrite_apart hrun (hj.slot_apart hi),
    noteOverlap_slot hrun (slotAtAddr_slotAddr hi)]

/-- Any other word of another block leaves the running job alone. -/
theorem otherBlockStore_phase_of_apart {s : State} {j : Job} {a : Nat} (hj : JobInv s.cfg j) (hrun : s.phase = .run j)
    (ha : a % 4 = 0) (hapart : meetsInput s.cfg.variant j a 4 = false) (hno : ∀ i, i < jobSlots j → a ≠ slotAddr j i) :
    (otherBlockStore a s).phase = s.phase := by
  have hnone : slotAtAddr j a = none := hj.slotAtAddr_eq_none (k := 0) ha (by omega) hno
  rw [otherBlockStore_phase, noteInputWrite_apart hrun hapart, noteOverlap_apart hrun hnone]

end Sys2Proof.Machine
end

section
/-! SUPPORT. What a host read of memory returns (R57, R58, R60, R61). -/

namespace Sys2Proof.Machine

/-- A host without a stale copy reads idempotent memory as it sees it (R60). -/
theorem hostReadByte_of_discarded {s : State} {a : Nat} (hdiscarded : a ∉ s.stale)
    (hdevice : isDevice s.cfg a = false) : hostReadByte s a = hostSees s a := by
  simp [hostReadByte, hdiscarded, hdevice]

theorem hostReadWord_of_mem {s : State} {a : Nat}
    (h : ∀ k, k < 4 → hostReadByte s (a + k) = Memory.read s.mem (a + k)) :
    hostReadWord s a = Memory.readWord s.mem a := by
  have h0 : hostReadByte s a = Memory.read s.mem a := h 0 (by omega)
  unfold hostReadWord Memory.readWord
  rw [h 3 (by omega), h 2 (by omega), h 1 (by omega), h0]

theorem hostReadWord_of_bytes {s : State} {a : Nat} {v : Word}
    (h : ∀ k, k < 4 → hostReadByte s (a + k) = wordByte v k) : hostReadWord s a = v := by
  have h0 : hostReadByte s a = wordByte v 0 := h 0 (by omega)
  unfold hostReadWord
  rw [h 3 (by omega), h 2 (by omega), h 1 (by omega), h0]
  exact word_of_bytes v

/-- A byte that belongs to no slot of the running job is seen as it stands (R58). -/
theorem hostSees_outside_slots {s : State} {j : Job} {a : Nat} (hrun : s.phase = .run j)
    (hnone : slotAtAddr j a = none) : hostSees s a = Memory.read s.mem a := by
  simp [hostSees, hrun, hnone]

/-- A slot of the running job is seen whole, as it was at acceptance or as it stands (R61 item 3). -/
theorem hostReadWord_slot {s : State} {j : Job} {i : Nat} (hrun : s.phase = .run j) (hi : i < jobSlots j)
    (hsees : ∀ k, k < 4 → hostReadByte s (slotAddr j i + k) = hostSees s (slotAddr j i + k)) :
    hostReadWord s (slotAddr j i) = j.old.getD i 0#32 ∨
      hostReadWord s (slotAddr j i) = Memory.readWord s.mem (slotAddr j i) := by
  cases hcoherent : s.cfg.coherent with
  | true =>
    exact .inr (hostReadWord_of_mem fun k hk => (hsees k hk).trans (hostSees_coherent s _ hcoherent))
  | false =>
    rcases hostSees_slot s j hrun hcoherent hi with hold | hnow
    · exact .inl (hostReadWord_of_bytes fun k hk => (hsees k hk).trans (hold k hk))
    · exact .inr (hostReadWord_of_mem fun k hk => (hsees k hk).trans (hnow k hk))

/-- A word read where the platform answers returns the word and changes nothing else. -/
theorem runEvent_memReadWord {s : State} {addrHigh : BitVec 30} {v : Word}
    (hok : rangeOk s.cfg (4 * addrHigh.toNat) 4 = true) (hv : hostReadWord s (4 * addrHigh.toNat) = v) :
    runEvent (.memReadWord addrHigh) s = .next { s with busData := some v, fresh := s.fresh + 1 } := by
  simp [runEvent, hostLoadWord, wordAddr, hok, hv, returnData, useFresh]

/-- A word read with a bus error at some byte delivers no data (R57). -/
theorem runEvent_memReadWord_of_busError {s : State} {addrHigh : BitVec 30}
    (hbad : rangeOk s.cfg (4 * addrHigh.toNat) 4 = false) :
    runEvent (.memReadWord addrHigh) s = .next { s with busData := none, fresh := s.fresh + 1 } := by
  simp [runEvent, hostLoadWord, wordAddr, hbad, returnData, useFresh]

theorem hostLoadByte_of_busError {s : State} {a : Nat} (hbad : memOk s.cfg a = false) :
    hostLoadByte a s = { s with busData := none, fresh := s.fresh + 1 } := by
  simp [hostLoadByte, hbad, returnData, useFresh]

theorem hostLoadByte_of_ok {s : State} {a : Nat} (hok : memOk s.cfg a = true) :
    hostLoadByte a s = { s with busData := some ((hostReadByte s a).setWidth 32), fresh := s.fresh + 1 } := by
  simp [hostLoadByte, hok, returnData, useFresh]

end Sys2Proof.Machine
end

section
/-! The statements of 20_memory.md: what the engine writes, what RES stays, and what the accesses of the host, of other
blocks and of the register port do to memory. -/

namespace Sys2Proof.Machine

/-- Settles O28, by the induction over the engine's turns: once for what every run leaves alone, once for what a run
with no duty broken writes. -/
theorem clearJobWritesEverySlotInAnyOrder : Obligations.ClearJobWritesEverySlotInAnyOrder := by
  unfold Obligations.ClearJobWritesEverySlotInAnyOrder
  intro s j turns hinv hrun hclear hlen
  have hended := engineRun_endsInside hinv hrun hlen
  have hfilled := engineRun_fillsSlots hinv hrun hlen hclear
  have hframe := hended.frame
  rw [jobCode_of_clear hclear] at hframe
  exact ⟨fun hloose => (hfilled hloose).filled, fun hloose => (hfilled hloose).untouched, hended.outside, hframe⟩

/-- Settles O30, by the same induction over the engine's turns. -/
theorem faultyJobEndsWithErrBus : Obligations.FaultyJobEndsWithErrBus := by
  unfold Obligations.FaultyJobEndsWithErrBus
  intro s j turns hinv hrun hfaulty hlen
  have hended := engineRun_endsInside hinv hrun hlen
  have hframe := hended.frame
  rw [jobCode_of_faulty hfaulty] at hframe
  exact ⟨hended.outside, hframe⟩

/-- Settles O29: the command latches a job with no duty broken and no bus error, whose RES is the result of the bytes in
memory, and the run fills the slots of that job. -/
theorem processedFrameHoldsItsResult : Obligations.ProcessedFrameHoldsItsResult := by
  unfold Obligations.ProcessedFrameHoldsItsResult
  intro s turns hinv hready hcoherent hinOk houtOk hdevice hlen
  refine ⟨startJob (clearDone s), exec_process_of_ready hready, ?_⟩
  have hstart := startJob_inv hinv (processCheck_of_ready hready)
  have hout := latchJob_outb_toNat (clearDone s)
  obtain ⟨hidle, -, hdims, -⟩ := hready
  have hclear : jobClear s.cfg (latchJob (clearDone s)) = true :=
    (jobClear_latchJob (clearDone s)).trans (Bool.and_eq_true_iff.2 ⟨hinOk, houtOk⟩)
  have hloose : (latchJob (clearDone s)).loose = [] :=
    (latchJob_loose_eq_nil_iff (s := clearDone s) (frameSlots_pos hdims)).2 hdevice
  have hcount : (latchJob (clearDone s)).unwritten.length < turns.length := by
    rw [latchJob_unwritten, List.length_range]
    exact hlen
  have hended := engineRun_endsInside hstart rfl hcount
  have hfilled := engineRun_fillsSlots hstart rfl hcount hclear hloose
  refine ⟨fun i hi => ?_, fun a ha => ?_, ?_⟩
  · have hslot := hfilled.filled i (List.mem_range.2 hi)
    rw [latchJob_res_coherent (s := clearDone s) hcoherent hdevice, slotAddr, hout] at hslot
    exact hslot
  · refine hended.outside a ?_
    rw [slotAddr, slotAddr, hout]
    exact ha
  · have hframe := hended.frame
    rw [jobCode_of_clear (c := (startJob (clearDone s)).cfg) hclear] at hframe
    rw [hframe]
    simp [hidle]

/-- Settles O33: a step is the engine's own turn or the first turn of the agenda, and each of the two keeps RES
faithful. -/
theorem stepKeepsTheResultFaithful : Obligations.StepKeepsTheResultFaithful := by
  unfold Obligations.StepKeepsTheResultFaithful
  intro s t hinv hf h
  rcases step_cases h with ⟨-, rfl⟩ | ⟨e, rest, -, hrun⟩
  · exact ownEngineStep_faithful hinv hf
  · exact runEvent_faithful (hinv.with_agenda rest) (hf.of_kept rfl rfl rfl) hrun

/-- Settles O20: the two accesses have the same offset in the window. -/
theorem busAccessActsAtItsOffset : Obligations.BusAccessActsAtItsOffset := by
  unfold Obligations.BusAccessActsAtItsOffset
  intro s write size off d hoff
  rw [runEvent, windowOffset_regBase_add s.cfg hoff]

/-- Settles O25: the step is the write of the slot it picks. -/
theorem engineStepWritesOneSlot : Obligations.EngineStepWritesOneSlot := by
  unfold Obligations.EngineStepWritesOneSlot
  intro s j turn i hinv hrun hclear hpick
  have hj := hinv.job j hrun
  have hi := hj.unwritten_lt i (pickSlot_mem hpick)
  have hfits := hj.slot_fits hi
  rw [engineStep_of_pick hrun hclear hpick]
  refine ⟨fun hloose k hk => ?_, fun a ha => writeSlot_read_other hinv.mem_wf hfits _ ha, ?_⟩
  · rw [slotValue_of_not_loose hloose]
    exact writeSlot_read_byte hinv.mem_wf hfits (slotOk_of_clear hclear hi) _ hk
  · rw [writeSlot_eq]

/-- Settles O27: the step is the completion of the job. -/
theorem lastEngineStepCompletesOk : Obligations.LastEngineStepCompletesOk := by
  unfold Obligations.LastEngineStepCompletesOk
  intro s j turn hrun hclear hnone
  rw [engineStep_of_all_written hrun hclear hnone]
  refine ⟨by rw [completeJob_eq], fun a => ?_, fun hloose => ⟨completeJob_mem_of_unbroken hloose .ok s, ?_⟩,
    fun hinv a ha => completeJob_read_outside hinv hrun .ok ha⟩
  · rw [completeJob_eq]
    exact mem_staleOutput j a s
  · rw [completeJob_eq, hloose, loosenSlots_nil, useFresh_dirty]

/-- Settles O38, by the cases of a register access. -/
theorem registerAccessesLeaveMemoryAlone : Obligations.RegisterAccessesLeaveMemoryAlone := by
  unfold Obligations.RegisterAccessesLeaveMemoryAlone
  intro s t a h
  have hkept := regAccess_surroundings h
  exact ⟨hkept.mem, hkept.dirty, hkept.stale, hkept.agenda⟩

/-- Settles O39: a store passes over each byte that does not answer, and a read there delivers nothing. -/
theorem busErrorChangesNothing : Obligations.BusErrorChangesNothing := by
  unfold Obligations.BusErrorChangesNothing
  intro s
  refine ⟨fun a b hbad => ⟨storeByte_of_busError hbad b, ?_⟩,
    fun a k v hinv ha _ hbad => storeWord_read_of_busError hinv.mem_wf ha hbad v,
    fun a hbad => congrArg _ (hostLoadByte_of_busError hbad),
    fun addrHigh hbad => runEvent_memReadWord_of_busError hbad⟩
  rw [hostLoadByte_of_busError hbad]

/-- Settles O40: the byte is in memory at once, and a clean or a coherent port hides no host write. -/
theorem hostStoreReachesTheEngine : Obligations.HostStoreReachesTheEngine := by
  unfold Obligations.HostStoreReachesTheEngine
  intro s a b hinv hok hdevice
  have hstored : Memory.read (hostStoreByte a.toNat b s).mem a.toNat = b := by
    rw [hostStoreByte_mem]
    exact storeByte_read_same _ b s hinv.mem_wf hok
  have hdevice' : isDevice (hostStoreByte a.toNat b s).cfg a.toNat = false := by rwa [hostStoreByte_cfg]
  refine ⟨hostStoreByte a.toNat b s, rfl, ?_, fun hcoherent => ?_, fun x hx => ?_, ?_⟩
  · exact (engineReadByte_of_visible (s := cacheClean _) (.inr List.not_mem_nil) hdevice').trans hstored
  · rw [engineReadByte_of_visible (.inl (by rwa [hostStoreByte_cfg])) hdevice']
    exact hstored
  · rw [hostStoreByte_mem]
    exact storeByte_read_other _ x b s hinv.mem_wf hx
  · rw [hostStoreByte_eq]

/-- Settles O41: each store changes its own bytes, and the running job notices it where it meets the input or, for
another block's, a slot. -/
theorem hostStoreToInputLoosensTheJob : Obligations.HostStoreToInputLoosensTheJob := by
  unfold Obligations.HostStoreToInputLoosensTheJob
  intro s
  refine ⟨fun a b => ⟨hostStoreByte a.toNat b s, rfl, by rw [hostStoreByte_eq], fun hinv x hx => ?_, fun hidle => ?_,
    fun j hrun => ?_⟩, ?_⟩
  · rw [hostStoreByte_mem]
    exact storeByte_read_other _ x b s hinv.mem_wf hx
  · rw [hostStoreByte_phase, noteInputWrite_idle hidle, hidle]
  · rw [hostStoreByte_phase, ← meetsInput_byte_iff, Bool.not_eq_true]
    exact noteInputWrite_phase_of_run hrun _ 1
  intro addrHigh v hinv a meets
  have hfits : a + 4 ≤ 2 ^ 32 := wordAddr_fits addrHigh
  have haligned : a % 4 = 0 := Nat.mul_mod_right 4 _
  have hmeets : ∀ j, s.phase = .run j → (meets j ↔ meetsInput s.cfg.variant j a 4 = true) := fun j hrun =>
    ((hinv.job j hrun).meetsInput_iff_exists (by decide)).symm
  refine ⟨⟨hostStoreWord a v s, rfl, by rw [hostStoreWord_eq], fun hok => ?_, fun x hx => ?_, fun hidle => ?_,
      fun j hrun => ?_⟩,
    otherBlockStore a s, rfl, by rw [otherBlockStore_eq], fun x hx => ?_, fun hidle => ?_, fun j hrun => ?_⟩
  · rw [hostStoreWord_mem]
    exact storeWord_readWord _ v s hinv.mem_wf hfits hok
  · rw [hostStoreWord_mem]
    exact storeWord_read_other _ x v s hinv.mem_wf hfits hx
  · rw [hostStoreWord_phase, noteInputWrite_idle hidle, hidle]
  · rw [hostStoreWord_phase, hmeets j hrun, Bool.not_eq_true]
    exact noteInputWrite_phase_of_run hrun a 4
  · rw [otherBlockStore_mem]
    exact storeWord_read_other _ x _ s hinv.mem_wf hfits hx
  · rw [otherBlockStore_phase, noteInputWrite_idle hidle, noteOverlap_idle hidle, hidle]
  · have hj := hinv.job j hrun
    rw [hmeets j hrun, Bool.not_eq_true]
    refine ⟨otherBlockStore_phase_of_meets hj hrun haligned, fun i hi hslot => ?_,
      otherBlockStore_phase_of_apart hj hrun haligned⟩
    rw [hslot]
    exact otherBlockStore_phase_of_slot hj hrun hi

/-- Settles O42: byte by byte the host sees memory as it stands, or through a port that is not coherent one of the two
whole values of a slot. -/
theorem hostReadReturnsTheWholeWord : Obligations.HostReadReturnsTheWholeWord := by
  unfold Obligations.HostReadReturnsTheWholeWord
  intro s addrHigh
  refine ⟨fun hok hdevice => ?_, fun b hcoherent hok hdevice => ?_, rfl⟩
  · rw [hitsDevice_false_iff] at hdevice
    have haligned : 4 * addrHigh.toNat % 4 = 0 := Nat.mul_mod_right 4 _
    refine ⟨fun hcoherent => ?_, fun hdiscarded hidle => ?_,
      fun j hinv hdiscarded hrun => ⟨fun i hi hslot => ?_, fun hno => ?_⟩⟩
    · refine runEvent_memReadWord hok (hostReadWord_of_mem fun k hk => ?_)
      exact (readByte_coherent s _ hcoherent (hdevice k hk)).2
    · refine runEvent_memReadWord hok (hostReadWord_of_mem fun k hk => ?_)
      rw [hostReadByte_of_discarded (hdiscarded k hk) (hdevice k hk), hostSees_idle s _ hidle]
    · have hsees : ∀ k, k < 4 → hostReadByte s (slotAddr j i + k) = hostSees s (slotAddr j i + k) := by
        rw [← hslot]
        exact fun k hk => hostReadByte_of_discarded (hdiscarded k hk) (hdevice k hk)
      have hword := hostReadWord_slot hrun hi hsees
      rw [← hslot] at hword
      exact hword.imp (runEvent_memReadWord hok) (runEvent_memReadWord hok)
    · refine runEvent_memReadWord hok (hostReadWord_of_mem fun k hk => ?_)
      have hnone := (hinv.job j hrun).slotAtAddr_eq_none haligned hk hno
      rw [hostReadByte_of_discarded (hdiscarded k hk) (hdevice k hk), hostSees_outside_slots hrun hnone]
  · rw [runEvent, hostLoadByte_of_ok hok, (readByte_coherent s _ hcoherent hdevice).2]

/-- Settles O26: a slot's own index picks it. -/
theorem everyUnwrittenSlotMayComeNext : Obligations.EveryUnwrittenSlotMayComeNext := by
  unfold Obligations.EveryUnwrittenSlotMayComeNext
  intro slots i
  exact mem_iff_pickSlot

end Sys2Proof.Machine
end

section
/-! SUPPORT. The decoder on every word (R71 to R73): the encodings, and the two kinds of reserved word. -/

namespace Sys2Proof

theorem decode_encode (i : Instr) : decode (encode i) = .ok i := by
  cases i <;> rfl

/-- A command's word is its encoding, and no other word is (R72). -/
theorem decode_ok_iff (w : Word) (i : Instr) : decode w = .ok i ↔ w = encode i := by
  constructor
  · exact encode_of_decode
  · rintro rfl
    exact decode_encode i

theorem decode_of_rsvd_ne {w : Word} (h : rsvdField w ≠ 0#28) : decode w = .error .reservedBits := if_pos h

/-- The opcodes from 4 on are no command's (R72, R73). -/
theorem decodeOpc_of_four_le {o : BitVec 4} (h : 4 ≤ o.toNat) : decodeOpc o = .error .reservedOpcode := by
  have hne : ∀ i, o ≠ opcode i := by
    rintro i rfl
    cases i <;> exact absurd h (by decide)
  exact (if_neg (hne .nop)).trans <| (if_neg (hne .init)).trans <| (if_neg (hne .cleanup)).trans <|
    if_neg (hne .process)

theorem decode_of_opc_reserved {w : Word} (hrsvd : rsvdField w = 0#28) (hopc : 4 ≤ (opcField w).toNat) :
    decode w = .error .reservedOpcode := by
  unfold decode
  rw [if_neg (not_not.2 hrsvd)]
  exact decodeOpc_of_four_le hopc

end Sys2Proof

namespace Sys2Proof.Machine

/-- The table numbers a command's word by its value (R75). -/
theorem decodeTableWord_of_decode {w : Word} {i : Instr} (h : decode w = .ok i) :
    decodeTableWord 32 w.toNat = some i := by
  have hfits : ¬ 2 ^ 32 ≤ w.toNat % 2 ^ 32 := by omega
  unfold decodeTableWord
  rw [if_neg hfits, tableWord_toNat, h]

end Sys2Proof.Machine
end

section
/-! SUPPORT. Which register accesses, and which turns, answer a next state (R70). -/

namespace Sys2Proof.Machine

/-! ### Register accesses -/

theorem commandWrite_answers (v : Word) (s : State) : ∃ t, commandWrite v s = .next t := by
  cases hd : decode v with
  | error e => exact ⟨illegalWord s, by simp [commandWrite, hd]⟩
  | ok i =>
    obtain ⟨t, hexec, -⟩ := exec_frame i s
    exact ⟨t, (commandWrite_of_decode hd s).trans hexec⟩

theorem regWrite_answers (r : RegName) (v : Word) (s : State) : ∃ t, regWrite r v s = .next t := by
  by_cases hcmd : r = .cmd
  · subst hcmd
    exact commandWrite_answers v s
  · exact ⟨_, regWrite_of_ne_cmd hcmd v s⟩

/-- The three conditions of R70 on a supported access. -/
theorem regAccess_wf_iff (a : RegAccess) : a.wf = true ↔ a.size = 4 ∧ a.off % 4 = 0 ∧ a.off < 0x40 := by
  simp [RegAccess.wf, RegAccess.fullWidth, RegAccess.aligned, RegAccess.inWindow, and_assoc]

/-- No register stands at or above the end of the window (R70). -/
theorem regAt_of_outside {off : Nat} (h : 0x40 ≤ off) : regAt off = none := by
  cases hr : regAt off with
  | none => rfl
  | some r => exact absurd (regAt_some hr).2 (by omega)

/-- A supported access is a read or a write of the register at its offset, and both answer. -/
theorem regAccess_of_wf {a : RegAccess} (h : a.wf = true) (s : State) : ∃ t, regAccess a s = .next t := by
  obtain ⟨write, size, off, data⟩ := a
  obtain ⟨rfl, haligned, hwindow⟩ := (regAccess_wf_iff _).1 h
  obtain ⟨r, hat⟩ := regAt_of_aligned haligned hwindow
  cases write with
  | false => exact ⟨_, regAccess_read_at hat data s⟩
  | true =>
    rw [regAccess_write_at hat]
    exact regWrite_answers r data s

/-- An access that fails one of the conditions of R70 is refused. -/
theorem regAccess_of_not_wf {a : RegAccess} (h : a.wf = false) (s : State) : ∃ r, regAccess a s = .refused r := by
  cases hwidth : a.fullWidth with
  | false => exact ⟨.unsupportedWidth, by simp [regAccess, hwidth]⟩
  | true =>
    cases haligned : a.aligned with
    | false => exact ⟨.misalignedAccess, by simp [regAccess, hwidth, haligned]⟩
    | true =>
      have houtside : 0x40 ≤ a.off := by simpa [RegAccess.wf, RegAccess.inWindow, hwidth, haligned] using h
      exact ⟨.outsideWindow, by simp [regAccess, hwidth, haligned, regAt_of_outside houtside]⟩

/-! ### Turns -/

/-- A turn without a register access always answers (R205, R246). -/
theorem runEvent_answers_of_no_access {e : Event} {s : State} (h : eventAccess s.cfg e = none) :
    ∃ t, runEvent e s = .next t := by
  cases e
  case reg => cases h
  case bus => cases h
  all_goals exact ⟨_, rfl⟩

/-- A turn answers a next state, or it is a register access that R70 does not support. -/
theorem runEvent_answers_or_refuses (e : Event) (s : State) :
    (∃ t, runEvent e s = .next t) ∨
      ∃ a r, eventAccess s.cfg e = some a ∧ a.wf = false ∧ runEvent e s = .refused r := by
  cases haccess : eventAccess s.cfg e with
  | none => exact .inl (runEvent_answers_of_no_access haccess)
  | some a =>
    rw [runEvent_of_access haccess]
    cases hwf : a.wf with
    | true => exact .inl (regAccess_of_wf hwf s)
    | false =>
      obtain ⟨r, hrefused⟩ := regAccess_of_not_wf hwf s
      exact .inr ⟨a, r, rfl, hwf, hrefused⟩

/-! ### The register map -/

/-- The register map of 10_state.md, row by row: each offset and its register. -/
def registerMap : List (Nat × RegName) :=
  [(0x00, .id), (0x04, .cmd), (0x08, .status), (0x0C, .irqEn), (0x10, .width), (0x14, .height), (0x18, .inBase),
    (0x1C, .inLen), (0x20, .outBase), (0x24, .outLen), (0x28, .reserved), (0x2C, .reserved), (0x30, .reserved),
    (0x34, .reserved), (0x38, .reserved), (0x3C, .reserved)]

/-- The map has a row for every register offset, and no other row. -/
theorem mem_registerMap_iff {off : Nat} {r : RegName} : (off, r) ∈ registerMap ↔ regAt off = some r := by
  constructor
  · have hrows : ∀ row ∈ registerMap, regAt row.1 = some row.2 := by decide
    exact hrows (off, r)
  · intro hat
    unfold regAt at hat
    split at hat <;> cases hat <;> decide

end Sys2Proof.Machine
end

section
/-! SUPPORT. The job that PROCESS latches, said of the parameters in the registers (R105, R106). -/

namespace Sys2Proof.Machine

/-- The latched job, its operands assembled in the words of `Safety` (R74). -/
theorem latchJob_eq (s : State) :
    latchJob s =
      { w := s.width
        h := s.height
        inb := s.inBase
        outb := opOutBase s
        res := frameResult s.cfg.variant s.width.toNat s.height.toNat
          ((List.range (frameIn s)).map fun k => engineReadByte s (s.inBase.toNat + k))
        old := (List.range (frameSlots s)).map fun i => Memory.readWord s.mem (frameOut s + 4 * i)
        unwritten := List.range (frameSlots s)
        loose := if hitsDevice s.cfg s.inBase.toNat (frameIn s) then List.range (frameSlots s) else [] } := by
  simp only [frameIn_eq, frameOut, ← opOutBase_toNat]
  rfl

/-- DONE is no operand of PROCESS (R74). -/
theorem latchJob_clearDone (s : State) : latchJob (clearDone s) = latchJob s := rfl

/-- What the start of a job changes: DONE, the phase and the supply of free values (R105). -/
theorem startJob_clearDone_eq (s : State) :
    startJob (clearDone s) = { s with done := false, fresh := s.fresh + 1, phase := .run (latchJob s) } := by
  rw [← latchJob_clearDone]
  rfl

end Sys2Proof.Machine
end

section
/-! The statements of 30_encoding.md: the command words, the accesses of the register port, and the command that starts
a job. -/

namespace Sys2Proof.Machine

/-- Settles O1: a command's word is its encoding. -/
theorem decodeMapsExactlyTheFourWords : Obligations.DecodeMapsExactlyTheFourWords := by
  unfold Obligations.DecodeMapsExactlyTheFourWords
  intro w
  exact ⟨decode_ok_iff w .nop, decode_ok_iff w .init, decode_ok_iff w .cleanup, decode_ok_iff w .process⟩

/-- Settles O9: PROCESS passes its checks, so it starts the job, which is the latched one. -/
theorem processAcceptedStartsTheJob : Obligations.ProcessAcceptedStartsTheJob := by
  unfold Obligations.ProcessAcceptedStartsTheJob
  intro s hready
  refine ⟨commandWrite_of_decode (decode_encode .process) s, ?_⟩
  rw [exec_process_of_ready hready, startJob_clearDone_eq, latchJob_eq]

/-- Settles O18: the two directions of R70. -/
theorem onlyUnsupportedAccessesAreRefused : Obligations.OnlyUnsupportedAccessesAreRefused := by
  unfold Obligations.OnlyUnsupportedAccessesAreRefused
  intro s a
  exact ⟨fun hwf => regAccess_of_wf hwf s, fun hwf => regAccess_of_not_wf hwf s⟩

/-- Settles O19: with no turn left the engine's own turn answers, and of the turns only an unsupported access is
refused. -/
theorem stepStopsOnlyAtUnsupportedAccesses : Obligations.StepStopsOnlyAtUnsupportedAccesses := by
  unfold Obligations.StepStopsOnlyAtUnsupportedAccesses
  intro s
  cases hagenda : s.agenda with
  | nil => exact .inl ⟨_, step_of_agenda_nil hagenda⟩
  | cons e rest =>
    rw [step_of_agenda_cons hagenda]
    rcases runEvent_answers_or_refuses e { s with agenda := rest } with hanswers | ⟨a, r, haccess, hwf, hrefused⟩
    · exact .inl hanswers
    · exact .inr ⟨e, rest, a, r, rfl, haccess, hwf, hrefused⟩

/-- Settles O2: the encoding decodes to its command, and the table numbers it by its value. -/
theorem decodeOfEncodeIsTheCommand : Obligations.DecodeOfEncodeIsTheCommand := by
  unfold Obligations.DecodeOfEncodeIsTheCommand
  intro i _
  exact ⟨decode_encode i, decodeTableWord_of_decode (decode_encode i)⟩

/-- Settles O3: four of the words are encodings, 0x4 has a reserved opcode, and 0x13 has a reserved bit set. -/
theorem decodeReadsSpecWords : Obligations.DecodeReadsSpecWords := by
  unfold Obligations.DecodeReadsSpecWords
  refine ⟨decode_encode .nop, decode_encode .init, decode_encode .cleanup, decode_encode .process, ?_, ?_⟩
  · exact decode_of_opc_reserved (by decide) (by decide)
  · exact decode_of_rsvd_ne (by decide)

/-- Settles O17: the offset is its register's in the register map, and a read there only returns its value. -/
theorem readsHaveNoSideEffect : Obligations.ReadsHaveNoSideEffect := by
  unfold Obligations.ReadsHaveNoSideEffect
  intro s off d r hrow
  exact regAccess_read_at (mem_registerMap_iff.1 hrow) d s

end Sys2Proof.Machine
end

section
/-! SUPPORT. The lifecycle commands and illegal words by the phase (R100 to R103, R110), STATUS after a completion OK,
and the frame that RES is computed from (R106). -/

namespace Sys2Proof.Machine

/-! ### Commands by the phase -/

/-- While a job runs every command is dropped: its word is (R100, R209). -/
theorem exec_run {s : State} {j : Job} (hrun : s.phase = .run j) (i : Instr) :
    exec i s = .next { s with overrun := true } :=
  (commandWrite_of_decode (decode_encode i) s).symm.trans (commandWrite_run hrun (encode i))

theorem exec_nop_idle {s : State} (hidle : s.phase = .idle) : exec .nop s = .next s :=
  congrArg Host.Outcome.next (acceptCommand_idle _ s hidle)

theorem exec_init_idle {s : State} (hidle : s.phase = .idle) :
    exec .init s = .next { s with ready := true, result := .ok, done := true } :=
  congrArg Host.Outcome.next (acceptCommand_idle _ s hidle)

theorem exec_cleanup_idle {s : State} (hidle : s.phase = .idle) :
    exec .cleanup s = .next { s with ready := false, result := .ok, done := true } :=
  congrArg Host.Outcome.next (acceptCommand_idle _ s hidle)

/-! ### Illegal words -/

/-- A word with a reserved bit set, or with an opcode of no command, is illegal (R73). -/
theorem decode_illegal {v : Word} (h : rsvdField v ≠ 0#28 ∨ 4 ≤ (opcField v).toNat) : ∃ e, decode v = .error e := by
  by_cases hrsvd : rsvdField v = 0#28
  · exact ⟨_, decode_of_opc_reserved hrsvd (h.resolve_left (not_not.2 hrsvd))⟩
  · exact ⟨_, decode_of_rsvd_ne hrsvd⟩

theorem commandWrite_illegal_idle {v : Word} {s : State} {e : DecodeError} (hidle : s.phase = .idle)
    (hdecode : decode v = .error e) : commandWrite v s = .next { s with result := .errIllegalCmd, done := true } := by
  have hillegal : commandWrite v s = .next (illegalWord s) := by simp [commandWrite, hdecode]
  rw [hillegal, illegalWord, acceptCommand_idle _ s hidle]
  rfl

/-! ### STATUS of an idle VISION block -/

/-- After a completion OK, with OVERRUN clear, only READY is left open in STATUS (R24). -/
theorem status_of_ok {s : State} (hvariant : s.cfg.variant = .vision) (hidle : s.phase = .idle)
    (hresult : s.result = .ok) (hoverrun : s.overrun = false) (hdone : s.done = true) :
    regRead .status s = if s.ready then 0x00000015#32 else 0x00000014#32 := by
  change statusWord s = _
  rw [statusWord_fields, hvariant, busy_of_idle s hidle, hresult, hoverrun, hdone]
  cases s.ready <;> rfl

theorem idle_of_not_busy {s : State} (h : busy s = false) : s.phase = .idle := by
  cases hp : s.phase with
  | idle => rfl
  | run j => exact absurd h (by simp [busy_of_run s j hp])

/-- STATUS 0x15 is read from an idle VISION block with OVERRUN clear (R24). -/
theorem fields_of_status_ready_ok {s : State} (h : regRead .status s = 0x00000015#32) :
    s.cfg.variant = .vision ∧ s.phase = .idle ∧ s.overrun = false := by
  have hbit := getLsbD_status s
  rw [h] at hbit
  refine ⟨?_, idle_of_not_busy (hbit 1).symm, (hbit 3).symm⟩
  cases hvariant : s.cfg.variant with
  | vision => rfl
  | fallback =>
    have h8 : false = (variantBit s.cfg.variant).getLsbD 0 := hbit 8
    rw [hvariant] at h8
    exact absurd h8 (by decide)

/-! ### The frame -/

/-- RES, said of the variant, the dimensions and the input bytes (R106). -/
theorem latchJob_res (s : State) :
    (latchJob s).res = frameResult s.cfg.variant s.width.toNat s.height.toNat
      ((List.range (frameIn s)).map fun k => engineReadByte s (s.inBase.toNat + k)) := by
  rw [latchJob_eq]

/-- The number of input bytes follows from the variant and the dimensions (R105). -/
theorem frameIn_congr {s s' : State} (hvariant : s.cfg.variant = s'.cfg.variant) (hwidth : s.width = s'.width)
    (hheight : s.height = s'.height) : frameIn s = frameIn s' := by
  unfold frameIn
  rw [hvariant, hwidth, hheight]

end Sys2Proof.Machine
end

section
/-! The statements of 40_commands.md: the lifecycle commands, illegal words, and what a frame's result is made of. -/

namespace Sys2Proof.Machine

/-- Settles O11: the word decodes to no command, and the port write at 0x04 is the write of CMD. -/
theorem illegalWordOnlyRecordsItsCode : Obligations.IllegalWordOnlyRecordsItsCode := by
  unfold Obligations.IllegalWordOnlyRecordsItsCode
  intro s v hidle hword
  obtain ⟨e, hdecode⟩ := decode_illegal hword
  have hcmd := commandWrite_illegal_idle hidle hdecode
  exact ⟨hcmd, (regAccess_write_at (r := .cmd) rfl v s).trans hcmd⟩

/-- Settles O59: no stage changes the dimensions, and every word is packed from three bytes. -/
theorem everySlotHasOpaqueAlpha : Obligations.EverySlotHasOpaqueAlpha := by
  unfold Obligations.EverySlotHasOpaqueAlpha
  intro v w h input
  exact ⟨frameResult_length v w h input, fun _ hx => frameResult_alpha hx⟩

/-- Settles O6, by the phase. -/
theorem nopHasNoEffect : Obligations.NopHasNoEffect := by
  unfold Obligations.NopHasNoEffect
  intro s
  exact ⟨commandWrite_of_decode (decode_encode .nop) s, exec_nop_idle, fun _ hrun => exec_run hrun .nop⟩

/-- Settles O7, by the phase; READY during a job is the invariant's, and reset leaves STATUS to READY alone. -/
theorem initMakesReady : Obligations.InitMakesReady := by
  unfold Obligations.InitMakesReady
  intro s
  refine ⟨commandWrite_of_decode (decode_encode .init) s, exec_init_idle, fun _ hrun => exec_run hrun .init,
    fun hinv => hinv.ready_in_job, fun c hvariant => ?_⟩
  exact ⟨_, exec_init_idle rfl, status_of_ok hvariant rfl rfl rfl rfl⟩

/-- Settles O8, by the phase; STATUS 0x15 shows an idle VISION block with OVERRUN clear, and CLEANUP keeps all three. -/
theorem cleanupMakesUninitialized : Obligations.CleanupMakesUninitialized := by
  unfold Obligations.CleanupMakesUninitialized
  intro s
  refine ⟨commandWrite_of_decode (decode_encode .cleanup) s, ⟨resetBlock s, rfl, rfl⟩, exec_cleanup_idle,
    fun _ hrun => exec_run hrun .cleanup, fun hstatus => ?_⟩
  obtain ⟨hvariant, hidle, hoverrun⟩ := fields_of_status_ready_ok hstatus
  exact ⟨_, exec_cleanup_idle hidle, status_of_ok hvariant hidle rfl hoverrun rfl⟩

/-- Settles O60: equal variants and dimensions ask for equally many bytes, and RES is computed from these alone. -/
theorem resultDependsOnTheFrameOnly : Obligations.ResultDependsOnTheFrameOnly := by
  unfold Obligations.ResultDependsOnTheFrameOnly
  intro s s' hvariant hwidth hheight hbytes
  have hinput : ((List.range (frameIn s)).map fun k => engineReadByte s (s.inBase.toNat + k)) =
      (List.range (frameIn s')).map fun k => engineReadByte s' (s'.inBase.toNat + k) := by
    rw [← frameIn_congr hvariant hwidth hheight]
    exact List.map_congr_left fun k hk => hbytes k (List.mem_range.1 hk)
  rw [latchJob_res, latchJob_res, hinput, hvariant, hwidth, hheight]

end Sys2Proof.Machine
end

section
/-! SUPPORT. The NV21 layout (R120, R121), one pixel's colour and grey (R122, R123, R125), and the pixels of their images
(R126). -/

namespace Sys2Proof.Machine

/-! ### The planes of the frame (R120) -/

/-- Every index of a plane is that of a position inside it: the converse of `index_lt`. -/
theorem exists_position_of_lt {w n m : Nat} (hm : m < w * n) : ∃ x y, x < w ∧ y < n ∧ m = y * w + x := by
  have hw : 0 < w := Nat.pos_of_mul_pos_right (Nat.zero_lt_of_lt hm)
  exact ⟨m % w, m / w, Nat.mod_lt m hw, Nat.div_lt_of_lt_mul hm, (Nat.div_add_mod' m w).symm⟩

/-- The input is the luma plane and then the chroma plane, half as high. -/
theorem needIn_vision_planes (w h : Nat) : needIn .vision w h = w * h + w * (h / 2) := Nat.mul_add ..

theorem needIn_vision_of_even {w h : Nat} (hh : h % 2 = 0) : needIn .vision w h = w * h * 3 / 2 := by
  obtain ⟨b, rfl⟩ := Nat.dvd_of_mod_eq_zero hh
  have hframe : w * (2 * b) = 2 * (w * b) := Nat.mul_left_comm ..
  rw [needIn_vision_planes, Nat.mul_div_cancel_left b Nat.two_pos, hframe]
  omega

theorem luma_index_lt {w h x y : Nat} (hx : x < w) (hy : y < h) : y * w + x < needIn .vision w h := by
  have hplane := index_lt hx hy
  rw [needIn_vision_planes]
  omega

/-- The U byte, the second of the pair, lies inside the chroma plane. -/
theorem chroma_index_lt {w h x y : Nat} (hw : w % 2 = 0) (hh : h % 2 = 0) (hx : x < w) (hy : y < h) :
    w * h + (y / 2) * w + 2 * (x / 2) + 1 < needIn .vision w h := by
  have hcol : 2 * (x / 2) + 1 < w := by omega
  have hrow : y / 2 < h / 2 := by omega
  have hplane := index_lt hcol hrow
  rw [needIn_vision_planes]
  omega

/-- Every input byte is some pixel's luma, V or U byte: row `r` of the chroma plane is read by the pixels of row `2*r`. -/
theorem exists_pixel_reading {w h k : Nat} (hk : k < needIn .vision w h) :
    ∃ x y, x < w ∧ y < h ∧
      (k = y * w + x ∨ k = w * h + (y / 2) * w + 2 * (x / 2) ∨ k = w * h + (y / 2) * w + 2 * (x / 2) + 1) := by
  rw [needIn_vision_planes] at hk
  by_cases hluma : k < w * h
  · obtain ⟨x, y, hx, hy, hpos⟩ := exists_position_of_lt hluma
    exact ⟨x, y, hx, hy, .inl hpos⟩
  · obtain ⟨x, r, hx, hr, hpos⟩ := exists_position_of_lt (show k - w * h < w * (h / 2) by omega)
    refine ⟨x, 2 * r, hx, by omega, .inr ?_⟩
    rw [Nat.mul_div_cancel_left r Nat.two_pos]
    omega

/-! ### Shared chroma (R121) -/

theorem chromaU_block (input : List Byte) (w h x y : Nat) :
    chromaU input w h x y = chromaU input w h (2 * (x / 2)) (2 * (y / 2)) := by
  simp only [chromaU, Nat.mul_div_cancel_left _ Nat.two_pos]

theorem chromaV_block (input : List Byte) (w h x y : Nat) :
    chromaV input w h x y = chromaV input w h (2 * (x / 2)) (2 * (y / 2)) := by
  simp only [chromaV, Nat.mul_div_cancel_left _ Nat.two_pos]

/-! ### Saturation (R10) -/

theorem sat8_of_nonpos {v : Int} (h : v ≤ 0) : sat8 v = 0 := by
  unfold sat8
  omega

theorem sat8_of_ge {v : Int} (h : 255 ≤ v) : sat8 v = 255 := by
  unfold sat8
  omega

/-- A small negative sum floors to -1, not to 0 (R123). -/
theorem floor_small_negative {z : Int} (hlow : -1048576 ≤ z) (hneg : z < 0) : z / 1048576 = -1 := by omega

/-! ### YUV to RGB (R122, R123) -/

/-- `yy` of R122. -/
def lumaTerm (y : Nat) : Int := max 0 ((y : Int) - 16) * 1220542

/-- `ruv` of R122. -/
def redTerm (v : Nat) : Int := 524288 + 1673527 * ((v : Int) - 128)

/-- `guv` of R122. -/
def greenTerm (u v : Nat) : Int := 524288 - 852492 * ((v : Int) - 128) - 409993 * ((u : Int) - 128)

/-- `buv` of R122. -/
def blueTerm (u : Nat) : Int := 524288 + 2116026 * ((u : Int) - 128)

/-- One channel from its sum: the shift and the saturation of R122. -/
def channel (sum : Int) : Nat := sat8 (sum / 1048576)

theorem yuvToRgb_eq (y u v : Nat) :
    yuvToRgb y u v =
      ⟨channel (lumaTerm y + redTerm v), channel (lumaTerm y + greenTerm u v), channel (lumaTerm y + blueTerm u)⟩ :=
  rfl

theorem lumaTerm_bounds {y : Nat} (hy : y ≤ 255) : 0 ≤ lumaTerm y ∧ lumaTerm y ≤ 291709538 := by
  unfold lumaTerm
  omega

theorem redTerm_bounds {v : Nat} (hv : v ≤ 255) : -213687168 ≤ redTerm v ∧ redTerm v ≤ 213062217 := by
  unfold redTerm
  omega

theorem greenTerm_bounds {u v : Nat} (hu : u ≤ 255) (hv : v ≤ 255) :
    -159811307 ≤ greenTerm u v ∧ greenTerm u v ≤ 162122368 := by
  unfold greenTerm
  omega

theorem blueTerm_bounds {u : Nat} (hu : u ≤ 255) : -270327040 ≤ blueTerm u ∧ blueTerm u ≤ 269259590 := by
  unfold blueTerm
  omega

/-- At neutral chroma only the rounding term is added, so the three channels are equal. -/
theorem yuvToRgb_neutral (y : Nat) :
    yuvToRgb y 128 128 =
      ⟨channel (lumaTerm y + 524288), channel (lumaTerm y + 524288), channel (lumaTerm y + 524288)⟩ :=
  yuvToRgb_eq y 128 128

theorem lumaTerm_of_black {y : Nat} (hy : y ≤ 16) : lumaTerm y = 0 := by
  unfold lumaTerm
  omega

theorem channel_of_white {y : Nat} (hy : 235 ≤ y) : channel (lumaTerm y + 524288) = 255 := by
  apply sat8_of_ge
  unfold lumaTerm
  omega

theorem yuvToRgb_black {y : Nat} (hy : y ≤ 16) : yuvToRgb y 128 128 = ⟨0, 0, 0⟩ := by
  rw [yuvToRgb_neutral, lumaTerm_of_black hy]
  rfl

theorem yuvToRgb_white {y : Nat} (hy : 235 ≤ y) : yuvToRgb y 128 128 = ⟨255, 255, 255⟩ := by
  rw [yuvToRgb_neutral, channel_of_white hy]

/-! ### RGB to grey (R125) -/

theorem rgbToGray_eq (r g b : Nat) : rgbToGray ⟨r, g, b⟩ = (4899 * r + 9617 * g + 1868 * b + 8192) / 16384 := rfl

theorem greySum_le {r g b : Nat} (hr : r ≤ 255) (hg : g ≤ 255) (hb : b ≤ 255) :
    4899 * r + 9617 * g + 1868 * b + 8192 ≤ 4186112 := by omega

theorem rgbToGray_le {r g b : Nat} (hr : r ≤ 255) (hg : g ≤ 255) (hb : b ≤ 255) : rgbToGray ⟨r, g, b⟩ ≤ 255 := by
  have hsum := greySum_le hr hg hb
  rw [rgbToGray_eq]
  omega

/-- The weights sum to 2^14, so equal channels give themselves. -/
theorem rgbToGray_equal_channels (v : Nat) : rgbToGray ⟨v, v, v⟩ = v := by
  rw [rgbToGray_eq]
  omega

/-! ### Pixels of the converter's images (R126) -/

theorem pixel_nv21ToRgb (input : List Byte) {w h x y : Nat} (hx : x < w) (hy : y < h) :
    pixel (nv21ToRgb input w h) x y =
      yuvToRgb (lumaAt input w x y) (chromaU input w h x y) (chromaV input w h x y) := by
  rw [nv21ToRgb, pixel_tabulate _ hx hy]

theorem pixel_grayImage {img : Image Rgb} {x y : Nat} (hx : x < img.w) (hy : y < img.h) :
    pixel (grayImage img) x y = rgbToGray (pixel img x y) := by
  rw [grayImage, pixel_tabulate _ hx hy]

end Sys2Proof.Machine
end

section
/-! The statements of 41_colour_convert.md: the NV21 layout, the two conversions of a pixel, and the grey image. -/

namespace Sys2Proof.Machine

/-- Settles O43, plane by plane: a pixel's indexes lie in the luma and the chroma plane, and each index of either plane
is read. -/
theorem nv21ReadsExactlyTheInput : Obligations.Nv21ReadsExactlyTheInput := by
  unfold Obligations.Nv21ReadsExactlyTheInput
  intro input w h hw hh
  refine ⟨needIn_vision_of_even hh, fun x y hx hy => ?_, fun k hk => exists_pixel_reading hk⟩
  exact ⟨inByte_le _ _, inByte_le _ _, inByte_le _ _, rfl, luma_index_lt hx hy, rfl, rfl, chroma_index_lt hw hh hx hy⟩

/-- Settles O44: the bounds of the sums follow from those of their terms, and the corner cases from the channels at
neutral chroma. -/
theorem yuvToRgbFormulaAndBounds : Obligations.YuvToRgbFormulaAndBounds := by
  unfold Obligations.YuvToRgbFormulaAndBounds
  intro y u v hy hu hv ruv guv buv yy
  obtain ⟨hyy, hyy'⟩ : 0 ≤ yy ∧ yy ≤ 291709538 := lumaTerm_bounds hy
  obtain ⟨hr, hr'⟩ : -213687168 ≤ ruv ∧ ruv ≤ 213062217 := redTerm_bounds hv
  obtain ⟨hg, hg'⟩ : -159811307 ≤ guv ∧ guv ≤ 162122368 := greenTerm_bounds hu hv
  obtain ⟨hb, hb'⟩ : -270327040 ≤ buv ∧ buv ≤ 269259590 := blueTerm_bounds hu
  have hsums : ∀ c ∈ [ruv, guv, buv], -270327040 ≤ yy + c ∧ yy + c ≤ 560969128 := by
    intro c hc
    obtain rfl | rfl | rfl : c = ruv ∨ c = guv ∨ c = buv := by
      simpa only [List.mem_cons, List.not_mem_nil, or_false] using hc
    all_goals omega
  have hfloor : ∀ z : Int, -1048576 ≤ z → z < 0 → z / 1048576 = -1 ∧ sat8 (z / 1048576) = 0 := by
    intro z hlow hneg
    have hz := floor_small_negative hlow hneg
    exact ⟨hz, sat8_of_nonpos (by omega)⟩
  exact ⟨yuvToRgb_eq y u v, hyy, hyy', hr, hr', hg, hg', hb, hb', hsums, hfloor, yuvToRgb_neutral y, yuvToRgb_black,
    yuvToRgb_white, by decide, by decide, by decide, by decide⟩

/-- Settles O45: the weights sum to 2^14, which gives the bound and the value of equal channels. -/
theorem greyIsTheWeightedSum : Obligations.GreyIsTheWeightedSum := by
  unfold Obligations.GreyIsTheWeightedSum
  intro r g b v hr hg hb
  exact ⟨rgbToGray_eq r g b, greySum_le hr hg hb, rgbToGray_le hr hg hb, rgbToGray_equal_channels v,
    by decide, by decide, by decide, by decide⟩

/-- Settles O46: the stages keep the frame's positions, and a 2×2 block reads one chroma pair. -/
theorem colourConverterOutput : Obligations.ColourConverterOutput := by
  unfold Obligations.ColourConverterOutput
  intro input w h x y hx hy
  refine ⟨?_, chromaU_block input w h x y, chromaV_block input w h x y⟩
  rw [resize_eq, pixel_grayImage hx hy, pixel_nv21ToRgb input hx hy]

end Sys2Proof.Machine
end

section
/-! SUPPORT. The reflect-101 border (R140), and the filter as the kernel's weighted sum along the rows and then down the
columns (R141 to R143). -/

namespace Sys2Proof.Machine

/-! ### The reflect-101 border (R140) -/

theorem reflectLoop_of_neg {n p : Int} (k : Nat) (hp : p < 0) : reflectLoop n (k + 1) p = reflectLoop n k (-p) := by
  simp [reflectLoop, hp]

theorem reflectLoop_of_ge {n p : Int} (k : Nat) (hp : 0 ≤ p) (hn : n ≤ p) :
    reflectLoop n (k + 1) p = reflectLoop n k (2 * (n - 1) - p) := by
  simp [reflectLoop, hp.not_gt, hn]

@[simp] theorem reflect101_one (p : Int) : reflect101 p 1 = 0 := rfl

theorem reflectLoop_mem {p : Int} {n k : Nat} (hn : 2 ≤ n) (hk : p.natAbs < k) :
    0 ≤ reflectLoop n k p ∧ reflectLoop n k p < n := by
  obtain ⟨hlow, hhigh, -⟩ := reflectLoop_settles n (by omega) k p (fun _ => by omega) (fun _ => hk)
  exact ⟨hlow, hhigh⟩

/-- Any number of passes above `|p|` gives the border, so the passes left after one of them are enough too. -/
theorem reflect101_eq_loop {p : Int} {n : Nat} (k : Nat) (hn : 2 ≤ n) (hk : p.natAbs < k) :
    (reflect101 p n : Int) = reflectLoop n k p := by
  obtain ⟨hlow, -, hmore⟩ :=
    reflectLoop_settles n (by omega) (p.natAbs + 1) p (fun _ => by omega) (fun _ => by omega)
  rw [reflect101, if_neg (by omega), hmore _ (by omega), Int.toNat_of_nonneg hlow, hmore k hk]

theorem reflect101_lt (p : Int) {n : Nat} (hn : 1 ≤ n) : reflect101 p n < n := by
  obtain rfl | hn : n = 1 ∨ 2 ≤ n := by omega
  · simp
  · have hk : p.natAbs < p.natAbs + 1 := Nat.lt_succ_self _
    have hloop := reflect101_eq_loop _ hn hk
    have hmem := reflectLoop_mem hn hk
    omega

theorem reflect101_inside {p : Int} {n : Nat} (hn : 2 ≤ n) (h0 : 0 ≤ p) (hp : p < n) : (reflect101 p n : Int) = p := by
  rw [reflect101_eq_loop _ hn (Nat.lt_succ_self _), reflectLoop_inside _ _ _ h0 hp]

theorem reflect101_of_neg {p : Int} {n : Nat} (hn : 2 ≤ n) (hp : p < 0) : reflect101 p n = reflect101 (-p) n := by
  have hpass : (reflect101 p n : Int) = reflect101 (-p) n := by
    rw [reflect101_eq_loop (p.natAbs + 2) hn (by omega), reflectLoop_of_neg _ hp,
      reflect101_eq_loop (p.natAbs + 1) hn (by omega)]
  exact_mod_cast hpass

/-- The mirrored index is nearer to 0 than `p`, so the passes that are left are enough for it. -/
theorem reflect101_of_ge {p : Int} {n : Nat} (hn : 2 ≤ n) (hp : (n : Int) ≤ p) :
    reflect101 p n = reflect101 (2 * ((n : Int) - 1) - p) n := by
  have hpass : (reflect101 p n : Int) = reflect101 (2 * ((n : Int) - 1) - p) n := by
    rw [reflect101_eq_loop (p.natAbs + 2) hn (by omega), reflectLoop_of_ge _ (by omega) hp,
      reflect101_eq_loop (p.natAbs + 1) hn (by omega)]
  exact_mod_cast hpass

/-! ### The kernel (R141) -/

/-- The kernel's weighted sum of five values, in units of 1/16. -/
def tapSum (f : Nat → Nat) : Nat := ((List.range 5).map fun i => kernelTap i * f i).sum

theorem tapSum_eq (f : Nat → Nat) : tapSum f = f 0 + 4 * f 1 + 6 * f 2 + 4 * f 3 + f 4 := by
  simp [tapSum, kernelTap, List.range_succ, Nat.add_assoc]

theorem mul_tapSum (c : Nat) (f : Nat → Nat) :
    c * tapSum f = ((List.range 5).map fun i => c * kernelTap i * f i).sum := by
  simp only [tapSum, ← List.sum_map_mul_left, Nat.mul_assoc]

/-- The weights sum to 16. -/
theorem tapSum_const (c : Nat) : (tapSum fun _ => c) = 16 * c := by
  rw [tapSum_eq]
  omega

theorem tapSum_mono {f f' : Nat → Nat} (hf : ∀ i < 5, f i ≤ f' i) : tapSum f ≤ tapSum f' :=
  List.sum_le_sum fun i hi => Nat.mul_le_mul_left _ (hf i (List.mem_range.1 hi))

theorem tapSum_le {f : Nat → Nat} {hi : Nat} (hf : ∀ i < 5, f i ≤ hi) : tapSum f ≤ 16 * hi :=
  (tapSum_mono hf).trans_eq (tapSum_const hi)

theorem le_tapSum {f : Nat → Nat} {lo : Nat} (hf : ∀ i < 5, lo ≤ f i) : 16 * lo ≤ tapSum f :=
  (tapSum_const lo).ge.trans (tapSum_mono hf)

/-! ### The filter and its separable form (R142, R143) -/

/-- The pixel at offset (dx, dy) from (x, y), by the reflect-101 border. -/
def reflectedPixel (g : Image Nat) (x y : Nat) (dx dy : Int) : Nat :=
  pixel g (reflect101 ((x : Int) + dx) g.w) (reflect101 ((y : Int) + dy) g.h)

/-- The product of the taps distributes: the filter's sum is the column sum of the row sums. -/
theorem blurSum_eq_tapSum (g : Image Nat) (x y : Nat) :
    blurSum g x y = tapSum fun j => tapSum fun i => reflectedPixel g x y ((i : Int) - 2) ((j : Int) - 2) := by
  rw [tapSum]
  simp only [mul_tapSum, reflectedPixel, blurSum, Int.add_sub_assoc]

/-- A row of the separable form holds the row sums, at the reflected rows too: the border ends inside the image. -/
theorem pixel_rowPass {g : Image Nat} {x y : Nat} (hx : x < g.w) (hy : y < g.h) (dy : Int) :
    pixel (rowPass g) x (reflect101 ((y : Int) + dy) g.h) =
      tapSum fun i => reflectedPixel g x y ((i : Int) - 2) dy := by
  have hrow : reflect101 ((y : Int) + dy) g.h < g.h := reflect101_lt _ (by omega)
  rw [rowPass, pixel_tabulate _ hx hrow]
  simp only [tapSum, reflectedPixel, Int.add_sub_assoc]

/-- R143: the column pass of the exact row sums gives the filter's own sum. -/
theorem columnSum_rowPass {g : Image Nat} {x y : Nat} (hx : x < g.w) (hy : y < g.h) :
    (tapSum fun j => pixel (rowPass g) x (reflect101 ((y : Int) + j - 2) g.h)) = blurSum g x y := by
  simp only [blurSum_eq_tapSum, Int.add_sub_assoc, pixel_rowPass hx hy]

theorem pixel_gaussBlur5 {g : Image Nat} {x y : Nat} (hx : x < g.w) (hy : y < g.h) :
    pixel (gaussBlur5 g) x y = (blurSum g x y + 128) / 256 :=
  pixel_tabulate _ hx hy

/-! ### The filter's range (R144) -/

/-- An image's listed values are those at the positions inside. -/
theorem mem_tabulate_inside {α : Type} {w h : Nat} {f : Nat → Nat → α} {v : α} (hv : v ∈ (tabulate w h f).px) :
    ∃ x y, x < w ∧ y < h ∧ v = f x y := by
  simp only [tabulate, List.mem_map, List.mem_range] at hv
  obtain ⟨i, hi, rfl⟩ := hv
  obtain ⟨x, y, hx, hy, rfl⟩ := exists_position_of_lt hi
  exact ⟨x, y, hx, hy, by rw [index_mod hx, index_div hx]⟩

/-- A pixel inside a full image is at least what every listed value is at least. -/
theorem le_pixel {l : Nat} {img : Image Nat} (hlen : img.px.length = img.w * img.h) (hl : ∀ v ∈ img.px, l ≤ v)
    {x y : Nat} (hx : x < img.w) (hy : y < img.h) : l ≤ pixel img x y := by
  have hi : y * img.w + x < img.px.length := hlen ▸ index_lt hx hy
  rw [pixel, List.getD_eq_getElem _ _ hi]
  exact hl _ (List.getElem_mem hi)

/-- The weights of the 25 taps sum to 256, and the rounding stays below the next value. -/
theorem blur_le {g : Image Nat} {x y m : Nat}
    (hpx : ∀ dx dy : Int, -2 ≤ dx → dx ≤ 2 → -2 ≤ dy → dy ≤ 2 → reflectedPixel g x y dx dy ≤ m) :
    (blurSum g x y + 128) / 256 ≤ m := by
  have hsum : blurSum g x y ≤ 16 * (16 * m) := by
    rw [blurSum_eq_tapSum]
    refine tapSum_le fun _ hj => tapSum_le fun _ hi => ?_
    exact hpx _ _ (by omega) (by omega) (by omega) (by omega)
  omega

theorem le_blur {g : Image Nat} {x y l : Nat}
    (hpx : ∀ dx dy : Int, -2 ≤ dx → dx ≤ 2 → -2 ≤ dy → dy ≤ 2 → l ≤ reflectedPixel g x y dx dy) :
    l ≤ (blurSum g x y + 128) / 256 := by
  have hsum : 16 * (16 * l) ≤ blurSum g x y := by
    rw [blurSum_eq_tapSum]
    refine le_tapSum fun _ hj => le_tapSum fun _ hi => ?_
    exact hpx _ _ (by omega) (by omega) (by omega) (by omega)
  omega

theorem imageLe_gaussBlur5 {m : Nat} {g : Image Nat} (hg : ImageLe m g) : ImageLe m (gaussBlur5 g) := by
  intro v hv
  obtain ⟨x, y, rfl⟩ := mem_tabulate hv
  exact blur_le fun dx dy _ _ _ _ => pixel_le hg _ _

/-- The lower bound needs the border to stay inside: outside a pixel reads the default 0. -/
theorem le_of_mem_gaussBlur5 {l : Nat} {g : Image Nat} (hlen : g.px.length = g.w * g.h) (hl : ∀ v ∈ g.px, l ≤ v)
    {v : Nat} (hv : v ∈ (gaussBlur5 g).px) : l ≤ v := by
  obtain ⟨x, y, hx, hy, rfl⟩ := mem_tabulate_inside hv
  exact le_blur fun dx dy _ _ _ _ => le_pixel hlen hl (reflect101_lt _ (by omega)) (reflect101_lt _ (by omega))

theorem reflectedPixel_constant {w h c x y : Nat} (hx : x < w) (hy : y < h) (dx dy : Int) :
    reflectedPixel (tabulate w h fun _ _ => c) x y dx dy = c :=
  pixel_tabulate _ (reflect101_lt _ (Nat.one_le_of_lt hx)) (reflect101_lt _ (Nat.one_le_of_lt hy))

/-- Every neighbourhood's bounds meet at the constant. -/
theorem gaussBlur5_constant (w h c : Nat) :
    gaussBlur5 (tabulate w h fun _ _ => c) = tabulate w h fun _ _ => c := by
  refine tabulate_congr fun x y hx hy => Nat.le_antisymm ?_ ?_
  · exact blur_le fun dx dy _ _ _ _ => (reflectedPixel_constant hx hy dx dy).le
  · exact le_blur fun dx dy _ _ _ _ => (reflectedPixel_constant hx hy dx dy).ge

end Sys2Proof.Machine
end

section
/-! The statements of 42_blur_filter.md: the border, the separable form, and the filter's weights and range. -/

namespace Sys2Proof.Machine

/-- Settles O47, one equation per branch of the rule's loop: the passes that are left after one of them are enough. -/
theorem reflectBorderIsTheLoopOfTheRule : Obligations.ReflectBorderIsTheLoopOfTheRule := by
  unfold Obligations.ReflectBorderIsTheLoopOfTheRule
  intro p n hn
  refine ⟨reflect101_lt p hn, ?_, reflect101_inside, reflect101_of_neg, reflect101_of_ge⟩
  rintro rfl
  exact reflect101_one p

/-- Settles O48: at every position inside, both forms round the column sum of the row sums. -/
theorem separableBlurIsTheBlur : Obligations.SeparableBlurIsTheBlur := by
  unfold Obligations.SeparableBlurIsTheBlur
  intro g
  refine tabulate_congr fun x y hx hy => ?_
  exact congrArg (fun sum => (sum + 128) / 2 ^ 8) (columnSum_rowPass hx hy)

/-- Settles O49: the filter's sum written out, and its bounds from the weights' sum at one pixel and over the image. -/
theorem blurStaysInRange : Obligations.BlurStaysInRange := by
  unfold Obligations.BlurStaysInRange
  refine ⟨fun g x y hx hy => ?_, fun m g hg => ⟨imageLe_gaussBlur5 hg, tabulate_length .., rfl, rfl⟩,
    fun l g hlen hl v => le_of_mem_gaussBlur5 hlen hl, gaussBlur5_constant⟩
  intro px row
  rw [pixel_gaussBlur5 hx hy]
  refine ⟨?_, fun lo hi hpx => ⟨?_, ?_⟩⟩
  · have hsum : blurSum g x y = row (-2) + 4 * row (-1) + 6 * row 0 + 4 * row 1 + row 2 := by
      simp only [blurSum_eq_tapSum, tapSum_eq]
      rfl
    rw [hsum]
  · exact le_blur fun dx dy h1 h2 h3 h4 => (hpx dx dy h1 h2 h3 h4).1
  · exact blur_le fun dx dy h1 h2 h3 h4 => (hpx dx dy h1 h2 h3 h4).2

end Sys2Proof.Machine
end

section
/-! SUPPORT. The Sobel gradient and its border (R151 to R154), the sector and the suppression test (R156, R157), and the
class of a pixel (R158). -/

namespace Sys2Proof.Machine

/-! ### Clamping (R151) -/

theorem clampIdx_of_neg {p : Int} (n : Nat) (hp : p < 0) : clampIdx p n = 0 := by
  unfold clampIdx
  omega

theorem clampIdx_of_inside {p : Int} {n : Nat} (h0 : 0 ≤ p) (hp : p < n) : (clampIdx p n : Int) = p := by
  unfold clampIdx
  omega

theorem clampIdx_of_ge {p : Int} {n : Nat} (hn : 1 ≤ n) (hp : (n : Int) ≤ p) : (clampIdx p n : Int) = n - 1 := by
  unfold clampIdx
  omega

/-! ### The derivatives (R152, R153) -/

theorem replicated_mem {m : Nat} {b : Image Nat} (hb : ImageLe m b) (y x : Int) :
    0 ≤ replicated b y x ∧ replicated b y x ≤ m :=
  ⟨Int.natCast_nonneg _, Int.ofNat_le.2 (pixel_le hb _ _)⟩

/-- The weights 1 2 1 on each side of a derivative add up to 4. -/
theorem sideDifference_mem {m p q r p' q' r' : Int} (hp : 0 ≤ p ∧ p ≤ m) (hq : 0 ≤ q ∧ q ≤ m) (hr : 0 ≤ r ∧ r ≤ m)
    (hp' : 0 ≤ p' ∧ p' ≤ m) (hq' : 0 ≤ q' ∧ q' ≤ m) (hr' : 0 ≤ r' ∧ r' ≤ m) :
    -(4 * m) ≤ (p + 2 * q + r) - (p' + 2 * q' + r') ∧ (p + 2 * q + r) - (p' + 2 * q' + r') ≤ 4 * m := by
  omega

theorem sobelX_mem {m : Nat} {b : Image Nat} (hb : ImageLe m b) (x y : Int) :
    -(4 * m) ≤ sobelX b x y ∧ sobelX b x y ≤ 4 * m :=
  have hp := replicated_mem hb
  sideDifference_mem (hp _ _) (hp _ _) (hp _ _) (hp _ _) (hp _ _) (hp _ _)

theorem sobelY_mem {m : Nat} {b : Image Nat} (hb : ImageLe m b) (x y : Int) :
    -(4 * m) ≤ sobelY b x y ∧ sobelY b x y ≤ 4 * m :=
  have hp := replicated_mem hb
  sideDifference_mem (hp _ _) (hp _ _) (hp _ _) (hp _ _) (hp _ _) (hp _ _)

/-- Every clamped position lies inside, so a constant image reads its constant everywhere. -/
theorem replicated_constant {w h : Nat} (c : Nat) (hw : 0 < w) (hh : 0 < h) (y x : Int) :
    replicated (tabulate w h fun _ _ => c) y x = c := by
  rw [replicated, tabulate_w, tabulate_h, pixel_tabulate _ (clampIdx_lt x w hw) (clampIdx_lt y h hh)]

/-! ### The magnitude and its zero border (R154) -/

theorem magZero_inside {g : Image Gradient} {x y : Nat} (hx : x < g.w) (hy : y < g.h) :
    magZero g y x = magnitude (pixel g x y) := by
  have hin : inside g (x : Int) (y : Int) = true := (inside_iff g _ _).2 (by omega)
  rw [magZero, if_pos hin, Int.toNat_natCast, Int.toNat_natCast]

theorem magZero_outside {g : Image Gradient} {x y : Int} (h : inside g x y = false) : magZero g y x = 0 := by
  simp [magZero, h]

theorem magZero_gradientImage {b : Image Nat} {x y : Nat} (hx : x < b.w) (hy : y < b.h) :
    magZero (gradientImage b) y x = (sobelX b x y).natAbs + (sobelY b x y).natAbs := by
  rw [magZero_inside hx hy, pixel_gradientImage hx hy, magnitude]

theorem magZero_gradientImage_le {m : Nat} {b : Image Nat} (hb : ImageLe m b) (x y : Int) :
    magZero (gradientImage b) y x ≤ 8 * m := by
  cases hin : inside (gradientImage b) x y with
  | false => exact (magZero_outside hin).trans_le (Nat.zero_le _)
  | true =>
    obtain ⟨hx0, hx, hy0, hy⟩ := (inside_iff _ x y).1 hin
    lift x to Nat using hx0
    lift y to Nat using hy0
    rw [magZero_gradientImage (Int.ofNat_lt.1 hx) (Int.ofNat_lt.1 hy)]
    have hdx := sobelX_mem hb x y
    have hdy := sobelY_mem hb x y
    omega

/-! ### The sector (R156) -/

/-- The rule's test, with its constants multiplied out and the sign of a diagonal as agreement. -/
theorem sectorOf_eq (g : Gradient) :
    sectorOf g =
      if g.dy.natAbs * 32768 < g.dx.natAbs * 13573 then .horizontal
      else if g.dy.natAbs * 32768 > g.dx.natAbs * (13573 + 65536) then .vertical
      else .diagonal (if g.dx < 0 ↔ g.dy < 0 then 1 else -1) := by
  have hsign : (if decide (g.dx < 0) != decide (g.dy < 0) then -1 else 1 : Int) =
      if g.dx < 0 ↔ g.dy < 0 then 1 else -1 := by
    by_cases hx : g.dx < 0 <;> by_cases hy : g.dy < 0 <;> simp [hx, hy]
  rw [← hsign, Nat.mul_add]
  rfl

theorem sectorOf_eq_horizontal_iff {g : Gradient} :
    sectorOf g = .horizontal ↔ g.dy.natAbs * 32768 < g.dx.natAbs * 13573 := by
  rw [sectorOf_eq]
  split_ifs <;> simp [*]

theorem sectorOf_eq_vertical_iff {g : Gradient} :
    sectorOf g = .vertical ↔
      ¬ g.dy.natAbs * 32768 < g.dx.natAbs * 13573 ∧ g.dy.natAbs * 32768 > g.dx.natAbs * (13573 + 65536) := by
  rw [sectorOf_eq]
  split_ifs <;> simp [*]

theorem sectorOf_eq_diagonal_iff {g : Gradient} {s : Int} :
    sectorOf g = .diagonal s ↔
      ¬ g.dy.natAbs * 32768 < g.dx.natAbs * 13573 ∧ ¬ g.dy.natAbs * 32768 > g.dx.natAbs * (13573 + 65536) ∧
        (if g.dx < 0 ↔ g.dy < 0 then 1 else -1) = s := by
  rw [sectorOf_eq]
  split_ifs <;> simp [*]

/-- Only a zero gradient is a diagonal along an axis, and its magnitude is not above the low threshold. -/
theorem derivatives_ne_zero_of_diagonal {g : Gradient} {s : Int} (hm : magnitude g > 50)
    (h : sectorOf g = .diagonal s) : g.dx ≠ 0 ∧ g.dy ≠ 0 := by
  obtain ⟨hlevel, hsteep, -⟩ := sectorOf_eq_diagonal_iff.1 h
  unfold magnitude at hm
  omega

/-- The sign of a diagonal is that of the product. -/
theorem diagonal_sign_iff {g : Gradient} {s : Int} (hm : magnitude g > 50) (h : sectorOf g = .diagonal s) :
    (s = 1 ↔ 0 < g.dx * g.dy) ∧ (s = -1 ↔ g.dx * g.dy < 0) := by
  obtain ⟨hdx, hdy⟩ := derivatives_ne_zero_of_diagonal hm h
  obtain ⟨-, -, rfl⟩ := sectorOf_eq_diagonal_iff.1 h
  rw [mul_pos_iff, mul_neg_iff]
  split_ifs <;> simp <;> omega

theorem sectorOf_cases (g : Gradient) :
    sectorOf g = .horizontal ∨ sectorOf g = .vertical ∨ sectorOf g = .diagonal 1 ∨ sectorOf g = .diagonal (-1) := by
  rw [sectorOf_eq]
  split_ifs <;> simp

/-! ### Suppression and classes (R157, R158) -/

theorem isKept_iff_of_horizontal {g : Image Gradient} {x y : Nat} (hx : x < g.w) (hy : y < g.h)
    (h : sectorOf (pixel g x y) = .horizontal) :
    isKept g x y = true ↔
      magnitude (pixel g x y) > magZero g y (x - 1) ∧ magnitude (pixel g x y) ≥ magZero g y (x + 1) := by
  have hsector : sectorOf (pixel g (x : Int).toNat (y : Int).toNat) = .horizontal := h
  rw [isKept, hsector]
  simp [magZero_inside hx hy]

theorem isKept_iff_of_vertical {g : Image Gradient} {x y : Nat} (hx : x < g.w) (hy : y < g.h)
    (h : sectorOf (pixel g x y) = .vertical) :
    isKept g x y = true ↔
      magnitude (pixel g x y) > magZero g (y - 1) x ∧ magnitude (pixel g x y) ≥ magZero g (y + 1) x := by
  have hsector : sectorOf (pixel g (x : Int).toNat (y : Int).toNat) = .vertical := h
  rw [isKept, hsector]
  simp [magZero_inside hx hy]

theorem isKept_iff_of_diagonal {g : Image Gradient} {x y : Nat} {s : Int} (hx : x < g.w) (hy : y < g.h)
    (h : sectorOf (pixel g x y) = .diagonal s) :
    isKept g x y = true ↔
      magnitude (pixel g x y) > magZero g (y - 1) (x - s) ∧ magnitude (pixel g x y) > magZero g (y + 1) (x + s) := by
  have hsector : sectorOf (pixel g (x : Int).toNat (y : Int).toNat) = .diagonal s := h
  rw [isKept, hsector]
  simp [magZero_inside hx hy]

theorem classOf_not_kept (m : Nat) : classOf m false = .none := by
  simp [classOf]

/-- Both thresholds are strict (R155). -/
theorem classOf_kept (m : Nat) : classOf m true = if m ≤ 50 then .none else if 150 < m then .strong else .weak := by
  by_cases hlow : m ≤ 50 <;> simp [classOf, edgeLow, edgeHigh, hlow]

theorem classOf_eq_none_iff {m : Nat} {kept : Bool} : classOf m kept = .none ↔ m ≤ 50 ∨ kept = false := by
  cases kept with
  | false => simp [classOf_not_kept]
  | true => rw [classOf_kept]; split_ifs <;> simp [*]

theorem classOf_eq_strong_iff {m : Nat} {kept : Bool} : classOf m kept = .strong ↔ 150 < m ∧ kept = true := by
  cases kept with
  | false => simp [classOf_not_kept]
  | true => rw [classOf_kept]; split_ifs <;> simp <;> omega

theorem classOf_eq_weak_iff {m : Nat} {kept : Bool} :
    classOf m kept = .weak ↔ 50 < m ∧ m ≤ 150 ∧ kept = true := by
  cases kept with
  | false => simp [classOf_not_kept]
  | true => rw [classOf_kept]; split_ifs <;> simp <;> omega

/-! ### A constant image (R161) -/

theorem pixel_gradientImage_constant {w h x y : Nat} (c : Nat) (hx : x < w) (hy : y < h) :
    pixel (gradientImage (tabulate w h fun _ _ => c)) x y = ⟨0, 0⟩ := by
  have hconst := replicated_constant c (Nat.zero_lt_of_lt hx) (Nat.zero_lt_of_lt hy)
  rw [pixel_gradientImage hx hy]
  simp only [sobelX, sobelY, hconst, sub_self]

theorem pixel_classImage_constant {w h x y : Nat} (c : Nat) (hx : x < w) (hy : y < h) :
    pixel (classImage (gradientImage (tabulate w h fun _ _ => c))) x y = .none := by
  rw [pixel_classImage hx hy, pixel_gradientImage_constant c hx hy, classOf_eq_none_iff]
  exact .inl (Nat.zero_le _)

end Sys2Proof.Machine
end

section
/-! SUPPORT. Hysteresis (R159): every round of growth marks pixels of EDGE only, and `w*h` rounds reach an image that
another round leaves as it is; and the image of its marks (R160). -/

namespace Sys2Proof.Machine

/-! ### One round -/

/-- A full image is the image of its own pixels. -/
theorem tabulate_pixel {α : Type} [Inhabited α] {img : Image α} (hlen : img.px.length = img.w * img.h) :
    tabulate img.w img.h (pixel img) = img := by
  have hpx : ((List.range (img.w * img.h)).map fun i => pixel img (i % img.w) (i / img.w)) = img.px := by
    refine List.ext_getElem (by simp [hlen]) fun i _ hi => ?_
    rw [List.getElem_map, List.getElem_range, pixel_index, List.getD_eq_getElem _ _ hi]
  rw [tabulate, hpx]

theorem any_marked_neighbour_iff {e : Image Bool} {x y : Nat} :
    ((neighbours x y).any fun p => marked e p.1 p.2) = true ↔
      ∃ x' y', x' < e.w ∧ y' < e.h ∧ Adjacent8 x y x' y' ∧ pixel e x' y' = true := by
  simp only [List.any_eq_true, Prod.exists, marked, Bool.and_eq_true, inside_iff]
  constructor
  · rintro ⟨a, b, hab, ⟨ha, haw, hb, hbh⟩, hmark⟩
    lift a to Nat using ha
    lift b to Nat using hb
    exact ⟨a, b, by omega, by omega, mem_neighbours_iff.1 hab, hmark⟩
  · rintro ⟨x', y', hx', hy', hadj, hmark⟩
    exact ⟨x', y', mem_neighbours_iff.2 hadj, by omega, hmark⟩

/-- One round marks what was marked, and each WEAK pixel 8-adjacent to a marked one (R159). -/
theorem pixel_growEdges_iff {c : Image EdgeClass} {e : Image Bool} {x y : Nat} (hx : x < c.w) (hy : y < c.h) :
    pixel (growEdges c e) x y = true ↔
      pixel e x y = true ∨
        pixel c x y = .weak ∧ ∃ x' y', x' < e.w ∧ y' < e.h ∧ Adjacent8 x y x' y' ∧ pixel e x' y' = true := by
  rw [pixel_growEdges hx hy, Bool.or_eq_true, Bool.and_eq_true, beq_iff_eq, any_marked_neighbour_iff]

/-! ### What every round keeps -/

/-- A full image of the class image's dimensions that marks every STRONG pixel, and pixels of EDGE only. -/
structure GrowsToEdge (c : Image EdgeClass) (e : Image Bool) : Prop where
  width : e.w = c.w
  height : e.h = c.h
  full : e.px.length = c.w * c.h
  strong : ∀ x y, x < c.w → y < c.h → pixel c x y = .strong → pixel e x y = true
  sound : ∀ x y, x < c.w → y < c.h → pixel e x y = true → InEdge c x y

theorem growsToEdge_strong (c : Image EdgeClass) :
    GrowsToEdge c (tabulate c.w c.h fun x y => pixel c x y == .strong) where
  width := rfl
  height := rfl
  full := tabulate_length ..
  strong x y hx hy h := by rw [pixel_tabulate _ hx hy, h, beq_self_eq_true]
  sound x y hx hy h := by
    rw [pixel_tabulate _ hx hy, beq_iff_eq] at h
    exact .strong x y hx hy h

theorem growsToEdge_growEdges {c : Image EdgeClass} {e : Image Bool} (h : GrowsToEdge c e) :
    GrowsToEdge c (growEdges c e) where
  width := rfl
  height := rfl
  full := growEdges_length c e
  strong x y hx hy hs := (pixel_growEdges_iff hx hy).2 (.inl (h.strong x y hx hy hs))
  sound x y hx hy hm := by
    rcases (pixel_growEdges_iff hx hy).1 hm with hold | ⟨hweak, x', y', hx', hy', hadj, hmark⟩
    · exact h.sound x y hx hy hold
    · have hnear : InEdge c x' y' := h.sound x' y' (h.width ▸ hx') (h.height ▸ hy') hmark
      exact .weak x y x' y' hx hy hweak hnear hadj

theorem growsToEdge_growLoop {c : Image EdgeClass} {e : Image Bool} (n : Nat) (h : GrowsToEdge c e) :
    GrowsToEdge c (growLoop c n e) := by
  induction n generalizing e with
  | zero => exact h
  | succ n ih =>
    rw [growLoop]
    split
    · exact h
    · exact ih (growsToEdge_growEdges h)

/-! ### The rounds end -/

/-- The positions inside an image that are not marked. -/
def unmarked (e : Image Bool) : Finset (Nat × Nat) :=
  (Finset.range e.w ×ˢ Finset.range e.h).filter fun p => pixel e p.1 p.2 = false

theorem mem_unmarked {e : Image Bool} {x y : Nat} :
    (x, y) ∈ unmarked e ↔ (x < e.w ∧ y < e.h) ∧ pixel e x y = false := by
  simp [unmarked]

theorem card_unmarked_le (e : Image Bool) : (unmarked e).card ≤ e.w * e.h :=
  (Finset.card_filter_le ..).trans_eq (by simp)

theorem unmarked_growEdges_subset {c : Image EdgeClass} {e : Image Bool} (h : GrowsToEdge c e) :
    unmarked (growEdges c e) ⊆ unmarked e := by
  rintro ⟨x, y⟩ hp
  obtain ⟨⟨hx, hy⟩, hnot⟩ := mem_unmarked.1 hp
  refine mem_unmarked.2 ⟨⟨h.width ▸ hx, h.height ▸ hy⟩, ?_⟩
  rw [← Bool.not_eq_true] at hnot ⊢
  exact fun hmark => hnot ((pixel_growEdges_iff hx hy).2 (.inl hmark))

/-- A round that marks no further pixel changes nothing. -/
theorem growEdges_eq_of_unmarked {c : Image EdgeClass} {e : Image Bool} (h : GrowsToEdge c e)
    (hsub : unmarked e ⊆ unmarked (growEdges c e)) : growEdges c e = e := by
  have hpx : ∀ x y, x < c.w → y < c.h → pixel (growEdges c e) x y = pixel e x y := by
    intro x y hx hy
    have hmore : pixel e x y = false → pixel (growEdges c e) x y = false := fun hf =>
      (mem_unmarked.1 (hsub (mem_unmarked.2 ⟨⟨h.width.symm ▸ hx, h.height.symm ▸ hy⟩, hf⟩))).2
    cases hm : pixel e x y with
    | false => exact hmore hm
    | true => exact (pixel_growEdges_iff hx hy).2 (.inl hm)
  calc growEdges c e = tabulate c.w c.h (pixel (growEdges c e)) := (tabulate_pixel (growEdges_length c e)).symm
    _ = tabulate c.w c.h (pixel e) := tabulate_congr hpx
    _ = e := by rw [← h.width, ← h.height]; exact tabulate_pixel (by rw [h.full, h.width, h.height])

/-- Every round but the last marks a pixel, so as many rounds as there are unmarked pixels are enough. -/
theorem growEdges_growLoop {c : Image EdgeClass} {e : Image Bool} {n : Nat} (h : GrowsToEdge c e)
    (hn : (unmarked e).card ≤ n) : growEdges c (growLoop c n e) = growLoop c n e := by
  induction n generalizing e with
  | zero =>
    have hnone : unmarked e = ∅ := Finset.card_eq_zero.1 (Nat.le_zero.1 hn)
    exact growEdges_eq_of_unmarked h (hnone ▸ Finset.empty_subset _)
  | succ n ih =>
    rw [growLoop]
    split
    case isTrue hfix => exact hfix
    case isFalse hne =>
      have hless : unmarked (growEdges c e) ⊂ unmarked e :=
        ⟨unmarked_growEdges_subset h, fun hsub => hne (growEdges_eq_of_unmarked h hsub)⟩
      have hcard := Finset.card_lt_card hless
      exact ih (growsToEdge_growEdges h) (by omega)

/-! ### Hysteresis -/

/-- EDGE lies inside the image, and holds STRONG and WEAK pixels only. -/
theorem InEdge.inside_not_none {c : Image EdgeClass} {x y : Nat} (h : InEdge c x y) :
    (x < c.w ∧ y < c.h) ∧ pixel c x y ≠ .none := by
  cases h with
  | strong _ _ hx hy hs => exact ⟨⟨hx, hy⟩, by simp [hs]⟩
  | weak _ _ _ _ hx hy hweak => exact ⟨⟨hx, hy⟩, by simp [hweak]⟩

theorem growsToEdge_hysteresis (c : Image EdgeClass) : GrowsToEdge c (hysteresis c) :=
  growsToEdge_growLoop _ (growsToEdge_strong c)

theorem growEdges_hysteresis (c : Image EdgeClass) : growEdges c (hysteresis c) = hysteresis c :=
  growEdges_growLoop (growsToEdge_strong c) (card_unmarked_le _)

/-- The smallest set lies in the marks: they hold every STRONG pixel, and one more round would mark the WEAK ones beside
them. -/
theorem pixel_hysteresis_of_inEdge {c : Image EdgeClass} {x y : Nat} (h : InEdge c x y) :
    pixel (hysteresis c) x y = true := by
  induction h with
  | strong x y hx hy hs => exact (growsToEdge_hysteresis c).strong x y hx hy hs
  | weak x y x' y' hx hy hweak hnear hadj ih =>
    obtain ⟨⟨hx', hy'⟩, -⟩ := hnear.inside_not_none
    rw [← growEdges_hysteresis, pixel_growEdges_iff hx hy]
    exact .inr ⟨hweak, x', y', by simpa using hx', by simpa using hy', hadj, ih⟩

theorem pixel_hysteresis_iff {c : Image EdgeClass} {x y : Nat} (hx : x < c.w) (hy : y < c.h) :
    pixel (hysteresis c) x y = true ↔ InEdge c x y :=
  ⟨(growsToEdge_hysteresis c).sound x y hx hy, pixel_hysteresis_of_inEdge⟩

/-! ### The output (R160) -/

theorem pixel_canny {b : Image Nat} {x y : Nat} (hx : x < b.w) (hy : y < b.h) :
    pixel (canny b) x y = if pixel (hysteresis (classImage (gradientImage b))) x y then 255 else 0 := by
  rw [canny, edgeImage, pixel_tabulate _ (by simpa using hx) (by simpa using hy)]

theorem canny_eq_tabulate (b : Image Nat) : canny b = tabulate b.w b.h (pixel (canny b)) := by
  have hfull : tabulate (canny b).w (canny b).h (pixel (canny b)) = canny b := tabulate_pixel (by simp)
  rw [canny_w, canny_h] at hfull
  exact hfull.symm

end Sys2Proof.Machine
end

section
/-! The statements of 43_edge_detect.md: the gradient, the sectors, the classes, hysteresis and the edge image. -/

namespace Sys2Proof.Machine

/-- Settles O50: the sums by their definitions, and their ranges from the weights 1 2 1 on each side. -/
theorem gradientStaysInRange : Obligations.GradientStaysInRange := by
  unfold Obligations.GradientStaysInRange
  refine ⟨fun b x y => ?_, fun p n hn => ⟨clampIdx_of_neg n, clampIdx_of_inside, clampIdx_of_ge hn⟩,
    fun b x y => magZero_gradientImage, fun b hb x y => ?_⟩
  · simp only [sobelX, sobelY, replicated, sub_eq_add_neg, add_zero, and_self]
  · obtain ⟨hdxLow, hdxHigh⟩ := sobelX_mem hb x y
    obtain ⟨hdyLow, hdyHigh⟩ := sobelY_mem hb x y
    exact ⟨hdxLow, hdxHigh, hdyLow, hdyHigh, magZero_gradientImage_le hb x y, fun hout => magZero_outside hout⟩

/-- Settles O51 by the integer test of each sector; along an axis one of the two products is 0. -/
theorem sectorOfAGradient : Obligations.SectorOfAGradient := by
  unfold Obligations.SectorOfAGradient
  intro g level steep
  refine ⟨sectorOf_eq_horizontal_iff, sectorOf_eq_vertical_iff, ?_, ?_, fun hx hy => ?_, fun hy hx => ?_,
    fun s hm hs => ?_⟩
  · simp [sectorOf_eq_diagonal_iff, level, steep]
  · simp [sectorOf_eq_diagonal_iff, level, steep]
  · rw [sectorOf_eq_vertical_iff]
    omega
  · rw [sectorOf_eq_horizontal_iff]
    omega
  · obtain ⟨hdx, hdy⟩ := derivatives_ne_zero_of_diagonal hm hs
    exact ⟨hdx, hdy, diagonal_sign_iff hm hs⟩

/-- Settles O52: the class of a pixel is that of its magnitude and its test, by the cases of its sector. -/
theorem classOfAPixel : Obligations.ClassOfAPixel := by
  unfold Obligations.ClassOfAPixel
  refine ⟨fun m kept => ⟨classOf_eq_none_iff, classOf_eq_strong_iff, classOf_eq_weak_iff⟩, fun g x y hx hy => ?_⟩
  intro d m mz kept
  have hkept : isKept g x y = true ↔ kept := by
    rcases sectorOf_cases d with h | h | h | h
    · rw [isKept_iff_of_horizontal hx hy h]
      simp [kept, h, mz, m, d, magnitude, sub_eq_add_neg]
    · rw [isKept_iff_of_vertical hx hy h]
      simp [kept, h, mz, m, d, magnitude, sub_eq_add_neg]
    · rw [isKept_iff_of_diagonal hx hy h]
      simp [kept, h, mz, m, d, magnitude, sub_eq_add_neg]
    · rw [isKept_iff_of_diagonal hx hy h]
      simp [kept, h, mz, m, d, magnitude, sub_eq_add_neg]
  rw [pixel_classImage hx hy, classOf_eq_none_iff, classOf_eq_strong_iff, classOf_eq_weak_iff, ← hkept,
    Bool.not_eq_true]
  exact ⟨.rfl, .rfl, .rfl⟩

/-- Settles O53: the rounds mark pixels of EDGE only, and end at an image closed under growth. -/
theorem hysteresisIsTheSmallestClosedSet : Obligations.HysteresisIsTheSmallestClosedSet := by
  unfold Obligations.HysteresisIsTheSmallestClosedSet
  intro c x y hx hy
  exact pixel_hysteresis_iff hx hy

/-- Settles O54 by the marks of hysteresis. -/
theorem cannyMarksExactlyTheEdges : Obligations.CannyMarksExactlyTheEdges := by
  unfold Obligations.CannyMarksExactlyTheEdges
  intro b x y hx hy
  rw [pixel_canny hx hy, ← pixel_hysteresis_iff (c := classImage (gradientImage b)) hx hy]
  exact ⟨fun h => if_pos h, fun h => if_neg h⟩

/-- Settles O55: every class is NONE, so no pixel is in EDGE. -/
theorem constantImageHasNoEdge : Obligations.ConstantImageHasNoEdge := by
  unfold Obligations.ConstantImageHasNoEdge
  intro w h c
  have hpx : ∀ x y, x < w → y < h → pixel (canny (tabulate w h fun _ _ => c)) x y = 0 := fun x y hx hy =>
    (cannyMarksExactlyTheEdges _ x y hx hy).2 fun hedge => hedge.inside_not_none.2 (pixel_classImage_constant c hx hy)
  exact (canny_eq_tabulate _).trans (tabulate_congr hpx)

end Sys2Proof.Machine
end

section
/-! SUPPORT. The pixel packer: the layout of its word (R171), and the word of each slot of RES under either variant (R172,
R175). -/

namespace Sys2Proof.Machine

/-! ### The packed word (R171) -/

/-- The OR of the shifted fields is the number of the concatenation, field by field. -/
theorem toNat_argb (r g b : Byte) :
    (0xFF#8 ++ r ++ g ++ b).toNat = 0xFF000000 ||| (r.toNat * 2 ^ 16) ||| (g.toNat * 2 ^ 8) ||| b.toNat := by
  simp only [BitVec.toNat_append, Nat.shiftLeft_or_distrib, ← Nat.shiftLeft_add, ← Nat.shiftLeft_eq]
  rfl

theorem pack_bytes (r g b : Byte) : pack r.toNat g.toNat b.toNat = 0xFF#8 ++ r ++ g ++ b := by
  rw [pack, ← toNat_argb, BitVec.ofNat_toNat, BitVec.setWidth_eq]

/-- The packed word of one value in its three channels. -/
theorem pack_equal_channels {v : Nat} (hv : v ≤ 255) :
    pack v v v = 0xFF#8 ++ BitVec.ofNat 8 v ++ BitVec.ofNat 8 v ++ BitVec.ofNat 8 v := by
  have hbyte : (BitVec.ofNat 8 v).toNat = v := by
    rw [BitVec.toNat_ofNat]
    omega
  rw [← pack_bytes, hbyte]

/-! ### The slots of RES -/

/-- The edge detector marks a pixel or leaves it 0 (R160). -/
theorem pixel_canny_binary {b : Image Nat} {x y : Nat} (hx : x < b.w) (hy : y < b.h) :
    pixel (canny b) x y = 255 ∨ pixel (canny b) x y = 0 := by
  rw [pixel_canny hx hy]
  exact ite_eq_or_eq ..

/-- Slot i of a VISION frame is packed from the edge value of its pixel (R172). -/
theorem frameResult_vision_getD (input : List Byte) {w h i : Nat} (hi : i < w * h) :
    (frameResult .vision w h input).getD i 0#32 = packEdge (pixel (visionEdges input w h) (i % w) (i / w)) := by
  have hedge : i < (visionEdges input w h).px.length := by rwa [visionEdges_length]
  have hpixel : pixel (visionEdges input w h) (i % w) (i / w) = (visionEdges input w h).px[i] := by
    rw [← List.getD_eq_getElem _ default hedge, ← pixel_index, visionEdges_w]
  have hres : i < (frameResult .vision w h input).length := by rwa [frameResult_length]
  rw [List.getD_eq_getElem _ _ hres, hpixel]
  exact List.getElem_map ..

/-- Slot i of a FALLBACK frame is packed from the inverse of byte i of the input (R175). -/
theorem frameResult_fallback_getD (input : List Byte) {w h i : Nat} (hi : i < w * h) :
    (frameResult .fallback w h input).getD i 0#32 = packInvert (inByte input i) := by
  have hres : i < (frameResult .fallback w h input).length := by rwa [frameResult_length]
  rw [List.getD_eq_getElem _ _ hres]
  simp only [frameResult, fallbackResult, List.getElem_map, List.getElem_range]

end Sys2Proof.Machine
end

section
/-! The statements of 44_pack.md: the packed word, and the value of a slot under each variant. -/

namespace Sys2Proof.Machine

/-- Settles O56: the OR of the four shifted fields is the number of their concatenation. -/
theorem packLaysOutArgb : Obligations.PackLaysOutArgb := by
  unfold Obligations.PackLaysOutArgb
  exact pack_bytes

/-- Settles O57: the slot is packed from its pixel's edge value, and that value is binary. -/
theorem visionSlotValue : Obligations.VisionSlotValue := by
  unfold Obligations.VisionSlotValue
  intro input w h i hi e
  have hw : 0 < w := Nat.pos_of_mul_pos_right (Nat.zero_lt_of_lt hi)
  have hslot : (frameResult .vision w h input).getD i 0#32 = pack e e e := frameResult_vision_getD input hi
  have hbinary : e = 255 ∨ e = 0 := pixel_canny_binary (Nat.mod_lt i hw) (Nat.div_lt_of_lt_mul hi)
  refine ⟨hslot, ?_, hbinary⟩
  rw [hslot]
  rcases hbinary with hmark | hclear
  · rw [hmark]
    rfl
  · rw [hclear]
    rfl

/-- Settles O58: the slot is packed from the inverted luma, a byte, and 255 minus a byte is its own inverse (R176). -/
theorem fallbackSlotValue : Obligations.FallbackSlotValue := by
  unfold Obligations.FallbackSlotValue
  intro input w h i hi luma
  have hslot := frameResult_fallback_getD input hi
  exact ⟨hslot.trans (pack_equal_channels (Nat.sub_le ..)), Nat.sub_sub_self (Nat.le_of_lt_succ luma.isLt)⟩

end Sys2Proof.Machine
end

section
/-! SUPPORT. The checks of PROCESS in the words of the statements (R105, R208), and a PROCESS that fails one. -/

namespace Sys2Proof.Machine

/-- The causes of ERR_DIM, in the order of the dimension checks (R202). -/
theorem not_dimsLegal_iff (s : State) :
    ¬ DimsLegal s ↔
      (s.width.toNat = 0 ∨ s.height.toNat = 0) ∨
        (s.width.toNat > s.cfg.maxWidth ∨ s.height.toNat > s.cfg.maxHeight) ∨
        (s.cfg.variant = .vision ∧ (s.width.toNat % 2 ≠ 0 ∨ s.height.toNat % 2 ≠ 0)) := by
  unfold DimsLegal
  by_cases hvision : s.cfg.variant = .vision
  · simp only [hvision, true_implies, true_and]
    omega
  · simp only [hvision, false_implies, and_true, false_and, or_false]
    omega

/-- The causes of ERR_BOUNDS, in the order of the bounds checks (R203). -/
theorem not_boundsLegal_iff (s : State) :
    ¬ BoundsLegal s ↔
      (frameIn s > s.inLen.toNat ∨ frameSlots s > s.outLen.toNat) ∨
        (s.inBase.toNat + frameIn s > 2 ^ 32 ∨ frameOut s + 4 * frameSlots s > 2 ^ 32) := by
  unfold BoundsLegal
  omega

/-- The first failing check of PROCESS, one stage for each error code (R208). -/
theorem processCheck_eq_stages (s : State) [Decidable (DimsLegal s)] [Decidable (BoundsLegal s)] :
    processCheck s =
      if s.ready = false then some .errNotInit
      else if ¬ DimsLegal s then some .errDim
      else if ¬ BoundsLegal s then some .errBounds
      else if s.inBase.toNat < frameOut s + 4 * frameSlots s ∧ frameOut s < s.inBase.toNat + frameIn s then
        some .errOverlap
      else none := by
  rw [processCheck_eq]
  simp only [not_dimsLegal_iff, not_boundsLegal_iff, ite_or]

theorem processCheck_not_ready {s : State} (hready : s.ready = false) : processCheck s = some .errNotInit := by
  rw [processCheck_eq, if_pos hready]

theorem processCheck_dims_illegal {s : State} (hready : s.ready = true) (hdims : ¬ DimsLegal s) :
    processCheck s = some .errDim := by
  classical
  rw [processCheck_eq_stages, if_neg (by simp [hready]), if_pos hdims]

theorem processCheck_bounds_illegal {s : State} (hready : s.ready = true) (hdims : DimsLegal s)
    (hbounds : ¬ BoundsLegal s) : processCheck s = some .errBounds := by
  classical
  rw [processCheck_eq_stages, if_neg (by simp [hready]), if_neg (not_not.2 hdims), if_pos hbounds]

theorem processCheck_ranges_overlap {s : State} (hready : s.ready = true) (hdims : DimsLegal s)
    (hbounds : BoundsLegal s) (hoverlap : RangesOverlap s) : processCheck s = some .errOverlap := by
  classical
  have hmeet := (rangesOverlap_iff (frameIn_pos hdims) (frameSlots_pos hdims)).1 hoverlap
  rw [processCheck_eq_stages, if_neg (by simp [hready]), if_neg (not_not.2 hdims), if_neg (not_not.2 hbounds),
    if_pos hmeet]

/-- An idle PROCESS that fails a check records its code and DONE, nothing else (R205). -/
theorem exec_process_failed {s : State} {code : ResultCode} (hidle : s.phase = .idle)
    (hcheck : processCheck s = some code) : exec .process s = .next { s with result := code, done := true } :=
  congrArg Host.Outcome.next ((acceptCommand_idle processEffect s hidle).trans (processEffect_failed hcheck))

end Sys2Proof.Machine
end

section
/-! The statements of 60_exceptions.md: the errors found when PROCESS is accepted, and the command words dropped while a
job runs. -/

namespace Sys2Proof.Machine

/-- Settles O10: each cause is the first failing check of its PROCESS, and a failed check only records its code. -/
theorem processFailedCheckOnlyRecordsItsCode : Obligations.ProcessFailedCheckOnlyRecordsItsCode := by
  unfold Obligations.ProcessFailedCheckOnlyRecordsItsCode
  intro s hidle
  refine ⟨fun hready => ?_, fun hready hdims => ?_, fun hready hdims hbounds => ?_,
    fun hready hdims hbounds hoverlap => ?_⟩
  · exact exec_process_failed hidle (processCheck_not_ready hready)
  · exact exec_process_failed hidle (processCheck_dims_illegal hready hdims)
  · exact exec_process_failed hidle (processCheck_bounds_illegal hready hdims hbounds)
  · exact exec_process_failed hidle (processCheck_ranges_overlap hready hdims hbounds hoverlap)

/-- Settles O12: BUSY is a running job, which drops any word written to CMD, and offset 0x04 is CMD. -/
theorem busyDropsEveryCommandWord : Obligations.BusyDropsEveryCommandWord := by
  unfold Obligations.BusyDropsEveryCommandWord
  intro s v hbusy
  obtain ⟨j, hrun⟩ := (busy_iff s).1 hbusy
  have hcmd : commandWrite v s = .next { s with overrun := true } := commandWrite_run hrun v
  exact ⟨hcmd, (regAccess_write_at (r := .cmd) rfl v s).trans hcmd⟩

end Sys2Proof.Machine
end

section
/-! SUPPORT. Reset at any phase (R230, R231), and the machine's own steps from a running job to its end (R246). -/

namespace Sys2Proof.Machine

/-! ### Reset -/

theorem runEvent_reset (s : State) : runEvent .reset s = .next (resetBlock s) := rfl

theorem abandonJob_idle {s : State} (hidle : s.phase = .idle) : abandonJob s = s := by
  simp [abandonJob, hidle]

theorem abandonJob_run {s : State} {j : Job} (hrun : s.phase = .run j) :
    abandonJob s = staleOutput j (loosenSlots j (List.range (jobSlots j)) s) := by
  simp [abandonJob, hrun]

/-- Reset writes no memory of its own: what it changes there is the abandoned job's (R230, R231). -/
@[simp] theorem resetBlock_mem (s : State) : (resetBlock s).mem = (abandonJob s).mem := rfl

@[simp] theorem resetBlock_phase (s : State) : (resetBlock s).phase = .idle := rfl

/-- Abandoning a job changes no byte outside its slots (R231). -/
theorem abandonJob_read_outside {s : State} {j : Job} {a : Nat} (hinv : StateInv s) (hrun : s.phase = .run j)
    (ha : ¬ (slotAddr j 0 ≤ a ∧ a < slotAddr j (jobSlots j))) :
    Memory.read (abandonJob s).mem a = Memory.read s.mem a := by
  have hlt : ∀ i ∈ List.range (jobSlots j), i < jobSlots j := fun _ hi => List.mem_range.1 hi
  obtain ⟨-, hother⟩ := loosenSlots_mem j (List.range (jobSlots j)) s hinv.mem_wf
    fun i hi => (hinv.job j hrun).slot_fits (hlt i hi)
  rw [abandonJob_run hrun, staleOutput_eq]
  exact hother a fun i hi => not_mem_slot_of_outside ha (hlt i hi)

/-- After reset STATUS reads as in the reset state of the same build (R230). -/
theorem regRead_status_resetBlock (s : State) :
    regRead .status (resetBlock s) = regRead .status (State.resetOf s.cfg) := by
  change statusWord (resetBlock s) = statusWord (State.resetOf s.cfg)
  rw [statusWord_fields, statusWord_fields, resetBlock_cfg]
  rfl

/-! ### The engine while no agent has a turn -/

theorem engineStep_idle {s : State} (hidle : s.phase = .idle) (turn : EngineTurn) : engineStep turn s = s := by
  simp [engineStep, hidle]

theorem jobCode_ok_or_errBus (c : Config) (j : Job) : jobCode c j = .ok ∨ jobCode c j = .errBus := by
  unfold jobCode
  split
  · exact .inl rfl
  · exact .inr rfl

/-- An engine step of a running job takes a slot off the unwritten ones or ends the job with its code. -/
theorem engineStep_progress {s : State} {j : Job} (turn : EngineTurn) (hrun : s.phase = .run j) :
    (∃ i ∈ j.unwritten, (engineStep turn s).phase = .run { j with unwritten := j.unwritten.erase i }) ∨
      ((engineStep turn s).phase = .idle ∧ (engineStep turn s).done = true ∧
        (engineStep turn s).result = jobCode s.cfg j) := by
  rcases engineStep_cases turn j s hrun with ⟨i, v, hi, h, -, -⟩ | ⟨hclear, -, h⟩ | ⟨hfaulty, h⟩
  · rw [h]
    exact .inl ⟨i, hi, writeSlot_phase j i v s⟩
  · rw [h, jobCode_of_clear hclear]
    exact .inr ⟨completeJob_phase .ok j s, rfl, rfl⟩
  · rw [h, jobCode_of_faulty hfaulty]
    exact .inr ⟨completeJob_phase .errBus j s, rfl, rfl⟩

@[simp] theorem engineStep_agenda (turn : EngineTurn) (s : State) : (engineStep turn s).agenda = s.agenda := by
  cases hp : s.phase with
  | idle => rw [engineStep_idle hp]
  | run j =>
    rcases engineStep_cases turn j s hp with ⟨i, v, -, h, -, -⟩ | ⟨-, -, h⟩ | ⟨-, h⟩
    · rw [h, writeSlot_eq]
    · rw [h, completeJob_eq]
    · rw [h, completeJob_eq]

@[simp] theorem ownEngineStep_agenda (s : State) : (ownEngineStep s).agenda = s.agenda := by
  rcases ownEngineStep_cases s with ⟨-, h⟩ | ⟨-, -, h⟩
  · rw [h]
  · rw [h, engineStep_agenda, useFresh_agenda]

theorem run_of_agenda_nil {s : State} (n : Nat) (hnil : s.agenda = []) :
    Host.Core.run Sys2Proof.core (n + 1) s = Host.Core.run Sys2Proof.core n (ownEngineStep s) :=
  run_succ (M := Sys2Proof.core) (step_of_agenda_nil hnil)

/-- An idle block with no turn to come stays as it is (R232). -/
theorem run_idle {s : State} (n : Nat) (hnil : s.agenda = []) (hidle : s.phase = .idle) :
    Host.Core.run Sys2Proof.core n s = .next s := by
  induction n with
  | zero => rfl
  | succ n ih => rw [run_of_agenda_nil n hnil, ownEngineStep_idle hidle, ih]

/-- More steps than slots are left end a job with its code: each step before the last takes a slot off the unwritten
ones (R246). -/
theorem run_ends_job (n : Nat) :
    ∀ (s : State) (j : Job), s.phase = .run j → s.agenda = [] → j.unwritten.length < n →
      ∃ u : State, Host.Core.run Sys2Proof.core n s = .next u ∧ u.phase = .idle ∧ u.done = true ∧
        u.result = jobCode s.cfg j := by
  induction n with
  | zero =>
    intro s j _ _ hlen
    exact absurd hlen (Nat.not_lt_zero _)
  | succ n ih =>
    intro s j hrun hnil hlen
    have hnil' : (ownEngineStep s).agenda = [] := (ownEngineStep_agenda s).trans hnil
    rw [run_of_agenda_nil n hnil]
    have hprogress := engineStep_progress (s := useFresh s) (Config.freeTurn s.fresh) hrun
    rw [← ownEngineStep_run hrun, useFresh_cfg] at hprogress
    rcases hprogress with ⟨i, hi, hphase⟩ | ⟨hidle, hdone, hresult⟩
    · have hfewer : (j.unwritten.erase i).length < n := by
        have hpos := List.length_pos_of_mem hi
        rw [List.length_erase_of_mem hi]
        omega
      have hrest := ih _ _ hphase hnil' hfewer
      rwa [ownEngineStep_cfg] at hrest
    · exact ⟨ownEngineStep s, run_idle n hnil' hidle, hidle, hdone, hresult⟩

/-- A job has at most `w*h` slots left (R59, R105). -/
theorem JobInv.unwritten_length_le {c : Config} {j : Job} (hj : JobInv c j) : j.unwritten.length ≤ jobSlots j := by
  have hsub : j.unwritten ⊆ List.range (jobSlots j) := fun i hi => List.mem_range.2 (hj.unwritten_lt i hi)
  simpa using (hj.unwritten_nodup.subperm hsub).length_le

end Sys2Proof.Machine
end

section
/-! The statements of 70_reset_and_hazards.md: the end of every job, a reset while a job runs, and what reset leaves. -/

namespace Sys2Proof.Machine

/-- Settles O31: a job has at most `w*h` slots left, so `w*h + 1` steps end it, by the induction over the steps. -/
theorem everyJobEndsWithinItsBound : Obligations.EveryJobEndsWithinItsBound := by
  unfold Obligations.EveryJobEndsWithinItsBound
  intro s j hinv hrun hnil
  have hbound : j.unwritten.length ≤ j.w.toNat * j.h.toNat := (hinv.job j hrun).unwritten_length_le
  obtain ⟨u, hu, hidle, hdone, hresult⟩ := run_ends_job _ s j hrun hnil (Nat.lt_succ_of_le hbound)
  exact ⟨u, hu, hidle, hdone, hresult ▸ jobCode_ok_or_errBus s.cfg j⟩

/-- Settles O23: abandoning the job writes in its slots only, and the block is idle afterwards. -/
theorem resetAbandonsTheJob : Obligations.ResetAbandonsTheJob := by
  unfold Obligations.ResetAbandonsTheJob
  intro s j hinv hrun
  exact ⟨resetBlock s, runEvent_reset s, resetBlock_phase s, rfl, rfl,
    fun _ ha => abandonJob_read_outside hinv hrun ha, engineStep_idle (resetBlock_phase s)⟩

/-- Settles O22: reset gives each register its value of R230 and STATUS that of the reset state, and abandons no job of
an idle block. -/
theorem resetLeavesItsValues : Obligations.ResetLeavesItsValues := by
  unfold Obligations.ResetLeavesItsValues
  intro s
  obtain ⟨hstatus, -⟩ := resetStateReadsAsTheSpecSays s.cfg
  refine ⟨resetBlock s, runEvent_reset s, ?irqEn, ?width, ?height, ?inBase, ?inLen, ?outBase, ?outLen, ?ready, ?done,
    ?overrun, ?result, resetBlock_phase s, ?irq, (regRead_status_resetBlock s).trans hstatus, ?id, ?cmd, ?reserved,
    resetBlock_cfg s, fun hidle => ?mem⟩
  case mem => rw [resetBlock_mem, abandonJob_idle hidle]
  all_goals rfl

end Sys2Proof.Machine
end
